-- ==== Sys2Proof/Word.lean ====
section
/-! DEFINITION. The word types of the machine (00_scope R7, R10 to R15) and nothing else: byte-order
and field helpers stand in Machine/Bytes.lean. -/

namespace Sys2Proof

/-- A byte, the unit of memory and of every byte sequence (R10). -/
abbrev Byte := BitVec 8

/-- A 32-bit word: a command word (R70), a SHA-256 word (R14), a round-key word (R192). -/
abbrev Word := BitVec 32

/-- A byte sequence, first byte first (R10). -/
abbrev Bytes := List Byte

/-- A 16-byte AES or GCM block as the number `int(B)` of R15: byte 0 is the most significant byte. -/
abbrev Block := BitVec 128

end Sys2Proof
end

