-- ==== Sys2Proof/Config.lean ====
section
/-! DEFINITION. What an implementation fixes: the parameters of 00_scope R6 and the shape of a hash
algorithm descriptor (41_hash R120). The spec leaves no result of any command open, so there is no
free value here. -/

namespace Sys2Proof

/-- The implementation parameters of R6 that a rule reads. A machine holds them as one constant
record (assumption log 1). -/
structure Params where
  /-- `N_CTX`: number of slots of the context table, 1..255. -/
  nCtx : Nat
  /-- `CTX_POOL_BYTES`: byte capacity of the context pool, 0..65535. -/
  poolBytes : Nat
  /-- `ADDR_BITS`: width of a memory address, 1..32. -/
  addrBits : Nat
  /-- `CORE_BASE`: address of the register window in the host's address space, the platform's to give (R6,
  U14); none where no platform has given it (assumption log 20). -/
  coreBase : Option Nat
deriving DecidableEq, Repr

/-- The defaults of R6, which has none for `CORE_BASE`. -/
def Params.default : Params := ⟨8, 2048, 32, none⟩

/-- The legal ranges of R6. It gives none for `CORE_BASE`, so any number is legal, a multiple of four or not
(assumption log 20, 21). -/
def Params.legal (p : Params) : Bool :=
  1 ≤ p.nCtx && p.nCtx ≤ 255 && p.poolBytes ≤ 65535 && 1 ≤ p.addrBits && p.addrBits ≤ 32

/-- A row of the hash descriptor table, field by field as R120 lists them. A chaining word is held
in 32 bits, the `word_bits` of the one populated row (assumption log 8). -/
structure HashAlg where
  id : Byte
  blockBytes : Nat
  digestBytes : Nat
  stateWords : Nat
  wordBits : Nat
  init : List Word
  compress : List Word → Bytes → List Word
  lenBytes : Nat
  lenBigEndian : Bool
  output : List Word → Bytes

end Sys2Proof
end

