-- ==== Sys2Proof/Syntax.lean ====
section
/-! DEFINITION. The command descriptor (30_encoding R70) and the commands: one constructor per row
of spec/opcode_table.json, its arguments the operands of 30_encoding R74 in R74's order. -/

namespace Sys2Proof

/-- A command descriptor, which is also the content of the command window: the eight 32-bit words
`W[0]` .. `W[7]` (R21, R70). -/
structure Descriptor where
  w0 : Word
  w1 : Word
  w2 : Word
  w3 : Word
  w4 : Word
  w5 : Word
  w6 : Word
  w7 : Word
deriving DecidableEq, Repr

/-- A command with the operands of R74. Addresses, lengths and counts are whole words (R93), handles
and identifiers the 8-bit fields of the header (R71). -/
inductive Instr where
  /-- `HASH_CREATE alg` (R129) -/
  | hashCreate (alg : Byte)
  /-- `HASH_UPDATE h, data, len` (R130) -/
  | hashUpdate (h : Byte) (data len : Word)
  /-- `HASH_DIGEST h, out` (R131) -/
  | hashDigest (h : Byte) (out : Word)
  /-- `CTX_RELEASE h` (R104) -/
  | ctxRelease (h : Byte)
  /-- `HMAC_INIT alg, key, key_len` (R152) -/
  | hmacInit (alg : Byte) (key keyLen : Word)
  /-- `HMAC_UPDATE h, data, len` (R153) -/
  | hmacUpdate (h : Byte) (data len : Word)
  /-- `HMAC_FINAL h, out` (R154) -/
  | hmacFinal (h : Byte) (out : Word)
  /-- `PBKDF2_DERIVE alg, pw, pw_len, salt, salt_len, out, out_len, iter` (R171) -/
  | pbkdf2Derive (alg : Byte) (pw pwLen salt saltLen out outLen iter : Word)
  /-- `GCM_INIT cipher, tag_len, key, key_len, iv, iv_len` (R230) -/
  | gcmInit (cipher tagLen : Byte) (key keyLen iv ivLen : Word)
  /-- `GCM_AAD h, data, len` (R231) -/
  | gcmAad (h : Byte) (data len : Word)
  /-- `GCM_ENCRYPT h, in, len, out` (R232) -/
  | gcmEncrypt (h : Byte) (input len out : Word)
  /-- `GCM_DECRYPT h, in, len, out` (R233) -/
  | gcmDecrypt (h : Byte) (input len out : Word)
  /-- `GCM_DIGEST h, tag_out` (R234) -/
  | gcmDigest (h : Byte) (tag : Word)
  /-- `GCM_VERIFY h, tag_in` (R235) -/
  | gcmVerify (h : Byte) (tag : Word)
  /-- The illegal command (R105): the opcode is one of the 242 values no other row has. -/
  | illegal (opc : Byte)
deriving DecidableEq, Repr

end Sys2Proof
end

