-- ==== Sys2Proof/WellFormed.lean ====
section
/-! DEFINITION. Which commands an encoding can spell under given parameters: the opcode of the illegal
command is none of the fourteen (30_encoding R73, R76) and every address operand is below
`2^ADDR_BITS` (R93). Every other operand value is legal as an encoding. -/

namespace Sys2Proof

/-- The fourteen opcodes of R73. -/
def legalOpcodes : List Byte :=
  [0x01, 0x02, 0x03, 0x0F, 0x11, 0x12, 0x13, 0x21, 0x31, 0x32, 0x33, 0x34, 0x35, 0x36]

/-- The opcode the command is written with (R73). -/
def Instr.opcode : Instr → Byte
  | .hashCreate _ => 0x01
  | .hashUpdate _ _ _ => 0x02
  | .hashDigest _ _ => 0x03
  | .ctxRelease _ => 0x0F
  | .hmacInit _ _ _ => 0x11
  | .hmacUpdate _ _ _ => 0x12
  | .hmacFinal _ _ => 0x13
  | .pbkdf2Derive _ _ _ _ _ _ _ _ => 0x21
  | .gcmInit _ _ _ _ _ _ => 0x31
  | .gcmAad _ _ _ => 0x32
  | .gcmEncrypt _ _ _ _ => 0x33
  | .gcmDecrypt _ _ _ _ => 0x34
  | .gcmDigest _ _ => 0x35
  | .gcmVerify _ _ => 0x36
  | .illegal opc => opc

/-- The address operands of a command (the "addr" columns of R74). -/
def Instr.addresses : Instr → List Word
  | .hashCreate _ => []
  | .hashUpdate _ data _ => [data]
  | .hashDigest _ out => [out]
  | .ctxRelease _ => []
  | .hmacInit _ key _ => [key]
  | .hmacUpdate _ data _ => [data]
  | .hmacFinal _ out => [out]
  | .pbkdf2Derive _ pw _ salt _ out _ _ => [pw, salt, out]
  | .gcmInit _ _ key _ iv _ => [key, iv]
  | .gcmAad _ data _ => [data]
  | .gcmEncrypt _ input _ out => [input, out]
  | .gcmDecrypt _ input _ out => [input, out]
  | .gcmDigest _ tag => [tag]
  | .gcmVerify _ tag => [tag]
  | .illegal _ => []

/-- The illegal command has an opcode of its own (R76). -/
def Instr.opcodeFits : Instr → Bool
  | .illegal opc => !legalOpcodes.contains opc
  | _ => true

/-- Every address operand is below `2^ADDR_BITS` (R93). -/
def Instr.addressesFit (p : Params) (i : Instr) : Bool :=
  i.addresses.all fun a => a.toNat < 2 ^ p.addrBits

/-- A command that a descriptor can spell and that passes the frame's static checks (R103 step 2). -/
def Instr.wellFormed (p : Params) (i : Instr) : Bool :=
  i.opcodeFits && i.addressesFit p

end Sys2Proof
end

