-- ==== Sys2Proof/Decode.lean ====
section
/-! DEFINITION. Decoding a command descriptor, total on any eight words, and after it the encoder
(30_encoding R70 to R76, R90, R93). The table of rows is R73 and R74 side by side. The check of address
words against `2^ADDR_BITS` needs a parameter and stands in the meanings (Operands.lean, assumption
log 9). -/

namespace Sys2Proof

/-! ## The header word (R71) -/

def Descriptor.opc (d : Descriptor) : Byte := d.w0.extractLsb' 0 8
def Descriptor.hnd (d : Descriptor) : Byte := d.w0.extractLsb' 8 8
def Descriptor.alg (d : Descriptor) : Byte := d.w0.extractLsb' 16 8
def Descriptor.aux (d : Descriptor) : Byte := d.w0.extractLsb' 24 8

/-- The operand words `W[1]` .. `W[7]`. -/
def Descriptor.operands (d : Descriptor) : List Word := [d.w1, d.w2, d.w3, d.w4, d.w5, d.w6, d.w7]

/-- The header word with the given fields (R71). -/
def header (opc hnd alg aux : Byte) : Word := (aux ++ alg ++ hnd ++ opc : BitVec 32)

/-! ## The table (R73, R74) -/

/-- One row of R73 and R74: which header fields carry an operand, and how many operand words follow
(a command's operand words are always `W[1]` .. `W[words]`). Everything else is marked `-`. -/
structure OpRow where
  opc : Byte
  mnemonic : String
  usesHnd : Bool
  usesAlg : Bool
  usesAux : Bool
  words : Nat
  build : Descriptor → Instr

def opTable : List OpRow :=
  [ ⟨0x01, "HASH_CREATE", false, true, false, 0, fun d => .hashCreate d.alg⟩,
    ⟨0x02, "HASH_UPDATE", true, false, false, 2, fun d => .hashUpdate d.hnd d.w1 d.w2⟩,
    ⟨0x03, "HASH_DIGEST", true, false, false, 1, fun d => .hashDigest d.hnd d.w1⟩,
    ⟨0x0F, "CTX_RELEASE", true, false, false, 0, fun d => .ctxRelease d.hnd⟩,
    ⟨0x11, "HMAC_INIT", false, true, false, 2, fun d => .hmacInit d.alg d.w1 d.w2⟩,
    ⟨0x12, "HMAC_UPDATE", true, false, false, 2, fun d => .hmacUpdate d.hnd d.w1 d.w2⟩,
    ⟨0x13, "HMAC_FINAL", true, false, false, 1, fun d => .hmacFinal d.hnd d.w1⟩ ] ++
  [ ⟨0x21, "PBKDF2_DERIVE", false, true, false, 7,
      fun d => .pbkdf2Derive d.alg d.w1 d.w2 d.w3 d.w4 d.w5 d.w6 d.w7⟩,
    ⟨0x31, "GCM_INIT", false, true, true, 4, fun d => .gcmInit d.alg d.aux d.w1 d.w2 d.w3 d.w4⟩,
    ⟨0x32, "GCM_AAD", true, false, false, 2, fun d => .gcmAad d.hnd d.w1 d.w2⟩,
    ⟨0x33, "GCM_ENCRYPT", true, false, false, 3, fun d => .gcmEncrypt d.hnd d.w1 d.w2 d.w3⟩,
    ⟨0x34, "GCM_DECRYPT", true, false, false, 3, fun d => .gcmDecrypt d.hnd d.w1 d.w2 d.w3⟩,
    ⟨0x35, "GCM_DIGEST", true, false, false, 1, fun d => .gcmDigest d.hnd d.w1⟩,
    ⟨0x36, "GCM_VERIFY", true, false, false, 1, fun d => .gcmVerify d.hnd d.w1⟩ ]

/-- Every field and word the row marks `-` is zero (R75). -/
def OpRow.reservedZero (r : OpRow) (d : Descriptor) : Bool :=
  (r.usesHnd || d.hnd == 0) && (r.usesAlg || d.alg == 0) && (r.usesAux || d.aux == 0) &&
    (d.operands.drop r.words).all (· == 0)

/-! ## Decode -/

/-- Why a descriptor spells no command: a legal opcode with a nonzero reserved field or word (R75),
named by the row's mnemonic. An illegal opcode is no rejection but the illegal command (R105). -/
inductive Reject where
  | reservedField (mnemonic : String)
deriving DecidableEq, Repr

/-- Decoding by the opcode's row, all other opcodes being the illegal command (R73, R75, R76). -/
def decode (d : Descriptor) : Except Reject Instr :=
  match opTable.find? (·.opc == d.opc) with
  | none => .ok (.illegal d.opc)
  | some r => if r.reservedZero d then .ok (r.build d) else .error (.reservedField r.mnemonic)

/-- The descriptor whose word `i` is bits `32*i+31 .. 32*i` of a number. -/
def Descriptor.ofNat (n : Nat) : Descriptor :=
  ⟨BitVec.ofNat 32 n, BitVec.ofNat 32 (n >>> 32), BitVec.ofNat 32 (n >>> 64),
    BitVec.ofNat 32 (n >>> 96), BitVec.ofNat 32 (n >>> 128), BitVec.ofNat 32 (n >>> 160),
    BitVec.ofNat 32 (n >>> 192), BitVec.ofNat 32 (n >>> 224)⟩

/-- The descriptor of an opcode-table word of `nbits` bits, every bit above them 0. -/
def Descriptor.ofTableWord (nbits w : Nat) : Descriptor := .ofNat (w % 2 ^ nbits)

/-- What the decoder reads from an opcode-table word. -/
def decodeTableWord (nbits w : Nat) : Option Instr :=
  (decode (.ofTableWord nbits w)).toOption

/-! ## Encode -/

/-- The eight words of a command (R71, R74), reserved fields and words zero (R75). -/
def encode : Instr → Descriptor
  | .hashCreate alg => ⟨header 0x01 0 alg 0, 0, 0, 0, 0, 0, 0, 0⟩
  | .hashUpdate h data len => ⟨header 0x02 h 0 0, data, len, 0, 0, 0, 0, 0⟩
  | .hashDigest h out => ⟨header 0x03 h 0 0, out, 0, 0, 0, 0, 0, 0⟩
  | .ctxRelease h => ⟨header 0x0F h 0 0, 0, 0, 0, 0, 0, 0, 0⟩
  | .hmacInit alg key keyLen => ⟨header 0x11 0 alg 0, key, keyLen, 0, 0, 0, 0, 0⟩
  | .hmacUpdate h data len => ⟨header 0x12 h 0 0, data, len, 0, 0, 0, 0, 0⟩
  | .hmacFinal h out => ⟨header 0x13 h 0 0, out, 0, 0, 0, 0, 0, 0⟩
  | .pbkdf2Derive alg pw pwLen salt saltLen out outLen iter =>
    ⟨header 0x21 0 alg 0, pw, pwLen, salt, saltLen, out, outLen, iter⟩
  | .gcmInit cipher tagLen key keyLen iv ivLen =>
    ⟨header 0x31 0 cipher tagLen, key, keyLen, iv, ivLen, 0, 0, 0⟩
  | .gcmAad h data len => ⟨header 0x32 h 0 0, data, len, 0, 0, 0, 0, 0⟩
  | .gcmEncrypt h input len out => ⟨header 0x33 h 0 0, input, len, out, 0, 0, 0, 0⟩
  | .gcmDecrypt h input len out => ⟨header 0x34 h 0 0, input, len, out, 0, 0, 0, 0⟩
  | .gcmDigest h tag => ⟨header 0x35 h 0 0, tag, 0, 0, 0, 0, 0, 0⟩
  | .gcmVerify h tag => ⟨header 0x36 h 0 0, tag, 0, 0, 0, 0, 0, 0⟩
  | .illegal opc => ⟨header opc 0 0 0, 0, 0, 0, 0, 0, 0, 0⟩

end Sys2Proof
end

