-- ==== Sys2Proof/Machine/State.lean ====
section
/-! DEFINITION. The machine's state as plain data (10_state R20 to R34, 20_memory R50), what makes a
step stop, and the state after reset. -/

namespace Sys2Proof.Machine

/-! ## Status codes -/

/-- The outcomes a command can report (30_encoding R79), in the source's order. -/
inductive StatusCode where
  | ok
  | outOfMemory
  | invalidArgument
  | invalidState
  | unsupportedAlgorithm
  | authenticationFailed
deriving DecidableEq, Repr

/-! ## Contexts

A field that "holds no value" (R33) is not represented, so that nothing can read it: `buf` and `gbuf`
hold exactly the pending bytes, `ks` is absent at a block boundary, a finalized hash or HMAC context has
no data fields (assumption log 6). -/

/-- The phase of a hash or HMAC context (R26, R27). -/
inductive HashPhase where
  | active
  | final
deriving DecidableEq, Repr

/-- A HashContext in phase ACTIVE (R26). -/
structure HashLive where
  alg : Byte
  digestLen : Byte
  blockSize : Byte
  /-- the chaining value -/
  state : List Word
  /-- bytes processed so far, modulo `2^64` -/
  count : BitVec 64
  /-- `buf[0..fill)` -/
  buf : Bytes
deriving DecidableEq, Repr

/-- A HashContext: ACTIVE with its data, or FINAL, when only the identity fields hold values. -/
inductive HashCtx where
  | active (c : HashLive)
  | final (alg digestLen blockSize : Byte)
deriving DecidableEq, Repr

/-- The keyed-PRF template: the chaining values after `key XOR ipad` and `key XOR opad` (R27, R151). -/
structure PrfTemplate where
  istate : List Word
  ostate : List Word
deriving DecidableEq, Repr

/-- An HmacContext (R27): ACTIVE with its inner HashContext and template, or FINAL. -/
inductive HmacCtx where
  | active (alg : Byte) (inner : HashLive) (tpl : PrfTemplate)
  | final (alg : Byte)
deriving DecidableEq, Repr

/-- The phase tag of an AesGcmContext (R28). No command ever finds a context in INIT. -/
inductive GcmPhase where
  | init
  | aad
  | cipher
  | done
deriving DecidableEq, Repr

/-- An AesGcmContext (R28). -/
structure GcmCtx where
  keyLen : Byte
  nr : BitVec 4
  /-- the expanded round-key schedule -/
  rk : List Word
  /-- the hash subkey -/
  h : Block
  /-- the initial counter block -/
  j0 : Block
  /-- the current counter block -/
  cb : Block
  /-- the running GHASH accumulator -/
  y : Block
  /-- the pending bytes of the GHASH block being gathered -/
  gbuf : Bytes
  /-- the keystream block in use, present only while `ct_len mod 16 != 0` -/
  ks : Option Block
  aadLen : BitVec 64
  ctLen : BitVec 64
  phase : GcmPhase
  tagLen : Byte
deriving DecidableEq, Repr

/-- A slot of the context table: exactly one of four variants (R24). -/
inductive Slot where
  | free
  | hash (c : HashCtx)
  | hmac (c : HmacCtx)
  | gcm (g : GcmCtx)
deriving DecidableEq, Repr

/-! ## Memory -/

/-- Memory (R50) as the listed cells, addresses strictly rising, no cell equal to what an unlisted
address reads as (Machine/Memory.lean gives the operations and the form). -/
abbrev Memory := List Host.Cell

/-- One byte access of the core's master port (R52, R53, R57). -/
inductive BusAccess where
  | read (addr : Nat)
  | write (addr : Nat)
deriving DecidableEq, Repr

/-! ## The host -/

/-- The width of an access to the register window. Only whole words are defined (R55, R56). -/
inductive AccessWidth where
  | byte
  | half
  | word
deriving DecidableEq, Repr

/-- What the host can do to the machine, one access each (R8, R51, R58, R80, R270). The window is reached by
register offset, or by an address of the host's own address space, where it begins at `CORE_BASE`. -/
inductive HostAccess where
  | windowRead (width : AccessWidth) (offset : Byte)
  | windowWrite (width : AccessWidth) (offset : Byte) (value : Word)
  | busRead (width : AccessWidth) (addr : Nat)
  | busWrite (width : AccessWidth) (addr : Nat) (value : Word)
  | memRead (addr : Word)
  | memWrite (addr : Word) (value : Byte)
  | reset
deriving DecidableEq, Repr

/-! ## State -/

structure State where
  /-- the parameters of R6, which no step changes (assumption log 1) -/
  cfg : Params
  /-- the command window `W[0..7]` (R21) -/
  w : Descriptor
  /-- `STATUS` (R23) -/
  status : Word
  /-- `POOL_FREE` (R25) -/
  poolFree : BitVec 16
  /-- the context table; its length is `N_CTX` (R24) -/
  ctx : List Slot
  /-- memory, the platform's state (R20, R50) -/
  mem : Memory
  /-- the model's own: the accesses the host is still to make, in program order (assumption log 3) -/
  host : List HostAccess
  /-- the model's own: what the host's last read returned (assumption log 4) -/
  readData : Option Word
  /-- the model's own: the last command's memory accesses, oldest first, the event history of R61
  (assumption log 5) -/
  log : List BusAccess
deriving DecidableEq, Repr

/-- Why a step stops with a fault. No command ever does: a failing command goes on (R255). -/
inductive Fault where
  /-- Raised by a host access to memory at or above `2^ADDR_BITS`, an address that does not exist
  (R50). Safe (assumption log 13). -/
  | hostAddressOutsideMem
deriving DecidableEq, Repr

/-- Why a step is refused. -/
inductive Refusal where
  /-- An instruction with no meaning yet: raised by no arm of `exec` any more. Safe. -/
  | notModelled (mnemonic : String)
  /-- Raised by a host access to the register window that is narrower than a word or not aligned,
  which the spec does not define and a model refuses (R56, R87, U9). Safe (assumption log 14). -/
  | windowAccessUndefined
  /-- Raised by a host access at an address of the host's space that is not in the 256 bytes at
  `CORE_BASE`: what lies there is the platform's and not this machine's (R58, R80). Safe (assumption
  log 20). -/
  | hostAddressNotInWindow
deriving DecidableEq, Repr

abbrev Result := Host.Outcome State Fault Refusal

/-- The machine after reset, with the default parameters: every core register at R34's value; nothing
is listed in memory (assumption log 2) and the host has made no access. -/
def State.reset : State where
  cfg := Params.default
  w := ⟨0, 0, 0, 0, 0, 0, 0, 0⟩
  status := 0x0000FF00
  poolFree := 2048
  ctx := List.replicate 8 .free
  mem := []
  host := []
  readData := none
  log := []

end Sys2Proof.Machine
end

