-- ==== Sys2Proof/Machine/Flags.lean ====
section
/-! DEFINITION. The STATUS word, the only flag-like state (10_state R23, 30_encoding R79, R85), and the
phase encodings (R88). -/

namespace Sys2Proof.Machine

/-- The number of a status code (R79). -/
def StatusCode.code : StatusCode → Byte
  | .ok => 0x00
  | .outOfMemory => 0x01
  | .invalidArgument => 0x02
  | .invalidState => 0x03
  | .unsupportedAlgorithm => 0x04
  | .authenticationFailed => 0x05

/-- `STATUS.HND` after any outcome but a successful creating command (R23). -/
def noHandle : Byte := 0xFF

/-- The STATUS word: `CODE` in bits 7:0, `HND` in bits 15:8, bits 31:16 zero (R23, R85). -/
def statusWord (code : StatusCode) (hnd : Byte) : Word :=
  ((0 : BitVec 16) ++ hnd ++ code.code : BitVec 32)

/-- `STATUS.CODE` (R23). -/
def State.code (s : State) : Byte := s.status.extractLsb' 0 8

/-- `STATUS.HND` (R23). -/
def State.hnd (s : State) : Byte := s.status.extractLsb' 8 8

/-- The phase of a hash context (R26). -/
def HashCtx.phase : HashCtx → HashPhase
  | .active _ => .active
  | .final _ _ _ => .final

/-- The phase of an HMAC context (R27). -/
def HmacCtx.phase : HmacCtx → HashPhase
  | .active _ _ _ => .active
  | .final _ => .final

/-- The phase encodings of hash and HMAC contexts (R88). -/
def HashPhase.code : HashPhase → BitVec 1
  | .active => 0
  | .final => 1

/-- The phase encodings of GCM contexts (R88). -/
def GcmPhase.code : GcmPhase → BitVec 2
  | .init => 0
  | .aad => 1
  | .cipher => 2
  | .done => 3

end Sys2Proof.Machine
end

