-- ==== Sys2Proof/Machine/Bytes.lean ====
section
/-! DEFINITION. Byte-order and byte-sequence helpers: the notation of 00_scope R12, R14 and R15. -/

namespace Sys2Proof.Machine

/-- The `n`-byte big-endian encoding of an unsigned integer; `BE32` and `BE64` are `n = 4`, `8` (R12). -/
def beBytes (n x : Nat) : Bytes :=
  (List.range n).map fun k => BitVec.ofNat 8 (x >>> (8 * (n - 1 - k)))

/-- The unsigned integer a big-endian byte sequence encodes. -/
def beNat (s : Bytes) : Nat := s.foldl (fun n b => n * 256 + b.toNat) 0

/-- `be32(s)` (R12). -/
def be32 (s : Bytes) : Word := BitVec.ofNat 32 (beNat s)

/-- `BE32(x)` of a word (R12). -/
def wordBytes (x : Word) : Bytes := beBytes 4 x.toNat

/-- The words of a byte sequence of `4*n` bytes, big-endian each (R14, R192). -/
def beWords (n : Nat) (s : Bytes) : List Word :=
  (List.range n).map fun t => be32 ((s.drop (4 * t)).take 4)

/-- `s` followed by zero bytes up to length `n`. -/
def zeroPad (n : Nat) (s : Bytes) : Bytes := s ++ List.replicate (n - s.length) 0

/-- Bytewise XOR of two sequences (R12). -/
def xorBytes (a b : Bytes) : Bytes := List.zipWith (· ^^^ ·) a b

/-- Byte `k` of a block, byte 0 most significant (R15). -/
def blockByte (b : Block) (k : Nat) : Byte := b.extractLsb' (8 * (15 - k)) 8

/-- A block as its 16 bytes (R15). -/
def blockBytes (b : Block) : Bytes := (List.range 16).map (blockByte b)

/-- `int(B)` of a 16-byte sequence (R15). -/
def blockOf (s : Bytes) : Block := BitVec.ofNat 128 (beNat s)

end Sys2Proof.Machine
end

