-- ==== Sys2Proof/Machine/Aes.lean ====
section
/-! DEFINITION. AES: the round-key schedule and block encryption, forward cipher only (44_aes R190 to
R194). -/

namespace Sys2Proof.Machine

/-- The S-box, row `R_` of the spec's table a line (R190). -/
def sboxRows : List Bytes :=
  [[0x63, 0x7c, 0x77, 0x7b, 0xf2, 0x6b, 0x6f, 0xc5, 0x30, 0x01, 0x67, 0x2b, 0xfe, 0xd7, 0xab, 0x76],
   [0xca, 0x82, 0xc9, 0x7d, 0xfa, 0x59, 0x47, 0xf0, 0xad, 0xd4, 0xa2, 0xaf, 0x9c, 0xa4, 0x72, 0xc0],
   [0xb7, 0xfd, 0x93, 0x26, 0x36, 0x3f, 0xf7, 0xcc, 0x34, 0xa5, 0xe5, 0xf1, 0x71, 0xd8, 0x31, 0x15],
   [0x04, 0xc7, 0x23, 0xc3, 0x18, 0x96, 0x05, 0x9a, 0x07, 0x12, 0x80, 0xe2, 0xeb, 0x27, 0xb2, 0x75]] ++
  [[0x09, 0x83, 0x2c, 0x1a, 0x1b, 0x6e, 0x5a, 0xa0, 0x52, 0x3b, 0xd6, 0xb3, 0x29, 0xe3, 0x2f, 0x84],
   [0x53, 0xd1, 0x00, 0xed, 0x20, 0xfc, 0xb1, 0x5b, 0x6a, 0xcb, 0xbe, 0x39, 0x4a, 0x4c, 0x58, 0xcf],
   [0xd0, 0xef, 0xaa, 0xfb, 0x43, 0x4d, 0x33, 0x85, 0x45, 0xf9, 0x02, 0x7f, 0x50, 0x3c, 0x9f, 0xa8],
   [0x51, 0xa3, 0x40, 0x8f, 0x92, 0x9d, 0x38, 0xf5, 0xbc, 0xb6, 0xda, 0x21, 0x10, 0xff, 0xf3, 0xd2]] ++
  [[0xcd, 0x0c, 0x13, 0xec, 0x5f, 0x97, 0x44, 0x17, 0xc4, 0xa7, 0x7e, 0x3d, 0x64, 0x5d, 0x19, 0x73],
   [0x60, 0x81, 0x4f, 0xdc, 0x22, 0x2a, 0x90, 0x88, 0x46, 0xee, 0xb8, 0x14, 0xde, 0x5e, 0x0b, 0xdb],
   [0xe0, 0x32, 0x3a, 0x0a, 0x49, 0x06, 0x24, 0x5c, 0xc2, 0xd3, 0xac, 0x62, 0x91, 0x95, 0xe4, 0x79],
   [0xe7, 0xc8, 0x37, 0x6d, 0x8d, 0xd5, 0x4e, 0xa9, 0x6c, 0x56, 0xf4, 0xea, 0x65, 0x7a, 0xae, 0x08]] ++
  [[0xba, 0x78, 0x25, 0x2e, 0x1c, 0xa6, 0xb4, 0xc6, 0xe8, 0xdd, 0x74, 0x1f, 0x4b, 0xbd, 0x8b, 0x8a],
   [0x70, 0x3e, 0xb5, 0x66, 0x48, 0x03, 0xf6, 0x0e, 0x61, 0x35, 0x57, 0xb9, 0x86, 0xc1, 0x1d, 0x9e],
   [0xe1, 0xf8, 0x98, 0x11, 0x69, 0xd9, 0x8e, 0x94, 0x9b, 0x1e, 0x87, 0xe9, 0xce, 0x55, 0x28, 0xdf],
   [0x8c, 0xa1, 0x89, 0x0d, 0xbf, 0xe6, 0x42, 0x68, 0x41, 0x99, 0x2d, 0x0f, 0xb0, 0x54, 0xbb, 0x16]]

/-- `SBOX[a]` (R190). -/
def sbox (a : Byte) : Byte := (sboxRows.getD (a.toNat / 16) []).getD (a.toNat % 16) 0

/-- `xtime`, `mul2`, `mul3` (R191). -/
def xtime (a : Byte) : Byte := if a.getLsbD 7 then (a <<< 1) ^^^ 0x1B else a <<< 1
def mul2 (a : Byte) : Byte := xtime a
def mul3 (a : Byte) : Byte := xtime a ^^^ a

/-- `RCON[1..10]`, entry `RCON[j]` at index `j - 1` (R191). -/
def rconTable : Bytes := [0x01, 0x02, 0x04, 0x08, 0x10, 0x20, 0x40, 0x80, 0x1b, 0x36]

def rcon (j : Nat) : Byte := rconTable.getD (j - 1) 0

/-- `SubWord`, `RotWord` (R192). -/
def subWord (w : Word) : Word :=
  (sbox (w.extractLsb' 24 8) ++ sbox (w.extractLsb' 16 8) ++ sbox (w.extractLsb' 8 8) ++
    sbox (w.extractLsb' 0 8) : BitVec 32)

def rotWord (w : Word) : Word := (w <<< 8) ||| (w >>> 24)

/-- The word XORed into `rk[i-Nk]` to give `rk[i]`: `t` at the end of the loop body of R192. -/
def keyTemp (nk i : Nat) (prev : Word) : Word :=
  if i % nk = 0 then subWord (rotWord prev) ^^^ ((rcon (i / nk)).setWidth 32 <<< 24)
  else if 6 < nk ∧ i % nk = 4 then subWord prev
  else prev

/-- Extending the schedule by `rk[i]`, `i` being the length so far (R192). -/
def keyStep (nk : Nat) (rk : List Word) : List Word :=
  let i := rk.length
  rk ++ [rk.getD (i - nk) 0 ^^^ keyTemp nk i (rk.getD (i - 1) 0)]

/-- The number of rounds for a key length in bytes: `nr = Nk + 6` (R192). -/
def roundsOf (keyLen : Nat) : Nat := keyLen / 4 + 6

/-- `key_expand(key)`: the schedule of `4*(nr+1)` words (R192). -/
def keyExpand (key : Bytes) : List Word :=
  let nk := key.length / 4
  (List.range (4 * (roundsOf key.length + 1) - nk)).foldl (fun rk _ => keyStep nk rk) (beWords nk key)

/-! The four transformations of the state `s[0..15]` (R193). -/

/-- The sixteen bytes `BE32(rk[4r]) ‖ .. ‖ BE32(rk[4r+3])`. -/
def roundKey (rk : List Word) (r : Nat) : Bytes :=
  (List.range 4).flatMap fun c => wordBytes (rk.getD (4 * r + c) 0)

def addRoundKey (rk : List Word) (r : Nat) (s : Bytes) : Bytes := xorBytes s (roundKey rk r)

def subBytes (s : Bytes) : Bytes := s.map sbox

def shiftRows (s : Bytes) : Bytes :=
  (List.range 16).map fun k => s.getD (4 * ((k / 4 + k % 4) % 4) + k % 4) 0

/-- One column of `MixColumns`. -/
def mixColumn (a0 a1 a2 a3 : Byte) : Bytes :=
  [mul2 a0 ^^^ mul3 a1 ^^^ a2 ^^^ a3, a0 ^^^ mul2 a1 ^^^ mul3 a2 ^^^ a3,
    a0 ^^^ a1 ^^^ mul2 a2 ^^^ mul3 a3, mul3 a0 ^^^ a1 ^^^ a2 ^^^ mul2 a3]

def mixColumns (s : Bytes) : Bytes :=
  (List.range 4).flatMap fun c =>
    mixColumn (s.getD (4 * c) 0) (s.getD (4 * c + 1) 0) (s.getD (4 * c + 2) 0) (s.getD (4 * c + 3) 0)

/-- A middle round `r` (R194). -/
def aesRound (rk : List Word) (s : Bytes) (r : Nat) : Bytes :=
  addRoundKey rk r (mixColumns (shiftRows (subBytes s)))

/-- `AES_encrypt(rk, nr, in)` (R194). -/
def aesEncrypt (rk : List Word) (nr : Nat) (input : Block) : Block :=
  let s := addRoundKey rk 0 (blockBytes input)
  let s := (List.range (nr - 1)).foldl (fun s r => aesRound rk s (r + 1)) s
  blockOf (addRoundKey rk nr (shiftRows (subBytes s)))

end Sys2Proof.Machine
end

