-- ==== Sys2Proof/Machine/Ghash.lean ====
section
/-! DEFINITION. The AES-GCM unit over a context: GHASH, counter mode, tag (45_gcm R210 to R218) and the
context a GCM_INIT builds (R230). -/

namespace Sys2Proof.Machine

/-- The reduction constant `R = 0xE1 << 120` (R210). -/
def ghashR : Block := 0xE1000000000000000000000000000000

/-- Iteration `i` of the loop of `GMUL` on `(Z, V)` (R210). -/
def gmulStep (x : Block) (zv : Block × Block) (i : Nat) : Block × Block :=
  (if x.getLsbD (127 - i) then zv.1 ^^^ zv.2 else zv.1,
    if zv.2.getLsbD 0 then (zv.2 >>> 1) ^^^ ghashR else zv.2 >>> 1)

/-- `GMUL(X, Y)` (R210). -/
def gmul (x y : Block) : Block := ((List.range 128).foldl (gmulStep x) (0, y)).1

/-- The accumulator after one GHASH step (R211). -/
def ghashStep (h y b : Block) : Block := gmul (y ^^^ b) h

/-- `ghash_block(g, B)` (R211). -/
def ghashBlock (g : GcmCtx) (b : Block) : GcmCtx := { g with y := ghashStep g.h g.y b }

/-- `inc32(CB)`: the last four bytes count modulo `2^32`, the first twelve stay (R212). -/
def inc32 (cb : Block) : Block :=
  (cb.extractLsb' 32 96 ++ (cb.extractLsb' 0 32 + 1 : BitVec 32) : BitVec 128)

/-- The 16-byte blocks of a byte sequence of `16*n` bytes. -/
def blocksOf (n : Nat) (s : Bytes) : List Block :=
  (List.range n).map fun i => blockOf ((s.drop (16 * i)).take 16)

/-- `derive_J0(H, iv)` (R213). -/
def deriveJ0 (h : Block) (iv : Bytes) : Block :=
  if iv.length = 12 then blockOf (iv ++ [0, 0, 0, 1])
  else
    let n := (iv.length + 15) / 16
    let y := (blocksOf n (zeroPad (16 * n) iv)).foldl (ghashStep h) 0
    ghashStep h y (blockOf (List.replicate 8 0 ++ beBytes 8 (8 * iv.length)))

/-- `ghash_flush(g, n)` (R214): the pending bytes, zero-padded, go into the accumulator and are no
longer pending. -/
def ghashFlush (g : GcmCtx) (n : Nat) : GcmCtx :=
  let f := n % 16
  let g' := if f ≠ 0 then ghashBlock g (blockOf (zeroPad 16 (g.gbuf.take f))) else g
  { g' with gbuf := [] }

/-- `gcm_aad_byte(g, b)` (R215). -/
def gcmAadByte (g : GcmCtx) (b : Byte) : GcmCtx :=
  let buf := g.gbuf ++ [b]
  let g := { g with aadLen := g.aadLen + 1, gbuf := buf }
  if g.aadLen.toNat % 16 = 0 then { ghashBlock g (blockOf buf) with gbuf := [] } else g

/-- The keystream block for the next byte and the context holding it (first lines of R216): at a block
boundary, which is where `ks` holds no value (R28), the counter is incremented and encrypted. -/
def gcmKeystream (g : GcmCtx) : Block × GcmCtx :=
  match g.ks with
  | some k => (k, g)
  | none =>
    let cb := inc32 g.cb
    let k := aesEncrypt g.rk g.nr.toNat cb
    (k, { g with cb := cb, ks := some k })

/-- `gcm_crypt_byte(g, b, enc)`: the output byte and the context after it (R216). -/
def gcmCryptByte (g : GcmCtx) (b : Byte) (enc : Bool) : Byte × GcmCtx :=
  let p := g.ctLen.toNat % 16
  let kg := gcmKeystream g
  let o := b ^^^ blockByte kg.1 p
  let buf := kg.2.gbuf ++ [if enc then o else b]
  let g : GcmCtx := { kg.2 with ctLen := g.ctLen + 1, gbuf := buf }
  (o, if g.ctLen.toNat % 16 = 0 then { ghashBlock g (blockOf buf) with gbuf := [], ks := none } else g)

/-- Entering phase CIPHER at the first cipher-data call, whatever its length (R232, R233). -/
def gcmEnterCipher (g : GcmCtx) : GcmCtx :=
  if g.phase = .aad then { ghashFlush g g.aadLen.toNat with phase := .cipher } else g

/-- `gcm_tag(g)`: the leading `tag_len` bytes of the tag and the context, now DONE (R217). -/
def gcmTag (g : GcmCtx) : Bytes × GcmCtx :=
  let g := if g.phase = .aad then ghashFlush g g.aadLen.toNat else ghashFlush g g.ctLen.toNat
  let lens := beBytes 8 ((8 * g.aadLen.toNat) % 2 ^ 64) ++ beBytes 8 ((8 * g.ctLen.toNat) % 2 ^ 64)
  let g := ghashBlock g (blockOf lens)
  let t := g.y ^^^ aesEncrypt g.rk g.nr.toNat g.j0
  ((blockBytes t).take g.tagLen.toNat, { g with phase := .done })

/-- `ct_equal(a, b, n)`: every byte is examined, whatever the values (R218). -/
def ctEqual (a b : Bytes) : Bool :=
  (xorBytes a b).foldl (· ||| ·) (0 : Byte) = 0

/-- The context a successful GCM_INIT builds (R230). -/
def gcmInitCtx (tagLen : Byte) (key iv : Bytes) : GcmCtx :=
  let rk := keyExpand key
  let nr := roundsOf key.length
  let h := aesEncrypt rk nr 0
  let j0 := deriveJ0 h iv
  { keyLen := BitVec.ofNat 8 key.length
    nr := BitVec.ofNat 4 nr
    rk := rk
    h := h
    j0 := j0
    cb := j0
    y := 0
    gbuf := []
    ks := none
    aadLen := 0
    ctLen := 0
    phase := .aad
    tagLen := tagLen }

end Sys2Proof.Machine
end

