-- ==== Sys2Proof/Machine/Sha256.lean ====
section
/-! DEFINITION. SHA-256 (41_hash R121 to R124) and the hash descriptor table (R120). -/

namespace Sys2Proof.Machine

/-- The round constants `K[0..63]` (R122), one row of the spec's table a line. -/
def sha256K : List Word :=
  [0x428a2f98, 0x71374491, 0xb5c0fbcf, 0xe9b5dba5] ++
  [0x3956c25b, 0x59f111f1, 0x923f82a4, 0xab1c5ed5] ++
  [0xd807aa98, 0x12835b01, 0x243185be, 0x550c7dc3] ++
  [0x72be5d74, 0x80deb1fe, 0x9bdc06a7, 0xc19bf174] ++
  [0xe49b69c1, 0xefbe4786, 0x0fc19dc6, 0x240ca1cc] ++
  [0x2de92c6f, 0x4a7484aa, 0x5cb0a9dc, 0x76f988da] ++
  [0x983e5152, 0xa831c66d, 0xb00327c8, 0xbf597fc7] ++
  [0xc6e00bf3, 0xd5a79147, 0x06ca6351, 0x14292967] ++
  [0x27b70a85, 0x2e1b2138, 0x4d2c6dfc, 0x53380d13] ++
  [0x650a7354, 0x766a0abb, 0x81c2c92e, 0x92722c85] ++
  [0xa2bfe8a1, 0xa81a664b, 0xc24b8b70, 0xc76c51a3] ++
  [0xd192e819, 0xd6990624, 0xf40e3585, 0x106aa070] ++
  [0x19a4c116, 0x1e376c08, 0x2748774c, 0x34b0bcb5] ++
  [0x391c0cb3, 0x4ed8aa4a, 0x5b9cca4f, 0x682e6ff3] ++
  [0x748f82ee, 0x78a5636f, 0x84c87814, 0x8cc70208] ++
  [0x90befffa, 0xa4506ceb, 0xbef9a3f7, 0xc67178f2]

/-- The initial chaining value (R121). -/
def sha256Init : List Word :=
  [0x6a09e667, 0xbb67ae85, 0x3c6ef372, 0xa54ff53a, 0x510e527f, 0x9b05688c, 0x1f83d9ab, 0x5be0cd19]

/-! The logical functions (R123), with `ROTR` of R12. -/

def rotr (x : Word) (n : Nat) : Word := (x >>> n) ||| (x <<< (32 - n))
def shaCh (x y z : Word) : Word := (x &&& y) ^^^ (~~~x &&& z)
def shaMaj (x y z : Word) : Word := (x &&& y) ^^^ (x &&& z) ^^^ (y &&& z)
def bsig0 (x : Word) : Word := rotr x 2 ^^^ rotr x 13 ^^^ rotr x 22
def bsig1 (x : Word) : Word := rotr x 6 ^^^ rotr x 11 ^^^ rotr x 25
def ssig0 (x : Word) : Word := rotr x 7 ^^^ rotr x 18 ^^^ (x >>> 3)
def ssig1 (x : Word) : Word := rotr x 17 ^^^ rotr x 19 ^^^ (x >>> 10)

/-- Extending the message schedule by `Wt[t]`, `t` being the length so far (R124). -/
def scheduleStep (wt : List Word) : List Word :=
  let t := wt.length
  wt ++ [ssig1 (wt.getD (t - 2) 0) + wt.getD (t - 7) 0 + ssig0 (wt.getD (t - 15) 0)
    + wt.getD (t - 16) 0]

/-- The message schedule `Wt[0..63]` of a block (R124). -/
def schedule (block : Bytes) : List Word :=
  (List.range 48).foldl (fun wt _ => scheduleStep wt) (beWords 16 block)

/-- The working variables of the compression step (R124). -/
structure ShaVars where
  a : Word
  b : Word
  c : Word
  d : Word
  e : Word
  f : Word
  g : Word
  h : Word
deriving DecidableEq, Repr

/-- The working variables from a chaining value, and back. -/
def shaVarsOf (st : List Word) : ShaVars :=
  ⟨st.getD 0 0, st.getD 1 0, st.getD 2 0, st.getD 3 0, st.getD 4 0, st.getD 5 0, st.getD 6 0,
    st.getD 7 0⟩

def shaWordsOf (v : ShaVars) : List Word := [v.a, v.b, v.c, v.d, v.e, v.f, v.g, v.h]

/-- One round with the pair `(K[t], Wt[t])` (R124). -/
def shaRound (v : ShaVars) (kw : Word × Word) : ShaVars :=
  let t1 := v.h + bsig1 v.e + shaCh v.e v.f v.g + kw.1 + kw.2
  let t2 := bsig0 v.a + shaMaj v.a v.b v.c
  ⟨t1 + t2, v.a, v.b, v.c, v.d + t1, v.e, v.f, v.g⟩

/-- The compression step (R124). -/
def sha256Compress (hin : List Word) (block : Bytes) : List Word :=
  let v := (sha256K.zip (schedule block)).foldl shaRound (shaVarsOf hin)
  List.zipWith (· + ·) (shaWordsOf (shaVarsOf hin)) (shaWordsOf v)

/-- The SHA-256 descriptor (R121). -/
def sha256 : HashAlg where
  id := 0x00
  blockBytes := 64
  digestBytes := 32
  stateWords := 8
  wordBits := 32
  init := sha256Init
  compress := sha256Compress
  lenBytes := 8
  lenBigEndian := true
  output := fun st => st.flatMap wordBytes

/-- The hash descriptor table: `N_ALG = 1` entry (R120). -/
def hashTable : List HashAlg := [sha256]

/-- `lookup(id)` (R120, R77); `none` is UnsupportedAlgorithm. -/
def lookupAlg (id : Byte) : Option HashAlg := hashTable.find? (·.id == id)

end Sys2Proof.Machine
end

