-- ==== Sys2Proof/Machine/HashEngine.lean ====
section
/-! DEFINITION. The streaming hash engine over any descriptor (41_hash R125, R126), HMAC's keyed-PRF
template (42_hmac R150, R151) and the PRF of PBKDF2 (43_pbkdf2 R170, R172). -/

namespace Sys2Proof.Machine

/-! ## The engine -/

/-- `hash_init(d)` (R125). -/
def hashInit (d : HashAlg) : HashLive where
  alg := d.id
  digestLen := BitVec.ofNat 8 d.digestBytes
  blockSize := BitVec.ofNat 8 d.blockBytes
  state := d.init
  count := 0
  buf := []

/-- `hash_absorb(c, b)` (R125). `buf` is the bytes below the fill level, so storing at `buf[f]` appends. -/
def hashAbsorb (d : HashAlg) (c : HashLive) (b : Byte) : HashLive :=
  let f := c.count.toNat % c.blockSize.toNat
  let buf := c.buf ++ [b]
  if f = c.blockSize.toNat - 1 then
    { c with count := c.count + 1, state := d.compress c.state buf, buf := [] }
  else { c with count := c.count + 1, buf := buf }

/-- `hash_update(c, s)` (R125). -/
def hashUpdate (d : HashAlg) (c : HashLive) (s : Bytes) : HashLive := s.foldl (hashAbsorb d) c

/-- The zero fill of the padding: `while count mod block_size != block_size - len_bytes` (R126). It ends
within `block_size` bytes, which is the fuel it is given. -/
def padZeros (d : HashAlg) : Nat → HashLive → HashLive
  | 0, c => c
  | n + 1, c =>
    if c.count.toNat % c.blockSize.toNat = c.blockSize.toNat - d.lenBytes then c
    else padZeros d n (hashAbsorb d c 0x00)

/-- The length field of the padding, in the descriptor's byte order (R120, R126; assumption log 8). -/
def lenField (d : HashAlg) (bits : Nat) : Bytes :=
  let be := beBytes d.lenBytes bits
  if d.lenBigEndian then be else be.reverse

/-- `hash_finish(c)`: the digest (R126). The context itself becomes FINAL in the caller. -/
def hashFinish (d : HashAlg) (c : HashLive) : Bytes :=
  let bits := (8 * c.count.toNat) % 2 ^ (8 * d.lenBytes)
  let c := hashAbsorb d c 0x80
  let c := padZeros d c.blockSize.toNat c
  let c := hashUpdate d c (lenField d bits)
  (d.output c.state).take d.digestBytes

/-! ## HMAC -/

/-- `IPAD` and `OPAD` (R150). -/
def ipad : Byte := 0x36
def opad : Byte := 0x5c

/-- The key zero-padded to a block, hashed first if it exceeds one (`K0` of R151). -/
def hmacK0 (d : HashAlg) (key : Bytes) : Bytes :=
  let k := if d.blockBytes < key.length then hashFinish d (hashUpdate d (hashInit d) key) else key
  zeroPad d.blockBytes k

/-- `hmac_template(d, key)` (R151). -/
def hmacTemplate (d : HashAlg) (key : Bytes) : PrfTemplate :=
  let k0 := hmacK0 d key
  { istate := d.compress d.init (k0.map (· ^^^ ipad))
    ostate := d.compress d.init (k0.map (· ^^^ opad)) }

/-- `hmac_inner(d, istate)`: a context that has absorbed one primed block (R151). -/
def hmacInner (d : HashAlg) (st : List Word) : HashLive :=
  { hashInit d with state := st, count := BitVec.ofNat 64 d.blockBytes }

/-- `prf_finish(d, c, ostate)` (R172), which is also the tail of HMAC_FINAL (R154). -/
def prfFinish (d : HashAlg) (c : HashLive) (ostate : List Word) : Bytes :=
  hashFinish d (hashUpdate d (hmacInner d ostate) (hashFinish d c))

/-! ## PBKDF2 -/

/-- The scratch area of one derivation (R31): the keyed-PRF template and the inner hash after the salt. -/
structure Pbkdf2Scratch where
  tpl : PrfTemplate
  salted : HashLive
deriving DecidableEq, Repr

/-- The scratch of a password and a salt, each absorbed once (R171, R172). -/
def pbkdf2Setup (d : HashAlg) (pw salt : Bytes) : Pbkdf2Scratch :=
  let tpl := hmacTemplate d pw
  { tpl := tpl, salted := hashUpdate d (hmacInner d tpl.istate) salt }

/-- `n` further iterations from `U` and `T` (the inner loop of R171). -/
def pbkdf2Loop (d : HashAlg) (tpl : PrfTemplate) : Nat → Bytes → Bytes → Bytes
  | 0, _, t => t
  | n + 1, u, t =>
    let u' := prfFinish d (hashUpdate d (hmacInner d tpl.istate) u) tpl.ostate
    pbkdf2Loop d tpl n u' (xorBytes t u')

/-- The output `T` of block `i`, `i` from 1 (R171). -/
def pbkdf2Block (d : HashAlg) (x : Pbkdf2Scratch) (iter i : Nat) : Bytes :=
  let u1 := prfFinish d (hashUpdate d x.salted (beBytes 4 i)) x.tpl.ostate
  pbkdf2Loop d x.tpl (iter - 1) u1 u1

end Sys2Proof.Machine
end

