-- ==== Sys2Proof/Machine/Memory.lean ====
section
/-! DEFINITION. The operations over memory (20_memory R50, R52, R53): one byte read and one byte
written, and the canonical form every write keeps. -/

namespace Sys2Proof.Machine

/-- What an address not listed reads as. DESIGN CHOICE, unsafe (assumption log 2). -/
def Memory.unwritten : Byte := 0

/-- The byte at an address (R52). -/
def Memory.read : Memory → Nat → Byte
  | [], _ => Memory.unwritten
  | (a, b) :: m, x => if a = x then b else Memory.read m x

/-- Writing one byte (R53), keeping the canonical form. -/
def Memory.write : Memory → Nat → Byte → Memory
  | [], x, v => if v = Memory.unwritten then [] else [(x, v)]
  | (a, b) :: m, x, v =>
    if x < a then (if v = Memory.unwritten then (a, b) :: m else (x, v) :: (a, b) :: m)
    else if a = x then (if v = Memory.unwritten then m else (x, v) :: m)
    else (a, b) :: Memory.write m x v

/-- The canonical form: addresses strictly rising, no cell that reads as an unlisted one. -/
def Memory.wf : Memory → Bool
  | [] => true
  | [(_, b)] => b != Memory.unwritten
  | (a, b) :: (a', b') :: m => b != Memory.unwritten && a < a' && Memory.wf ((a', b') :: m)

/-- Every listed address is below a bound. -/
def Memory.below (bound : Nat) (m : Memory) : Bool := m.all fun c => c.1 < bound

/-- The bytes at the given addresses, in order. -/
def Memory.readAll (m : Memory) (as : List Nat) : Bytes := as.map m.read

/-- Writing bytes one after another, each at its own address. -/
def Memory.writeAll (m : Memory) (cs : List Host.Cell) : Memory :=
  cs.foldl (fun m c => m.write c.1 c.2) m

end Sys2Proof.Machine
end

