-- ==== Sys2Proof/Machine/Ops.lean ====
section
/-! DEFINITION. The operations every command shares: the master port (20_memory R52, R53, R59, R61), how
a command ends (40_context R106, 60_exceptions R255), the context table and the pool (40_context R100,
R101, 10_state R29). -/

namespace Sys2Proof.Machine

/-! ## How a command ends

A failing command is this machine's exception, and taking it is `fail`: STATUS is written, nothing is
saved, control goes nowhere (R255). There is no return from it (R257). -/

/-- Writing `STATUS` at the end of a command (R106). -/
def State.withStatus (s : State) (code : StatusCode) (hnd : Byte) : State :=
  { s with status := statusWord code hnd }

/-- `fail S` (R12, R106): the command ends now with the code and `HND = 0xFF`. -/
def fail (code : StatusCode) (s : State) : Result := .next (s.withStatus code noHandle)

/-- `ok` (R12, R106). -/
def ok (s : State) : Result := .next (s.withStatus .ok noHandle)

/-- `ok(h)` of a creating command (R12, R106). -/
def okHandle (h : Nat) (s : State) : Result := .next (s.withStatus .ok (BitVec.ofNat 8 h))

/-! ## The master port -/

/-- An address modulo `2^ADDR_BITS` (R59). -/
def State.wrap (s : State) (addr : Nat) : Nat := addr % 2 ^ s.cfg.addrBits

/-- The addresses of the `n` bytes from `addr`, each modulo `2^ADDR_BITS`, ascending (R52, R59). -/
def State.byteAddrs (s : State) (addr n : Nat) : List Nat :=
  (List.range n).map fun k => s.wrap (addr + k)

/-- The bytes `MemRead(addr, n)` returns (R52). -/
def State.bytesAt (s : State) (addr n : Nat) : Bytes := s.mem.readAll (s.byteAddrs addr n)

/-- The state after `MemRead(addr, n)`: the reads are in the history, memory is as before (R52, R61). -/
def State.afterRead (s : State) (addr n : Nat) : State :=
  { s with log := s.log ++ (s.byteAddrs addr n).map .read }

/-- `MemRead(addr, n)` (R52), handing the bytes and the state after the reads on. -/
def memRead (s : State) (addr n : Nat) (k : Bytes → State → Result) : Result :=
  k (s.bytesAt addr n) (s.afterRead addr n)

/-- `MemWrite(addr, n, v)` with `n = len(v)` (R53). -/
def State.memWrite (s : State) (addr : Nat) (v : Bytes) : State :=
  { s with
    mem := s.mem.writeAll ((s.byteAddrs addr v.length).zip v)
    log := s.log ++ (s.byteAddrs addr v.length).map .write }

/-! ## The context table and the pool -/

/-- `CTX[h] <- slot`. -/
def State.setSlot (s : State) (h : Nat) (slot : Slot) : State := { s with ctx := s.ctx.set h slot }

/-- Whether a slot is FREE (R24). -/
def Slot.isFree : Slot → Bool
  | .free => true
  | _ => false

/-- The least `h` with `CTX[h] = FREE` (R100). -/
def State.freeSlot? (s : State) : Option Nat := s.ctx.findIdx? Slot.isFree

/-- `state_bytes(d)` and the size formulas of R29. -/
def stateBytes (d : HashAlg) : Nat := d.stateWords * d.wordBits / 8
def sizeHash (d : HashAlg) : Nat := 16 + stateBytes d + d.blockBytes
def sizeHmac (d : HashAlg) : Nat := sizeHash d + 2 * stateBytes d
def sizeGcm (nr : Nat) : Nat := 120 + 16 * (nr + 1)
def sizePbkdf2 (d : HashAlg) : Nat := sizeHmac d + sizeHash d + 2 * d.digestBytes

/-- The size of a context whose algorithm is `alg`, by a formula of R29 over its descriptor. Every stored
context has an algorithm of the table (Safety.lean), so the 0 is never reached (assumption log 7). -/
def sizeOfAlg (alg : Byte) (size : HashAlg → Nat) : Nat :=
  match lookupAlg alg with
  | some d => size d
  | none => 0

/-- `size(CTX[h])` (R25, R29); a FREE slot holds no pool bytes. -/
def Slot.size : Slot → Nat
  | .free => 0
  | .hash (.active c) => sizeOfAlg c.alg sizeHash
  | .hash (.final alg _ _) => sizeOfAlg alg sizeHash
  | .hmac (.active alg _ _) => sizeOfAlg alg sizeHmac
  | .hmac (.final alg) => sizeOfAlg alg sizeHmac
  | .gcm g => sizeGcm g.nr.toNat

/-- `alloc(size)` (R100): no free slot or too few pool bytes is OutOfMemory with nothing changed;
otherwise the least free handle and the state with the bytes taken go on. -/
def withAlloc (s : State) (size : Nat) (k : Nat → State → Result) : Result :=
  match s.freeSlot? with
  | none => fail .outOfMemory s
  | some h =>
    if s.poolFree.toNat < size then fail .outOfMemory s
    else k h { s with poolFree := s.poolFree - BitVec.ofNat 16 size }

/-- `release(h)` of a slot that is not FREE (R101). -/
def State.release (s : State) (h : Nat) (slot : Slot) : State :=
  { s.setSlot h .free with poolFree := s.poolFree + BitVec.ofNat 16 slot.size }

end Sys2Proof.Machine
end

