-- ==== Sys2Proof/Machine/Operands.lean ====
section
/-! DEFINITION. The operand forms and their checks: address words (30_encoding R93), handles (40_context
R102), algorithm identifiers (30_encoding R77, 41_hash R120), key and tag lengths (45_gcm R230). Each
check hands what it found on, or ends the command with the status the spec names. -/

namespace Sys2Proof.Machine

/-- An address word is below `2^ADDR_BITS` (R93). -/
def State.addrOk (s : State) (a : Word) : Bool := a.toNat < 2 ^ s.cfg.addrBits

/-- The address part of the frame's step 2 (R103, R75): InvalidArgument unless every address word of
the command is below `2^ADDR_BITS`, whatever its buffer's length (R93). -/
def requireAddrs (s : State) (as : List Word) (k : Result) : Result :=
  if as.all s.addrOk then k else fail .invalidArgument s

/-- `lookup(ALG)` (R120, R77): UnsupportedAlgorithm if the table has no such row. -/
def withAlg (s : State) (alg : Byte) (k : HashAlg → Result) : Result :=
  match lookupAlg alg with
  | some d => k d
  | none => fail .unsupportedAlgorithm s

/-- `CTX[h]`, absent when `h >= N_CTX`, which is the table's length (R24). -/
def State.slotAt (s : State) (h : Byte) : Option Slot := s.ctx[h.toNat]?

/-- `ctx_of(h, HASH)` (R102). -/
def withHash (s : State) (h : Byte) (k : HashCtx → Result) : Result :=
  match s.slotAt h with
  | some (.hash c) => k c
  | _ => fail .invalidArgument s

/-- `ctx_of(h, HMAC)` (R102). -/
def withHmac (s : State) (h : Byte) (k : HmacCtx → Result) : Result :=
  match s.slotAt h with
  | some (.hmac c) => k c
  | _ => fail .invalidArgument s

/-- `ctx_of(h, GCM)` (R102). -/
def withGcm (s : State) (h : Byte) (k : GcmCtx → Result) : Result :=
  match s.slotAt h with
  | some (.gcm g) => k g
  | _ => fail .invalidArgument s

/-- A handle of any non-FREE slot, for `CTX_RELEASE` (R104). -/
def withSlot (s : State) (h : Byte) (k : Slot → Result) : Result :=
  match s.slotAt h with
  | some slot => if slot.isFree then fail .invalidArgument s else k slot
  | none => fail .invalidArgument s

/-- The AES key lengths (R230). -/
def aesKeyLens : List Nat := [16, 24, 32]

/-- `TAG_LEN_LEGAL` (R6). -/
def tagLenLegal : List Byte := [4, 8, 12, 13, 14, 15, 16]

/-- The tag length an `AUX` field selects, 0 the default 16 (R6, R71, R230). -/
def tagLenOf (aux : Byte) : Byte := if aux = 0 then 16 else aux

/-- The argument check of a creating command or derivation: InvalidArgument unless it holds. -/
def requireArg (s : State) (p : Bool) (k : Result) : Result :=
  if p then k else fail .invalidArgument s

end Sys2Proof.Machine
end

