-- ==== Sys2Proof/Machine/Context.lean ====
section
/-! DEFINITION. The two commands that belong to no unit (40_context R104, R105). -/

namespace Sys2Proof.Machine

/-- `CTX_RELEASE h` (R104): any kind, any phase. -/
def execCtxRelease (h : Byte) (s : State) : Result :=
  withSlot s h fun slot => ok (s.release h.toNat slot)

/-- The illegal command (R105, R76). -/
def execIllegal (_opc : Byte) (s : State) : Result := fail .invalidArgument s

end Sys2Proof.Machine
end

