-- ==== Sys2Proof/Machine/Gcm.lean ====
section
/-! DEFINITION. The commands of the AES-GCM unit (45_gcm R230 to R235). -/

namespace Sys2Proof.Machine

/-- `GCM_INIT cipher, tag_len, key, key_len, iv, iv_len` (R230). The cipher identifier of AES is 0x00
(R78). -/
def execGcmInit (cipher tagLen : Byte) (key keyLen iv ivLen : Word) (s : State) : Result :=
  requireAddrs s [key, iv] <|
  if cipher ≠ 0x00 then fail .unsupportedAlgorithm s
  else
    requireArg s (aesKeyLens.contains keyLen.toNat) <|
    requireArg s (ivLen != 0) <|
    requireArg s (tagLenLegal.contains (tagLenOf tagLen)) <|
    withAlloc s (sizeGcm (roundsOf keyLen.toNat)) fun h s =>
    memRead s key.toNat keyLen.toNat fun keyBytes s =>
    memRead s iv.toNat ivLen.toNat fun ivBytes s =>
    okHandle h (s.setSlot h (.gcm (gcmInitCtx (tagLenOf tagLen) keyBytes ivBytes)))

/-- `GCM_AAD h, data, len` (R231). -/
def execGcmAad (h : Byte) (data len : Word) (s : State) : Result :=
  requireAddrs s [data] <|
  withGcm s h fun g =>
  if g.phase ≠ .aad then fail .invalidState s
  else
    memRead s data.toNat len.toNat fun bs s =>
    ok (s.setSlot h.toNat (.gcm (bs.foldl gcmAadByte g)))

/-- Byte `k` of a cipher command: read `in[k]`, process it, write `out[k]` (R232, R233). -/
def gcmCryptStep (enc : Bool) (input out : Nat) (gs : GcmCtx × State) (k : Nat) : GcmCtx × State :=
  let b := gs.2.mem.read (gs.2.wrap (input + k))
  let og := gcmCryptByte gs.1 b enc
  (og.2, (gs.2.afterRead (input + k) 1).memWrite (out + k) [og.1])

/-- The common course of GCM_ENCRYPT and GCM_DECRYPT (R232, R233): the phase check, the move to CIPHER
at the first call, then byte after byte. -/
def gcmCrypt (enc : Bool) (h : Byte) (input len out : Word) (s : State) : Result :=
  requireAddrs s [input, out] <|
  withGcm s h fun g =>
  if g.phase = .done then fail .invalidState s
  else
    let gs := (List.range len.toNat).foldl (gcmCryptStep enc input.toNat out.toNat) (gcmEnterCipher g, s)
    ok (gs.2.setSlot h.toNat (.gcm gs.1))

/-- `GCM_ENCRYPT h, in, len, out` (R232): GHASH takes the produced ciphertext. -/
def execGcmEncrypt (h : Byte) (input len out : Word) (s : State) : Result :=
  gcmCrypt true h input len out s

/-- `GCM_DECRYPT h, in, len, out` (R233): GHASH takes the input ciphertext. -/
def execGcmDecrypt (h : Byte) (input len out : Word) (s : State) : Result :=
  gcmCrypt false h input len out s

/-- `GCM_DIGEST h, tag_out` (R234). -/
def execGcmDigest (h : Byte) (tag : Word) (s : State) : Result :=
  requireAddrs s [tag] <|
  withGcm s h fun g =>
  if g.phase = .done then fail .invalidState s
  else
    let tg := gcmTag g
    ok ((s.setSlot h.toNat (.gcm tg.2)).memWrite tag.toNat tg.1)

/-- `GCM_VERIFY h, tag_in` (R235): the phase is DONE whether or not the tags agree, all `tag_len` bytes
are read, nothing is written to memory. -/
def execGcmVerify (h : Byte) (tag : Word) (s : State) : Result :=
  requireAddrs s [tag] <|
  withGcm s h fun g =>
  if g.phase = .done then fail .invalidState s
  else
    let tg := gcmTag g
    memRead (s.setSlot h.toNat (.gcm tg.2)) tag.toNat g.tagLen.toNat fun r s =>
    if ctEqual tg.1 r then ok s else fail .authenticationFailed s

end Sys2Proof.Machine
end

