-- ==== Sys2Proof/Machine/Hash.lean ====
section
/-! DEFINITION. The commands of the hash unit (41_hash R129 to R131). -/

namespace Sys2Proof.Machine

/-- `HASH_CREATE alg` (R129). -/
def execHashCreate (alg : Byte) (s : State) : Result :=
  withAlg s alg fun d =>
  withAlloc s (sizeHash d) fun h s =>
  okHandle h (s.setSlot h (.hash (.active (hashInit d))))

/-- `HASH_UPDATE h, data, len` (R130). -/
def execHashUpdate (h : Byte) (data len : Word) (s : State) : Result :=
  requireAddrs s [data] <|
  withHash s h fun c =>
  match c with
  | .final _ _ _ => fail .invalidState s
  | .active c =>
    withAlg s c.alg fun d =>
    memRead s data.toNat len.toNat fun bs s =>
    ok (s.setSlot h.toNat (.hash (.active (hashUpdate d c bs))))

/-- `HASH_DIGEST h, out` (R131). -/
def execHashDigest (h : Byte) (out : Word) (s : State) : Result :=
  requireAddrs s [out] <|
  withHash s h fun c =>
  match c with
  | .final _ _ _ => fail .invalidState s
  | .active c =>
    withAlg s c.alg fun d =>
    let dg := hashFinish d c
    let s := s.setSlot h.toNat (.hash (.final c.alg c.digestLen c.blockSize))
    ok (s.memWrite out.toNat (dg.take c.digestLen.toNat))

end Sys2Proof.Machine
end

