-- ==== Sys2Proof/Machine/Hmac.lean ====
section
/-! DEFINITION. The commands of the HMAC unit (42_hmac R152 to R154). -/

namespace Sys2Proof.Machine

/-- `HMAC_INIT alg, key, key_len` (R152). -/
def execHmacInit (alg : Byte) (key keyLen : Word) (s : State) : Result :=
  requireAddrs s [key] <|
  withAlg s alg fun d =>
  withAlloc s (sizeHmac d) fun h s =>
  memRead s key.toNat keyLen.toNat fun bs s =>
  let tpl := hmacTemplate d bs
  okHandle h (s.setSlot h (.hmac (.active d.id (hmacInner d tpl.istate) tpl)))

/-- `HMAC_UPDATE h, data, len` (R153): feeds the inner hash only. -/
def execHmacUpdate (h : Byte) (data len : Word) (s : State) : Result :=
  requireAddrs s [data] <|
  withHmac s h fun c =>
  match c with
  | .final _ => fail .invalidState s
  | .active alg inner tpl =>
    withAlg s alg fun d =>
    memRead s data.toNat len.toNat fun bs s =>
    ok (s.setSlot h.toNat (.hmac (.active alg (hashUpdate d inner bs) tpl)))

/-- `HMAC_FINAL h, out` (R154). -/
def execHmacFinal (h : Byte) (out : Word) (s : State) : Result :=
  requireAddrs s [out] <|
  withHmac s h fun c =>
  match c with
  | .final _ => fail .invalidState s
  | .active alg inner tpl =>
    withAlg s alg fun d =>
    let mac := prfFinish d inner tpl.ostate
    ok ((s.setSlot h.toNat (.hmac (.final alg))).memWrite out.toNat (mac.take d.digestBytes))

end Sys2Proof.Machine
end

