-- ==== Sys2Proof/Machine/Pbkdf2.lean ====
section
/-! DEFINITION. The command of the PBKDF2 unit (43_pbkdf2 R170 to R173). -/

namespace Sys2Proof.Machine

/-- The number of output blocks, `ceil(out_len / dk)` (R170). -/
def pbkdf2BlockCount (d : HashAlg) (outLen : Nat) : Nat := (outLen + d.digestBytes - 1) / d.digestBytes

/-- Writing block `i0 + 1`, the last one truncated to what is left of `out_len` (R171). -/
def pbkdf2WriteBlock (d : HashAlg) (x : Pbkdf2Scratch) (iter out outLen : Nat) (s : State) (i0 : Nat) :
    State :=
  let t := pbkdf2Block d x iter (i0 + 1)
  let r := min d.digestBytes (outLen - i0 * d.digestBytes)
  s.memWrite (out + i0 * d.digestBytes) (t.take r)

/-- `PBKDF2_DERIVE alg, pw, pw_len, salt, salt_len, out, out_len, iter` (R171): the iteration check
comes before the no-op success of `out_len = 0` (R173), and the scratch's pool bytes are needed for the
length of the command only (R31). -/
def execPbkdf2Derive (alg : Byte) (pw pwLen salt saltLen out outLen iter : Word) (s : State) : Result :=
  requireAddrs s [pw, salt, out] <|
  withAlg s alg fun d =>
  requireArg s (iter != 0) <|
  if outLen = 0 then ok s
  else if s.poolFree.toNat < sizePbkdf2 d then fail .outOfMemory s
  else
    memRead s pw.toNat pwLen.toNat fun pwBytes s =>
    memRead s salt.toNat saltLen.toNat fun saltBytes s =>
    let x := pbkdf2Setup d pwBytes saltBytes
    ok ((List.range (pbkdf2BlockCount d outLen.toNat)).foldl
      (pbkdf2WriteBlock d x iter.toNat out.toNat outLen.toNat) s)

end Sys2Proof.Machine
end

