-- ==== Sys2Proof/Machine/Dispatch.lean ====
section
/-! DEFINITION. Dispatch: one arm per command (30_encoding R73). -/

namespace Sys2Proof.Machine

def exec (i : Instr) (s : State) : Host.Outcome State Fault Refusal :=
  match i with
  | .hashCreate alg => Sys2Proof.Machine.execHashCreate alg s
  | .hashUpdate h data len => Sys2Proof.Machine.execHashUpdate h data len s
  | .hashDigest h out => Sys2Proof.Machine.execHashDigest h out s
  | .ctxRelease h => Sys2Proof.Machine.execCtxRelease h s
  | .hmacInit alg key keyLen => Sys2Proof.Machine.execHmacInit alg key keyLen s
  | .hmacUpdate h data len => Sys2Proof.Machine.execHmacUpdate h data len s
  | .hmacFinal h out => Sys2Proof.Machine.execHmacFinal h out s
  | .pbkdf2Derive alg pw pwLen salt saltLen out outLen iter => Sys2Proof.Machine.execPbkdf2Derive alg pw pwLen salt saltLen out outLen iter s
  | .gcmInit cipher tagLen key keyLen iv ivLen => Sys2Proof.Machine.execGcmInit cipher tagLen key keyLen iv ivLen s
  | .gcmAad h data len => Sys2Proof.Machine.execGcmAad h data len s
  | .gcmEncrypt h input len out => Sys2Proof.Machine.execGcmEncrypt h input len out s
  | .gcmDecrypt h input len out => Sys2Proof.Machine.execGcmDecrypt h input len out s
  | .gcmDigest h tag => Sys2Proof.Machine.execGcmDigest h tag s
  | .gcmVerify h tag => Sys2Proof.Machine.execGcmVerify h tag s
  | .illegal opc => Sys2Proof.Machine.execIllegal opc s

end Sys2Proof.Machine
end

