-- ==== Sys2Proof/Machine/Window.lean ====
section
/-! DEFINITION. The register window by offset (30_encoding R80 to R87) and the reset input (70_reset R270,
R271). -/

namespace Sys2Proof.Machine

/-- `CORE_ID` (R83). -/
def coreId : Word := 0x4C574345

/-- `N_ALG`, the number of rows of the descriptor table (R6, R120). -/
def nAlg : Nat := hashTable.length

/-- `CORE_CFG`: `N_CTX` in bits 7:0, `N_ALG` in 15:8, `CTX_POOL_BYTES` in 31:16 (R84). -/
def coreCfg (p : Params) : Word :=
  (BitVec.ofNat 16 p.poolBytes ++ BitVec.ofNat 8 nAlg ++ BitVec.ofNat 8 p.nCtx : BitVec 32)

/-- Word `i` of the command window (R81). -/
def getW (d : Descriptor) (i : Nat) : Word :=
  match i with
  | 0 => d.w0
  | 1 => d.w1
  | 2 => d.w2
  | 3 => d.w3
  | 4 => d.w4
  | 5 => d.w5
  | 6 => d.w6
  | _ => d.w7

/-- `W[i] <- v` (R12, R81). -/
def setW (d : Descriptor) (i : Nat) (v : Word) : Descriptor :=
  match i with
  | 0 => { d with w0 := v }
  | 1 => { d with w1 := v }
  | 2 => { d with w2 := v }
  | 3 => { d with w3 := v }
  | 4 => { d with w4 := v }
  | 5 => { d with w5 := v }
  | 6 => { d with w6 := v }
  | _ => { d with w7 := v }

/-- The offset of `DOORBELL` (R82). -/
def doorbellOffset : Byte := 0x20

/-- An access the window defines: a whole word, aligned (R56, R87). DESIGN CHOICE (assumption log 21):
aligned is said of the offset in the window, whatever `CORE_BASE` is; the spec says neither that `CORE_BASE`
is a multiple of four nor which of offset and host address must be. -/
def windowDefined (width : AccessWidth) (offset : Byte) : Bool :=
  width = .word && offset.extractLsb' 0 2 == 0

/-- The window's offset at an address of the host's space: the window is the 256 bytes at `CORE_BASE` (R58,
R80). -/
def windowOffset? (p : Params) (addr : Nat) : Option Byte :=
  match p.coreBase with
  | some base => if base ≤ addr ∧ addr < base + 256 then some (BitVec.ofNat 8 (addr - base)) else none
  | none => none

/-- What a defined read of the window returns (R80 to R87). It has no side effect (R57). -/
def windowRead (s : State) (offset : Byte) : Word :=
  if offset < 0x20 then getW s.w (offset.toNat / 4)
  else if offset = 0x24 then s.status
  else if offset = 0x28 then s.poolFree.setWidth 32
  else if offset = 0x2C then coreId
  else if offset = 0x30 then coreCfg s.cfg
  else 0

/-- A defined write of the window other than to `DOORBELL`: only the command window takes it (R81, R83 to
R87). -/
def windowWrite (s : State) (offset : Byte) (v : Word) : State :=
  if offset < 0x20 then { s with w := setW s.w (offset.toNat / 4) v } else s

/-- The reset input (R270, R271, R34): every core register to its reset value, memory untouched. -/
def resetCore (s : State) : State :=
  { s with
    w := ⟨0, 0, 0, 0, 0, 0, 0, 0⟩
    status := statusWord .ok noHandle
    poolFree := BitVec.ofNat 16 s.cfg.poolBytes
    ctx := List.replicate s.cfg.nCtx .free
    log := [] }

end Sys2Proof.Machine
end

