-- ==== Sys2Proof/Machine/HostPort.lean ====
section
/-! DEFINITION. The doorbell and the other host accesses (30_encoding R72, R82, 40_context R103, 20_memory
R51, R58, R64). -/

namespace Sys2Proof.Machine

/-- A write to `DOORBELL` (R82, R103): the window is latched and decoded as it stands (R67, R72), the
access history starts afresh, and the command runs to its end. A nonzero reserved field fails with
InvalidArgument (R75). -/
def doorbell (s : State) : Result :=
  let s := { s with log := [] }
  match decode s.w with
  | .ok i => exec i s
  | .error _ => fail .invalidArgument s

/-- A read of the window at an offset (R56, R57). -/
def hostWindowRead (width : AccessWidth) (offset : Byte) (s : State) : Result :=
  if windowDefined width offset then .next { s with readData := some (windowRead s offset) }
  else .refused .windowAccessUndefined

/-- A write of the window at an offset (R56, R81 to R87). -/
def hostWindowWrite (width : AccessWidth) (offset : Byte) (value : Word) (s : State) : Result :=
  if windowDefined width offset then
    if offset = doorbellOffset then doorbell s else .next (windowWrite s offset value)
  else .refused .windowAccessUndefined

/-- An access of the host at an address of its own space: the window's, at the offset there (R58, R80). -/
def atHostAddress (s : State) (addr : Nat) (k : Byte → Result) : Result :=
  match windowOffset? s.cfg addr with
  | some offset => k offset
  | none => .refused .hostAddressNotInWindow

/-- One access of the host. -/
def hostAccess (a : HostAccess) (s : State) : Result :=
  match a with
  | .windowRead width offset => hostWindowRead width offset s
  | .windowWrite width offset value => hostWindowWrite width offset value s
  | .busRead width addr => atHostAddress s addr fun offset => hostWindowRead width offset s
  | .busWrite width addr value => atHostAddress s addr fun offset => hostWindowWrite width offset value s
  | .memRead addr =>
    if s.addrOk addr then .next { s with readData := some ((s.mem.read addr.toNat).setWidth 32) }
    else .fault .hostAddressOutsideMem
  | .memWrite addr value =>
    if s.addrOk addr then .next { s with mem := s.mem.write addr.toNat value }
    else .fault .hostAddressOutsideMem
  | .reset => .next (resetCore s)

/-- The access that rings the doorbell; the written value is ignored (R82). -/
def ringDoorbell : HostAccess := .windowWrite .word doorbellOffset 0

/-- The accesses with which a host issues one command: the eight window words, then the doorbell (R21,
R82). -/
def issue (d : Descriptor) : List HostAccess :=
  [.windowWrite .word 0x00 d.w0, .windowWrite .word 0x04 d.w1, .windowWrite .word 0x08 d.w2,
    .windowWrite .word 0x0C d.w3, .windowWrite .word 0x10 d.w4, .windowWrite .word 0x14 d.w5,
    .windowWrite .word 0x18 d.w6, .windowWrite .word 0x1C d.w7, ringDoorbell]

end Sys2Proof.Machine
end

