-- ==== Sys2Proof/Machine/Pseudo.lean ====
section
/-! DEFINITION. The pseudo-commands (30_encoding R92): sequences of real commands that stop at the first
one that does not end `OK`. -/

namespace Sys2Proof.Machine

/-- Issuing commands one after another while they end `OK`. -/
def runCommands : List Instr → State → Result
  | [], s => .next s
  | i :: is, s =>
    match exec i s with
    | .next t => if t.code = StatusCode.ok.code then runCommands is t else .next t
    | r => r

/-- A creating command, and if it ends `OK` the commands on the handle it returned. -/
def runWithHandle (create : Instr) (rest : Byte → List Instr) (s : State) : Result :=
  match exec create s with
  | .next t => if t.code = StatusCode.ok.code then runCommands (rest t.hnd) t else .next t
  | r => r

/-- `SHA256 data, len, out` (R92). -/
def pseudoSha256 (data len out : Word) : State → Result :=
  runWithHandle (.hashCreate 0) fun h => [.hashUpdate h data len, .hashDigest h out, .ctxRelease h]

/-- `HMAC256 key, key_len, data, len, out` (R92). -/
def pseudoHmac256 (key keyLen data len out : Word) : State → Result :=
  runWithHandle (.hmacInit 0 key keyLen) fun h =>
    [.hmacUpdate h data len, .hmacFinal h out, .ctxRelease h]

/-- `GCM_SEAL key, key_len, iv, iv_len, aad, aad_len, in, len, out, tag` (R92). -/
def pseudoGcmSeal (key keyLen iv ivLen aad aadLen input len out tag : Word) : State → Result :=
  runWithHandle (.gcmInit 0 0 key keyLen iv ivLen) fun h =>
    [.gcmAad h aad aadLen, .gcmEncrypt h input len out, .gcmDigest h tag, .ctxRelease h]

/-- `GCM_OPEN key, key_len, iv, iv_len, aad, aad_len, in, len, out, tag` (R92). -/
def pseudoGcmOpen (key keyLen iv ivLen aad aadLen input len out tag : Word) : State → Result :=
  runWithHandle (.gcmInit 0 0 key keyLen iv ivLen) fun h =>
    [.gcmAad h aad aadLen, .gcmDecrypt h input len out, .gcmVerify h tag, .ctxRelease h]

end Sys2Proof.Machine
end

