-- ==== Sys2Proof/Machine/Step.lean ====
section
/-! DEFINITION. One step: the next host access (00_scope R8, 10_state R22). -/

namespace Sys2Proof.Machine

/-- The next access the host makes, in its program order (R22, R67); with none pending the core is idle
and keeps all state (R267). -/
def step (s : State) : Host.Outcome State Fault Refusal :=
  match s.host with
  | [] => .next s
  | a :: rest => hostAccess a { s with host := rest }

/-- `s` with an opcode-table word in the command window and a doorbell write as the host's next access, so
that the next step runs that command. -/
def State.withFetchWord (s : State) (nbits w : Nat) : State :=
  { s with w := .ofTableWord nbits w, host := ringDoorbell :: s.host }

end Sys2Proof.Machine
end

