-- ==== Sys2Proof/Safety.lean ====
section
/-! DEFINITION. What counts as a good state: the invariant every step keeps (10_state R23 to R30, R33,
R34). A context's fill levels, key material and phase agree with each other, the pool counter with the
contexts that hold bytes of it, and memory has its canonical form. -/

namespace Sys2Proof.Machine

/-- An ACTIVE hash context as R26 describes it: its algorithm is a row of the table, its sizes are that
row's, and `buf` holds `count mod block_size` bytes. -/
def HashLive.wf (c : HashLive) : Prop :=
  ∃ d, lookupAlg c.alg = some d ∧ c.digestLen.toNat = d.digestBytes ∧
    c.blockSize.toNat = d.blockBytes ∧ c.state.length = d.stateWords ∧
    c.buf.length = c.count.toNat % d.blockBytes

def HashCtx.wf : HashCtx → Prop
  | .active c => c.wf
  | .final alg digestLen blockSize =>
    ∃ d, lookupAlg alg = some d ∧ digestLen.toNat = d.digestBytes ∧ blockSize.toNat = d.blockBytes

/-- An HMAC context as R27 describes it. -/
def HmacCtx.wf : HmacCtx → Prop
  | .active alg inner tpl =>
    inner.alg = alg ∧ inner.wf ∧
      ∃ d, lookupAlg alg = some d ∧ tpl.istate.length = d.stateWords ∧
        tpl.ostate.length = d.stateWords
  | .final alg => ∃ d, lookupAlg alg = some d

/-- The number of pending bytes of a GCM context in its phase (`gbuf` of R28). -/
def GcmCtx.fill (g : GcmCtx) : Nat :=
  match g.phase with
  | .aad => g.aadLen.toNat % 16
  | .cipher => g.ctLen.toNat % 16
  | _ => 0

/-- A GCM context as R28 and R30 describe it. -/
structure GcmCtx.wf (g : GcmCtx) : Prop where
  keyLen : g.keyLen.toNat ∈ aesKeyLens
  rounds : g.nr.toNat = roundsOf g.keyLen.toNat
  schedule : g.rk.length = 4 * (g.nr.toNat + 1)
  subkey : g.h = aesEncrypt g.rk g.nr.toNat 0
  counter : g.cb.extractLsb' 32 96 = g.j0.extractLsb' 32 96
  phase : g.phase ≠ .init
  pending : g.gbuf.length = g.fill
  keystream : g.ks.isSome ↔ g.ctLen.toNat % 16 ≠ 0
  keystreamValue : ∀ k, g.ks = some k → k = aesEncrypt g.rk g.nr.toNat g.cb
  noCipherYet : g.phase = .aad → g.ctLen = 0 ∧ g.cb = g.j0
  tagLen : g.tagLen ∈ tagLenLegal

def Slot.wf : Slot → Prop
  | .free => True
  | .hash c => c.wf
  | .hmac c => c.wf
  | .gcm g => g.wf

/-- The pool bytes the contexts hold (the sum of R25). -/
def poolUsed (ctx : List Slot) : Nat := (ctx.map Slot.size).sum

/-- The address of an access. -/
def BusAccess.addr : BusAccess → Nat
  | .read a => a
  | .write a => a

/-- The machine's invariant. -/
structure Inv (s : State) : Prop where
  /-- the parameters are in R6's ranges -/
  params : s.cfg.legal = true
  /-- the table has `N_CTX` slots (R24) -/
  table : s.ctx.length = s.cfg.nCtx
  /-- `POOL_FREE` is `CTX_POOL_BYTES` less what the contexts hold (R25) -/
  pool : s.poolFree.toNat + poolUsed s.ctx = s.cfg.poolBytes
  /-- every slot is FREE or a context whose fields agree (R26 to R30) -/
  contexts : ∀ slot ∈ s.ctx, slot.wf
  /-- `STATUS` is a code of R79 and a handle below `N_CTX` or 0xFF, its upper half zero (R23) -/
  status : ∃ code hnd, s.status = statusWord code hnd ∧ (hnd = noHandle ∨ hnd.toNat < s.cfg.nCtx)
  /-- memory has its canonical form -/
  memory : s.mem.wf = true
  /-- memory has no byte at or above `2^ADDR_BITS` (R50) -/
  memoryBelow : s.mem.below (2 ^ s.cfg.addrBits) = true
  /-- nor was any accessed (R52, R53) -/
  history : ∀ a ∈ s.log, a.addr < 2 ^ s.cfg.addrBits

end Sys2Proof.Machine
end

