-- ==== Sys2Proof/Certificates/Slice0/Reference.lean ====
section
/-! DEFINITION. The spec's functions in their one-shot form, in which the statements speak of what a
command computes: the Merkle-Damgård hash of a whole message, HMAC, PBKDF2, GCM, and the tables of
rules R61, R75, R254. They share the primitives (compression step, block cipher, field multiplication)
with the machine and none of its streaming code. -/

namespace Sys2Proof.Spec

open Sys2Proof.Machine

/-! ## Sequences in blocks -/

/-- The whole `n`-byte blocks of a sequence, in order. -/
def chunks (n : Nat) (s : Bytes) : List Bytes :=
  (List.range (s.length / n)).map fun i => (s.drop (n * i)).take n

/-- What is left after the whole blocks. -/
def remainder (n : Nat) (s : Bytes) : Bytes := s.drop (n * (s.length / n))

/-- Zero padding to a whole number of 16-byte blocks. -/
def pad16 (s : Bytes) : Bytes := s ++ List.replicate ((16 - s.length % 16) % 16) 0

/-! ## Hash (R121, R126) -/

/-- The chaining value after the whole blocks of `s`. -/
def compressAll (d : HashAlg) (state : List Word) (s : Bytes) : List Word :=
  (chunks d.blockBytes s).foldl d.compress state

/-- The Merkle-Damgård padding of a message of `n` bytes (R126). -/
def padding (d : HashAlg) (n : Nat) : Bytes :=
  let fixed := n + 1 + d.lenBytes
  0x80 :: List.replicate ((d.blockBytes - fixed % d.blockBytes) % d.blockBytes) 0 ++
    beBytes d.lenBytes ((8 * n) % 2 ^ (8 * d.lenBytes))

/-- The digest of a hash that starts from a chaining value with `n` bytes already counted, the last of
them (`pending`) not yet compressed, and absorbs nothing more (R126). -/
def finishFrom (d : HashAlg) (state : List Word) (n : Nat) (pending : Bytes) : Bytes :=
  (d.output (compressAll d state (pending ++ padding d n))).take d.digestBytes

/-- `Hash(m)` (R155). -/
def hashOf (d : HashAlg) (m : Bytes) : Bytes := finishFrom d d.init m.length m

/-! ## HMAC (R151, R155) and PBKDF2 (R170) -/

/-- The key, hashed if it exceeds a block, zero-padded to a block (R151). -/
def keyBlock (d : HashAlg) (key : Bytes) : Bytes :=
  let k := if d.blockBytes < key.length then hashOf d key else key
  k ++ List.replicate (d.blockBytes - k.length) 0

def xorPad (k0 : Bytes) (p : Byte) : Bytes := k0.map (· ^^^ p)

/-- `HMAC(key, m)` (R155). -/
def hmacOf (d : HashAlg) (key m : Bytes) : Bytes :=
  hashOf d (xorPad (keyBlock d key) 0x5c ++ hashOf d (xorPad (keyBlock d key) 0x36 ++ m))

/-- `U(j+1)` of block `i` (R170). -/
def prfChain (d : HashAlg) (pw salt : Bytes) (i : Nat) : Nat → Bytes
  | 0 => hmacOf d pw (salt ++ beBytes 4 i)
  | j + 1 => hmacOf d pw (prfChain d pw salt i j)

/-- The output of block `i`: `U1 XOR U2 XOR .. XOR U(iter)` (R170). -/
def prfBlock (d : HashAlg) (pw salt : Bytes) (iter i : Nat) : Bytes :=
  (List.range (iter - 1)).foldl (fun t j => xorBytes t (prfChain d pw salt i (j + 1)))
    (prfChain d pw salt i 0)

/-- `PBKDF2` (R170): blocks 1..n concatenated and truncated. -/
def pbkdf2Of (d : HashAlg) (pw salt : Bytes) (iter outLen : Nat) : Bytes :=
  ((List.range ((outLen + d.digestBytes - 1) / d.digestBytes)).flatMap fun i =>
    prfBlock d pw salt iter (i + 1)).take outLen

/-! ## GCM (R211 to R217) -/

/-- GHASH of the whole blocks of `s`, from `y` (R211). -/
def ghashOf (h y : Block) (s : Bytes) : Block :=
  ((chunks 16 s).map blockOf).foldl (fun y b => gmul (y ^^^ b) h) y

/-- The counter block `q` increments on (R212). -/
def counter (cb : Block) : Nat → Block
  | 0 => cb
  | q + 1 => inc32 (counter cb q)

/-- `J0` of an IV (R213). -/
def j0Of (h : Block) (iv : Bytes) : Block :=
  if iv.length = 12 then blockOf (iv ++ [0, 0, 0, 1])
  else ghashOf h 0 (pad16 iv ++ (List.replicate 8 0 ++ beBytes 8 (8 * iv.length)))

/-- Byte `n` of the keystream of a message: block `n / 16` is `AES_encrypt` of `J0` incremented
`n / 16 + 1` times (R216). -/
def keystreamByte (rk : List Word) (nr : Nat) (j0 : Block) (n : Nat) : Byte :=
  blockByte (aesEncrypt rk nr (counter j0 (n / 16 + 1))) (n % 16)

/-- The counter-mode transform of a whole message (R216). -/
def ctrOf (rk : List Word) (nr : Nat) (j0 : Block) (s : Bytes) : Bytes :=
  s.mapIdx fun n b => b ^^^ keystreamByte rk nr j0 n

/-- The full 16-byte tag of AAD and ciphertext (R217). -/
def tagOf (rk : List Word) (nr : Nat) (h j0 : Block) (aad ct : Bytes) : Bytes :=
  let lens := beBytes 8 (8 * aad.length) ++ beBytes 8 (8 * ct.length)
  blockBytes (ghashOf h 0 (pad16 aad ++ pad16 ct ++ lens) ^^^ aesEncrypt rk nr j0)

/-- The key material of one message: round keys, round count, `H` and `J0` (R230). -/
structure GcmKey where
  rk : List Word
  nr : Nat
  h : Block
  j0 : Block

def gcmKeyOf (key iv : Bytes) : GcmKey :=
  let rk := keyExpand key
  let nr := key.length / 4 + 6
  let h := aesEncrypt rk nr 0
  { rk := rk, nr := nr, h := h, j0 := j0Of h iv }

def GcmKey.crypt (k : GcmKey) (s : Bytes) : Bytes := ctrOf k.rk k.nr k.j0 s
def GcmKey.tag (k : GcmKey) (aad ct : Bytes) : Bytes := tagOf k.rk k.nr k.h k.j0 aad ct

/-- The keystream byte for the byte `k` positions on from a context: the block in use is `AES_encrypt(CB)`
while `ct_len mod 16 != 0`, and each block boundary increments the counter (R216). -/
def nextKeystream (g : GcmCtx) (k : Nat) : Byte :=
  let p := g.ctLen.toNat % 16
  let q := (p + k) / 16 + (if p = 0 then 1 else 0)
  blockByte (aesEncrypt g.rk g.nr.toNat (counter g.cb q)) ((p + k) % 16)

/-- The accumulator after flushing the pending bytes (R214). -/
def flushed (g : GcmCtx) : Block := ghashOf g.h g.y (pad16 g.gbuf)

/-! ## Memory, statuses, tables -/

/-- The `n` addresses of a buffer at `addr` (R52, R59). -/
def bufferAddrs (p : Params) (addr n : Nat) : List Nat :=
  (List.range n).map fun k => (addr + k) % 2 ^ p.addrBits

/-- The bytes a buffer holds. -/
def buffer (s : State) (addr n : Nat) : Bytes := (bufferAddrs s.cfg addr n).map s.mem.read

/-- Memory with a byte sequence written to a buffer, ascending (R53). -/
def stored (s : State) (addr : Nat) (v : Bytes) : Memory :=
  ((bufferAddrs s.cfg addr v.length).zip v).foldl (fun m c => m.write c.1 c.2) s.mem

/-- The number of a STATUS code and handle (R23, R79). -/
def status (code hnd : Nat) : Word := BitVec.ofNat 32 (code + 256 * hnd)

/-- The handle a command acts on (the `HND` column of R74). -/
def handle : Instr → Option Byte
  | .hashCreate _ => none
  | .hashUpdate h _ _ => some h
  | .hashDigest h _ => some h
  | .ctxRelease h => some h
  | .hmacInit _ _ _ => none
  | .hmacUpdate h _ _ => some h
  | .hmacFinal h _ => some h
  | .pbkdf2Derive _ _ _ _ _ _ _ _ => none
  | .gcmInit _ _ _ _ _ _ => none
  | .gcmAad h _ _ => some h
  | .gcmEncrypt h _ _ _ => some h
  | .gcmDecrypt h _ _ _ => some h
  | .gcmDigest h _ => some h
  | .gcmVerify h _ => some h
  | .illegal _ => none

/-- A word that is not zero. -/
def anyNonzero (ws : List Word) : Bool := ws.any (· ≠ 0)

/-- A field or word that R74 marks `-` for the descriptor's opcode is nonzero (R75). -/
def reservedNonzero (d : Descriptor) : Bool :=
  (d.opc = 0x01 && (d.hnd ≠ 0 || d.aux ≠ 0 || anyNonzero [d.w1, d.w2, d.w3, d.w4, d.w5, d.w6, d.w7])) ||
  ([(0x02 : Byte), 0x12, 0x32].contains d.opc &&
    (d.alg ≠ 0 || d.aux ≠ 0 || anyNonzero [d.w3, d.w4, d.w5, d.w6, d.w7])) ||
  ([(0x03 : Byte), 0x13, 0x35, 0x36].contains d.opc &&
    (d.alg ≠ 0 || d.aux ≠ 0 || anyNonzero [d.w2, d.w3, d.w4, d.w5, d.w6, d.w7])) ||
  (d.opc = 0x0F && (d.alg ≠ 0 || d.aux ≠ 0 || anyNonzero [d.w1, d.w2, d.w3, d.w4, d.w5, d.w6, d.w7])) ||
  (d.opc = 0x11 && (d.hnd ≠ 0 || d.aux ≠ 0 || anyNonzero [d.w3, d.w4, d.w5, d.w6, d.w7])) ||
  (d.opc = 0x21 && (d.hnd ≠ 0 || d.aux ≠ 0)) ||
  (d.opc = 0x31 && (d.hnd ≠ 0 || anyNonzero [d.w5, d.w6, d.w7])) ||
  ([(0x33 : Byte), 0x34].contains d.opc &&
    (d.alg ≠ 0 || d.aux ≠ 0 || anyNonzero [d.w4, d.w5, d.w6, d.w7]))

/-- The first cause in a list of (condition, code) that holds (R254). -/
def firstOf : List (Bool × StatusCode) → Option StatusCode
  | [] => none
  | (b, c) :: rest => if b then some c else firstOf rest

/-- No free slot, or fewer pool bytes than `size` (R100, R250). -/
def allocFails (s : State) (size : Nat) : Bool :=
  s.ctx.all (fun x => x ≠ .free) || s.poolFree.toNat < size

/-- Slot `h` holds no hash context, no HMAC context, no GCM context, no context at all (R102, R104). -/
def notHash (s : State) (h : Byte) : Bool :=
  match s.ctx[h.toNat]? with
  | some (.hash _) => false
  | _ => true

def notHmac (s : State) (h : Byte) : Bool :=
  match s.ctx[h.toNat]? with
  | some (.hmac _) => false
  | _ => true

def notGcm (s : State) (h : Byte) : Bool :=
  match s.ctx[h.toNat]? with
  | some (.gcm _) => false
  | _ => true

def noContext (s : State) (h : Byte) : Bool :=
  match s.ctx[h.toNat]? with
  | some .free => true
  | none => true
  | _ => false

/-- Slot `h` holds a finalized hash or HMAC context. -/
def isFinal (s : State) (h : Byte) : Bool :=
  match s.ctx[h.toNat]? with
  | some (.hash (.final _ _ _)) => true
  | some (.hmac (.final _)) => true
  | _ => false

/-- Slot `h` holds a GCM context in one of the given phases. -/
def gcmIn (s : State) (h : Byte) (ps : List GcmPhase) : Bool :=
  match s.ctx[h.toNat]? with
  | some (.gcm g) => ps.contains g.phase
  | _ => false

/-- An address operand at or above `2^ADDR_BITS` (R250). -/
def badAddress (s : State) (i : Instr) : Bool := i.addresses.any fun a => 2 ^ s.cfg.addrBits ≤ a.toNat

/-- The checks of a command in the order of R254, with the code each reports; the memory-dependent tag
comparison of GCM_VERIFY, which comes after them, is not among them. -/
def checks (i : Instr) (s : State) : List (Bool × StatusCode) :=
  match i with
  | .hashCreate alg => [(alg ≠ 0, .unsupportedAlgorithm), (allocFails s 112, .outOfMemory)]
  | .hashUpdate h _ _ => [(notHash s h, .invalidArgument), (isFinal s h, .invalidState)]
  | .hashDigest h _ => [(notHash s h, .invalidArgument), (isFinal s h, .invalidState)]
  | .ctxRelease h => [(noContext s h, .invalidArgument)]
  | .hmacInit alg _ _ => [(alg ≠ 0, .unsupportedAlgorithm), (allocFails s 176, .outOfMemory)]
  | .hmacUpdate h _ _ => [(notHmac s h, .invalidArgument), (isFinal s h, .invalidState)]
  | .hmacFinal h _ => [(notHmac s h, .invalidArgument), (isFinal s h, .invalidState)]
  | .pbkdf2Derive alg _ _ _ _ _ outLen iter =>
    [(alg ≠ 0, .unsupportedAlgorithm), (iter = 0, .invalidArgument),
      (outLen ≠ 0 && s.poolFree.toNat < 352, .outOfMemory)]
  | .gcmInit cipher tagLen _ keyLen _ ivLen =>
    [(cipher ≠ 0, .unsupportedAlgorithm), (!([16, 24, 32].contains keyLen.toNat), .invalidArgument),
      (ivLen = 0, .invalidArgument),
      (!([0, 4, 8, 12, 13, 14, 15, 16].contains tagLen.toNat), .invalidArgument),
      (allocFails s (120 + 16 * (keyLen.toNat / 4 + 7)), .outOfMemory)]
  | .gcmAad h _ _ =>
    [(notGcm s h, .invalidArgument), (gcmIn s h [.init, .cipher, .done], .invalidState)]
  | .gcmEncrypt h _ _ _ => [(notGcm s h, .invalidArgument), (gcmIn s h [.done], .invalidState)]
  | .gcmDecrypt h _ _ _ => [(notGcm s h, .invalidArgument), (gcmIn s h [.done], .invalidState)]
  | .gcmDigest h _ => [(notGcm s h, .invalidArgument), (gcmIn s h [.done], .invalidState)]
  | .gcmVerify h _ => [(notGcm s h, .invalidArgument), (gcmIn s h [.done], .invalidState)]
  | .illegal _ => [(true, .invalidArgument)]

/-- The failure R254 reports before any effect, or none. -/
def failure (i : Instr) (s : State) : Option StatusCode :=
  firstOf ((badAddress s i, .invalidArgument) :: checks i s)

/-- Reads, and writes, of a buffer in ascending order. -/
def reads (s : State) (addr n : Nat) : List BusAccess := (bufferAddrs s.cfg addr n).map .read
def writes (s : State) (addr n : Nat) : List BusAccess := (bufferAddrs s.cfg addr n).map .write

/-- `digest_len` of the hash context at `h`, `tag_len` of the GCM context at `h`. -/
def digestLenAt (s : State) (h : Byte) : Nat :=
  match s.ctx[h.toNat]? with
  | some (.hash (.active c)) => c.digestLen.toNat
  | _ => 32

def tagLenAt (s : State) (h : Byte) : Nat :=
  match s.ctx[h.toNat]? with
  | some (.gcm g) => g.tagLen.toNat
  | _ => 0

/-- The accesses of a command that ends `OK` or `AuthenticationFailed`, in order: the table of R61. -/
def accesses (i : Instr) (s : State) : List BusAccess :=
  match i with
  | .hashCreate _ => []
  | .hashUpdate _ data len => reads s data.toNat len.toNat
  | .hashDigest h out => writes s out.toNat (digestLenAt s h)
  | .ctxRelease _ => []
  | .hmacInit _ key keyLen => reads s key.toNat keyLen.toNat
  | .hmacUpdate _ data len => reads s data.toNat len.toNat
  | .hmacFinal _ out => writes s out.toNat 32
  | .pbkdf2Derive _ pw pwLen salt saltLen out outLen _ =>
    if outLen = 0 then []
    else reads s pw.toNat pwLen.toNat ++ reads s salt.toNat saltLen.toNat ++
      writes s out.toNat outLen.toNat
  | .gcmInit _ _ key keyLen iv ivLen => reads s key.toNat keyLen.toNat ++ reads s iv.toNat ivLen.toNat
  | .gcmAad _ data len => reads s data.toNat len.toNat
  | .gcmEncrypt _ input len out =>
    (List.range len.toNat).flatMap fun k => reads s (input.toNat + k) 1 ++ writes s (out.toNat + k) 1
  | .gcmDecrypt _ input len out =>
    (List.range len.toNat).flatMap fun k => reads s (input.toNat + k) 1 ++ writes s (out.toNat + k) 1
  | .gcmDigest h tag => writes s tag.toNat (tagLenAt s h)
  | .gcmVerify h tag => reads s tag.toNat (tagLenAt s h)
  | .illegal _ => []

/-- The moves a slot may make in one command (R30, R273): forward along its phases, from FREE to a new
context, and to FREE. -/
def mayMove : Slot → Slot → Prop
  | .free, .free => True
  | .free, .hash (.active _) => True
  | .free, .hmac (.active _ _ _) => True
  | .free, .gcm g => g.phase = .aad
  | .hash (.active _), .hash _ => True
  | .hash (.final a b c), .hash (.final a' b' c') => a = a' ∧ b = b' ∧ c = c'
  | .hmac (.active _ _ _), .hmac _ => True
  | .hmac (.final a), .hmac (.final a') => a = a'
  | .gcm g, .gcm g' => g.phase.code ≤ g'.phase.code ∧ (g.phase = .done → g' = g)
  | _, _ => False

/-- A command that returns a new handle (R23). -/
def creates : Instr → Bool
  | .hashCreate _ => true
  | .hmacInit _ _ _ => true
  | .gcmInit _ _ _ _ _ _ => true
  | _ => false

/-- A command that only reads memory, or accesses none (R61). -/
def storesNothing : Instr → Bool
  | .hashDigest _ _ => false
  | .hmacFinal _ _ => false
  | .pbkdf2Derive _ _ _ _ _ _ _ _ => false
  | .gcmEncrypt _ _ _ _ => false
  | .gcmDecrypt _ _ _ _ => false
  | .gcmDigest _ _ => false
  | _ => true

/-- The bytes a command may store to (R53, R61). -/
def storedRange (i : Instr) (s : State) : List Nat :=
  match i with
  | .hashDigest h out => bufferAddrs s.cfg out.toNat (digestLenAt s h)
  | .hmacFinal _ out => bufferAddrs s.cfg out.toNat 32
  | .pbkdf2Derive _ _ _ _ _ out outLen _ => bufferAddrs s.cfg out.toNat outLen.toNat
  | .gcmEncrypt _ _ len out => bufferAddrs s.cfg out.toNat len.toNat
  | .gcmDecrypt _ _ len out => bufferAddrs s.cfg out.toNat len.toNat
  | .gcmDigest h tag => bufferAddrs s.cfg tag.toNat (tagLenAt s h)
  | _ => []

/-- `h` is the least index of a FREE slot (R100). -/
def leastFree (s : State) (h : Nat) : Prop :=
  s.ctx[h]? = some .free ∧ ∀ j < h, s.ctx[j]? ≠ some .free

/-- `size(CTX[h])` in bytes (R29, the table's numbers). -/
def slotBytes : Slot → Nat
  | .free => 0
  | .hash _ => 112
  | .hmac _ => 176
  | .gcm g => 120 + 16 * (g.nr.toNat + 1)

/-- Word `i` of a descriptor. -/
def wordAt (d : Descriptor) (i : Nat) : Word := [d.w0, d.w1, d.w2, d.w3, d.w4, d.w5, d.w6, d.w7].getD i 0

/-- The command ends with the code, and only `STATUS` changes (R106, R256). -/
def failsWith (i : Instr) (s : State) (c : StatusCode) : Prop :=
  exec i s = .next { s with status := status c.code.toNat 0xFF }

/-- Every failure the checks of R254 report ends the command so. -/
def failsAsListed (i : Instr) (s : State) : Prop := ∀ c, failure i s = some c → failsWith i s c

/-- Two buffers have no byte in common. -/
def disjoint (p : Params) (a n b m : Nat) : Prop := ∀ x ∈ bufferAddrs p a n, x ∉ bufferAddrs p b m

/-- No output byte lands on an input byte that is still to be read (R60): disjoint buffers and exact
in-place use are both so. -/
def readBeforeOverwritten (p : Params) (input out len : Nat) : Prop :=
  ∀ k < len, ∀ j < k, (out + j) % 2 ^ p.addrBits ≠ (input + k) % 2 ^ p.addrBits

/-- A GCM context at its first or a later cipher-data call, before the data (R232, R233): the AAD is
flushed at the first. -/
def entered (g : GcmCtx) : GcmCtx :=
  if g.phase = .aad then { g with y := flushed g, gbuf := [], phase := .cipher } else g

/-- A context that has taken `len` more cipher bytes, `ct` being what GHASH took (R216). -/
def afterCipher (g : GcmCtx) (ct : Bytes) : GcmCtx :=
  let p := g.ctLen.toNat % 16
  let cb := counter g.cb ((p + ct.length + 15) / 16 - (p + 15) / 16)
  { entered g with
    cb := cb
    ks := if (p + ct.length) % 16 = 0 then none else some (aesEncrypt g.rk g.nr.toNat cb)
    y := ghashOf g.h (entered g).y ((entered g).gbuf ++ ct)
    gbuf := remainder 16 ((entered g).gbuf ++ ct)
    ctLen := g.ctLen + BitVec.ofNat 64 ct.length }

/-- Memory after a cipher command of `len` bytes, and the bytes GHASH took: byte after byte, input `k` read
before output `k` is written and after every earlier output is (R60, R61, R232, R233). -/
def cryptRun (enc : Bool) (s : State) (g : GcmCtx) (input out len : Nat) : Memory × Bytes :=
  (List.range len).foldl (fun r k =>
    let b := r.1.read ((input + k) % 2 ^ s.cfg.addrBits)
    let o := b ^^^ nextKeystream g k
    (r.1.write ((out + k) % 2 ^ s.cfg.addrBits) o, r.2 ++ [if enc then o else b])) (s.mem, [])

/-- The accumulator after the length block, and the tag of a live context (R217). -/
def finalY (g : GcmCtx) : Block :=
  ghashOf g.h (flushed g)
    (beBytes 8 ((8 * g.aadLen.toNat) % 2 ^ 64) ++ beBytes 8 ((8 * g.ctLen.toNat) % 2 ^ 64))

def tagOfCtx (g : GcmCtx) : Bytes :=
  (blockBytes (finalY g ^^^ aesEncrypt g.rk g.nr.toNat g.j0)).take g.tagLen.toNat

/-- What the tag computation leaves of a context (R217). -/
def finished (g : GcmCtx) : GcmCtx := { g with y := finalY g, gbuf := [], phase := .done }

end Sys2Proof.Spec
end

