-- ==== Sys2Proof/Certificates/Slice0/Obligations.lean ====
section
/-! DEFINITION. The statements for the provers, by the spec's rules. `Inv` is the invariant of Safety.lean,
itself stated to hold at reset and to be kept by every step; the one-shot functions are Reference.lean's. -/

open Sys2Proof Sys2Proof.Machine Sys2Proof.Spec

/-! ## Encoding and the step -/

/-- Decode and encode agree on every well-formed command, at every value of every operand (R70, R71, R73,
R74). -/
def Obligations.DecodeOfEncodeIsTheCommand : Prop :=
  ∀ (p : Params) (i : Instr), i.wellFormed p = true → decode (encode i) = .ok i

/-- A legal descriptor has one meaning: what the decoder accepts is the encoding of what it answers, so no
bit of a descriptor with a legal opcode is dropped (R71, R74, R75). -/
def Obligations.EncodeOfDecodeIsTheDescriptor : Prop :=
  ∀ (d : Descriptor) (i : Instr), d.opc ∈ legalOpcodes → decode d = .ok i → encode i = d

/-- R75: a legal opcode with a nonzero reserved field or word, or with an address word at or above
`2^ADDR_BITS`, fails with InvalidArgument and changes nothing but STATUS. The model's own fields move as
the doorbell moves them (assumption log 3, 5). -/
def Obligations.ReservedFieldFailsWithoutEffect : Prop :=
  ∀ (s : State) (v : Word) (rest : List HostAccess),
    s.host = .windowWrite .word 0x20 v :: rest → s.w.opc ∈ legalOpcodes →
    (reservedNonzero s.w = true ∨ ∃ i, decode s.w = .ok i ∧ badAddress s i = true) →
    step s = .next { s with host := rest, log := [], status := status 2 0xFF }

/-- R105: a doorbell with an opcode outside the fourteen ends `STATUS = 0x0000FF02` and changes no other
state, whatever the other descriptor bits are. The model's own fields move as the doorbell moves them: the
host's accesses lose the doorbell (assumption log 3), the access history is emptied (assumption log 5). -/
def Obligations.IllegalOpcodeFailsWithoutEffect : Prop :=
  (∀ (s : State) (v : Word) (rest : List HostAccess),
    s.host = .windowWrite .word 0x20 v :: rest → s.w.opc ∉ legalOpcodes →
    step s = .next { s with host := rest, log := [], status := 0x0000FF02 }) ∧
  ∀ (opc : Byte) (s : State), exec (.illegal opc) s = .next { s with status := 0x0000FF02 }

/-- A step at a doorbell write runs the command the window spells as it stands, whatever value is written
(R67, R72, R82, R103). The model's choices in it: the write is taken off the list of the host's accesses
(assumption log 3), the access history starts afresh (assumption log 5), and the second clause is about
`withFetchWord`, the model's own loading device (assumption log 3), of which no rule speaks. -/
def Obligations.DoorbellRunsTheDecodedCommand : Prop :=
  (∀ (s : State) (v : Word) (rest : List HostAccess) (i : Instr),
    s.host = .windowWrite .word 0x20 v :: rest → decode s.w = .ok i →
    step s = exec i { s with host := rest, log := [] }) ∧
  ∀ (s : State) (nbits w : Nat) (i : Instr), decodeTableWord nbits w = some i →
    step (s.withFetchWord nbits w) = exec i { s with w := .ofTableWord nbits w, log := [] }

/-- A host that writes a command's eight words and rings the doorbell has that command executed, from any
earlier content of the window (R21, R67, R81, R82). The model's choices in it: the host's accesses are a
list that the steps use up (assumption log 3), and the access history starts afresh at the doorbell
(assumption log 5). -/
def Obligations.IssuedCommandRuns : Prop :=
  ∀ (s : State) (p : Params) (i : Instr) (rest : List HostAccess), i.wellFormed p = true →
    s.host = issue (encode i) ++ rest →
    Host.Core.run Sys2Proof.core 9 s = exec i { s with w := encode i, host := rest, log := [] }

/-- Words written out from R71, R73 and R74 decode to the commands they stand for. -/
def Obligations.SampleWordsDecode : Prop :=
  decode ⟨0x00000001, 0, 0, 0, 0, 0, 0, 0⟩ = .ok (.hashCreate 0) ∧
  decode ⟨0x0000030F, 0, 0, 0, 0, 0, 0, 0⟩ = .ok (.ctxRelease 3) ∧
  decode ⟨0x00000112, 0x200, 1, 0, 0, 0, 0, 0⟩ = .ok (.hmacUpdate 1 0x200 1) ∧
  decode ⟨0x00000021, 0x100, 9, 0x200, 0x10, 0x300, 0x10, 0xA⟩ =
    .ok (.pbkdf2Derive 0 0x100 9 0x200 0x10 0x300 0x10 0xA) ∧
  decode ⟨0x0C000031, 0x100, 0x10, 0x200, 0xC, 0, 0, 0⟩ = .ok (.gcmInit 0 12 0x100 0x10 0x200 0xC) ∧
  decode ⟨0x00000134, 0x600, 0x21, 0x700, 0, 0, 0, 0⟩ = .ok (.gcmDecrypt 1 0x600 0x21 0x700) ∧
  decode ⟨0x01000001, 0, 0, 0, 0, 0, 0, 0⟩ = .error (.reservedField "HASH_CREATE") ∧
  decode ⟨0x00000004, 0, 0, 0, 0, 0, 0, 0⟩ = .ok (.illegal 4)

/-! ## The host's side -/

/-- What a word-aligned 32-bit read of the window returns, register by register, and that it changes
nothing but what the host has read (R57, R80 to R87). -/
def Obligations.WindowReadsReturnTheRegisters : Prop :=
  ∀ (s : State) (off : Byte) (rest : List HostAccess), s.cfg.legal = true →
    s.host = .windowRead .word off :: rest → off.toNat % 4 = 0 →
    ∃ v, step s = .next { s with host := rest, readData := some v } ∧
      (∀ i < 8, off.toNat = 4 * i → v = wordAt s.w i) ∧
      (off = 0x20 → v = 0) ∧ (off = 0x24 → v = s.status) ∧
      (off = 0x28 → v.toNat = s.poolFree.toNat) ∧ (off = 0x2C → v = 0x4C574345) ∧
      (off = 0x30 → v.toNat = s.cfg.nCtx + 2 ^ 8 * 1 + 2 ^ 16 * s.cfg.poolBytes) ∧
      (0x34 ≤ off.toNat → v = 0)

/-- A word-aligned 32-bit write that is not to DOORBELL changes the addressed word of the command window
and nothing else; every read-only and reserved offset ignores it (R81, R83 to R87). -/
def Obligations.WindowWritesReachOnlyTheCommandWindow : Prop :=
  ∀ (s : State) (off : Byte) (v : Word) (rest : List HostAccess),
    s.host = .windowWrite .word off v :: rest → off.toNat % 4 = 0 → off ≠ 0x20 →
    ∃ d, step s = .next { s with host := rest, w := d } ∧
      ∀ i < 8, wordAt d i = if off.toNat = 4 * i then v else wordAt s.w i

/-- A narrower or misaligned access to the window is refused (R56, R87, U9). That alignment is the offset's is
the model's choice (assumption log 21). -/
def Obligations.UndefinedWindowAccessIsRefused : Prop :=
  ∀ (s : State) (width : AccessWidth) (off : Byte) (v : Word) (rest : List HostAccess),
    (width ≠ .word ∨ off.toNat % 4 ≠ 0) →
    (s.host = .windowRead width off :: rest ∨ s.host = .windowWrite width off v :: rest) →
    step s = .refused .windowAccessUndefined

/-- The host's own memory accesses (R50, R51, R64): what it writes it reads back, every other byte stays,
the core's state is untouched, and an address at or above `2^ADDR_BITS` does not exist, where the model
stops (the model's choice, assumption log 13). -/
def Obligations.HostMemoryAccesses : Prop :=
  ∀ (s : State) (a : Word) (b : Byte) (rest : List HostAccess), s.mem.wf = true →
    s.host = .memWrite a b :: rest →
    (a.toNat < 2 ^ s.cfg.addrBits →
      ∃ m, step s = .next { s with host := rest, mem := m } ∧ m.wf = true ∧
        (∀ x, m.read x = if x = a.toNat then b else s.mem.read x) ∧
        step { s with host := .memRead a :: rest, mem := m } =
          .next { s with host := rest, mem := m, readData := some (b.setWidth 32) }) ∧
    (2 ^ s.cfg.addrBits ≤ a.toNat → step s = .fault .hostAddressOutsideMem ∧
      step { s with host := .memRead a :: rest } = .fault .hostAddressOutsideMem)

/-- R267: with no access pending the core is idle and keeps all state. -/
def Obligations.IdleStepKeepsState : Prop :=
  ∀ s : State, s.host = [] → step s = .next s

/-- R271: the reset input sets every piece of the core's state to R34's value and touches no memory; the
access history is the model's own (assumption log 5). -/
def Obligations.ResetInputRestoresTheCore : Prop :=
  ∀ (s : State) (rest : List HostAccess), s.host = .reset :: rest →
    step s = .next { s with host := rest, w := ⟨0, 0, 0, 0, 0, 0, 0, 0⟩, status := 0x0000FF00,
                            ctx := List.replicate s.cfg.nCtx .free,
                            poolFree := BitVec.ofNat 16 s.cfg.poolBytes, log := [] }

/-- R34: the state after reset, with R6's default parameters: the window zero, STATUS, every slot FREE, the
whole pool free, and the constant registers. R6 has no default for `CORE_BASE`, and the model gives none
(assumption log 20). (What memory reads as then is the model's choice, assumption log 2.) -/
def Obligations.StateAfterReset : Prop :=
  State.reset.cfg = ⟨8, 2048, 32, none⟩ ∧ (∀ i < 8, wordAt State.reset.w i = 0) ∧
    State.reset.status = 0x0000FF00 ∧ State.reset.ctx.length = 8 ∧
    (∀ x ∈ State.reset.ctx, x = .free) ∧ State.reset.poolFree.toNat = 2048 ∧
    windowRead State.reset 0x2C = 0x4C574345 ∧ windowRead State.reset 0x30 = 0x08000108

/-! ## Rules about every command -/

/-- Every command ends (R284), answers a next state, and leaves the command window, the parameters and the
host's side as they were (R21, R32). -/
def Obligations.EveryCommandEndsAndKeepsTheWindow : Prop :=
  ∀ (i : Instr) (s : State), ∃ t, exec i s = .next t ∧ t.w = s.w ∧ t.cfg = s.cfg ∧
    t.host = s.host ∧ t.readData = s.readData

/-- R106 (and R23): every command writes STATUS.CODE with the code it ended with, and STATUS.HND with the
newly allocated handle if it is a creating command that ended OK, with 0xFF otherwise. -/
def Obligations.StatusAfterEveryCommand : Prop :=
  ∀ (i : Instr) (s t : State), Inv s → exec i s = .next t →
    ∃ code hnd, t.status = status code hnd ∧
      (∀ c, failure i s = some c → code = c.code.toNat) ∧
      (failure i s = none → code = 0 ∨ (code = 5 ∧ ∃ h tag, i = .gcmVerify h tag)) ∧
      (creates i = true ∧ code = 0 → leastFree s hnd ∧ hnd < s.cfg.nCtx ∧
        ∃ x, t.ctx[hnd]? = some x ∧ x ≠ .free) ∧
      (¬(creates i = true ∧ code = 0) → hnd = 0xFF)

/-- R254 (with R250): the first failing check in the listed order is the one reported, without effect;
where none fails the command ends OK, or AuthenticationFailed for GCM_VERIFY alone. -/
def Obligations.FirstFailingCheckIsReported : Prop :=
  ∀ (i : Instr) (s : State), Inv s →
    failsAsListed i s ∧
    (failure i s = none → ∃ t, exec i s = .next t ∧
      (t.code = 0 ∨ (t.code = 5 ∧ ∃ h tag, i = .gcmVerify h tag)))

/-- R256: a command that ends with OutOfMemory, InvalidArgument, InvalidState or UnsupportedAlgorithm
changes only STATUS, and accesses no memory; the one that ends with AuthenticationFailed is a GCM_VERIFY,
which has by then read the tag, updated the accumulator and left its context DONE, memory and pool being
as before. -/
def Obligations.FailingCommandChangesOnlyStatus : Prop :=
  ∀ (i : Instr) (s t : State), exec i s = .next t →
    (t.code = 1 ∨ t.code = 2 ∨ t.code = 3 ∨ t.code = 4 → t = { s with status := t.status }) ∧
    (t.code = 5 → ∃ h tag g, i = .gcmVerify h tag ∧ s.ctx[h.toNat]? = some (.gcm g) ∧
      (gcmTag g).2.phase = .done ∧
      t = { s with ctx := s.ctx.set h.toNat (.gcm (gcmTag g).2)
                   log := s.log ++ reads s tag.toNat g.tagLen.toNat
                   status := t.status })

/-- The invariant is kept by every step, from every state that has it. -/
def Obligations.InvariantKeptByEveryStep : Prop :=
  ∀ s t : State, Inv s → step s = .next t → Inv t

/-- The invariant holds at reset. -/
def Obligations.InvariantAtReset : Prop := Inv State.reset

/-- R30: a context moves only forward along its phases, a FREE slot becomes a context only by a successful
create or init command, and a context becomes FREE only by CTX_RELEASE. -/
def Obligations.PhasesMoveForward : Prop :=
  ∀ (i : Instr) (s t : State), Inv s → exec i s = .next t →
    ∀ (h : Nat) (a : Slot), s.ctx[h]? = some a → ∃ b, t.ctx[h]? = some b ∧
      (mayMove a b ∨ (b = .free ∧ ∃ hb, i = .ctxRelease hb ∧ hb.toNat = h)) ∧
      (a = .free → b ≠ .free → creates i = true ∧ t.code = 0)

/-- A command changes no slot but the one its handle names, and a creating command none that is not FREE
(R265, R100). -/
def Obligations.OtherSlotsAreUntouched : Prop :=
  ∀ (i : Instr) (s t : State), exec i s = .next t → ∀ k : Nat,
    (∀ h, handle i = some h → k ≠ h.toNat) → (handle i = none → s.ctx[k]? ≠ some .free) →
    t.ctx[k]? = s.ctx[k]?

/-- R265: a command on one context neither reads nor writes another. Replacing the content of another slot
(for a command without a handle, of a slot that is not FREE, by another context) changes that slot in the
result and nothing else. -/
def Obligations.OtherContextsDoNotInterfere : Prop :=
  ∀ (i : Instr) (s : State) (k : Nat) (x : Slot),
    ((∃ h, handle i = some h ∧ k ≠ h.toNat) ∨
      (handle i = none ∧ x ≠ .free ∧ ∃ y, s.ctx[k]? = some y ∧ y ≠ .free)) →
    ∃ t, exec i s = .next t ∧
      exec i { s with ctx := s.ctx.set k x } = .next { t with ctx := t.ctx.set k x }

/-- Every byte of memory is unchanged by the commands that store nothing: HASH_CREATE, HASH_UPDATE,
CTX_RELEASE, HMAC_INIT, HMAC_UPDATE, GCM_INIT, GCM_AAD, GCM_VERIFY and the illegal command (R61, R258). -/
def Obligations.CommandsThatStoreNothing : Prop :=
  ∀ (i : Instr) (s t : State), storesNothing i = true → exec i s = .next t →
    t.mem = s.mem ∧ ∀ a, t.mem.read a = s.mem.read a

/-- R53: a command writes exactly the bytes its rule names and nothing outside those ranges: every byte
outside the output range of HASH_DIGEST, HMAC_FINAL, PBKDF2_DERIVE, GCM_ENCRYPT, GCM_DECRYPT and GCM_DIGEST
reads as before. -/
def Obligations.OnlyTheOutputRangeIsStored : Prop :=
  ∀ (i : Instr) (s t : State), exec i s = .next t → ∀ a, a ∉ storedRange i s →
    t.mem.read a = s.mem.read a

/-- POOL_FREE changes only by allocation and release (R25): every command but the creating ones and
CTX_RELEASE leaves it, PBKDF2_DERIVE included (R31). -/
def Obligations.PoolMovesOnlyByAllocationAndRelease : Prop :=
  ∀ (i : Instr) (s t : State), creates i = false → (∀ h, i ≠ .ctxRelease h) → exec i s = .next t →
    t.poolFree = s.poolFree

/-- R61: the memory accesses of every command, in order; a command that ends with a failing status other
than AuthenticationFailed performs none. -/
def Obligations.AccessesFollowTheTable : Prop :=
  ∀ (i : Instr) (s t : State), Inv s → exec i s = .next t →
    (t.code = 0 ∨ t.code = 5 → t.log = s.log ++ accesses i s) ∧
    (t.code ≠ 0 → t.code ≠ 5 → t.log = s.log)

/-! ## Context commands and the hash unit -/

/-- R104: CTX_RELEASE frees a slot of any kind in any phase and returns its bytes to the pool; releasing
again fails. -/
def Obligations.ReleaseFreesTheSlot : Prop :=
  ∀ (s : State) (h : Byte), Inv s → failsAsListed (.ctxRelease h) s ∧
    (failure (.ctxRelease h) s = none → ∃ x t, s.ctx[h.toNat]? = some x ∧ x ≠ .free ∧
      exec (.ctxRelease h) s = .next t ∧
      t = { s with ctx := s.ctx.set h.toNat .free, status := status 0 0xFF,
                   poolFree := s.poolFree + BitVec.ofNat 16 (slotBytes x) } ∧
      t.poolFree.toNat = s.poolFree.toNat + slotBytes x ∧
      failsWith (.ctxRelease h) t .invalidArgument)

/-- R129: HASH_CREATE takes the least free slot and 112 pool bytes for a fresh SHA-256 context (R121,
R125). -/
def Obligations.HashCreateMakesAFreshContext : Prop :=
  ∀ (s : State) (alg : Byte), Inv s → failsAsListed (.hashCreate alg) s ∧
    (failure (.hashCreate alg) s = none → ∃ h, leastFree s h ∧
      exec (.hashCreate alg) s = .next { s with
        ctx := s.ctx.set h (.hash (.active ⟨0x00, 32, 64,
          [0x6a09e667, 0xbb67ae85, 0x3c6ef372, 0xa54ff53a, 0x510e527f, 0x9b05688c, 0x1f83d9ab,
            0x5be0cd19], 0, []⟩))
        poolFree := s.poolFree - 112
        status := status 0 h })

/-- R130 (with R125): HASH_UPDATE runs one compression step per completed block over the pending bytes and
the data, keeps what is left over, and counts the bytes modulo `2^64`. -/
def Obligations.HashUpdateAbsorbsTheData : Prop :=
  ∀ (s : State) (h : Byte) (data len : Word), Inv s → failsAsListed (.hashUpdate h data len) s ∧
    (failure (.hashUpdate h data len) s = none → ∃ c, s.ctx[h.toNat]? = some (.hash (.active c)) ∧
      exec (.hashUpdate h data len) s = .next { s with
        ctx := s.ctx.set h.toNat (.hash (.active { c with
          state := compressAll sha256 c.state (c.buf ++ buffer s data.toNat len.toNat)
          buf := remainder 64 (c.buf ++ buffer s data.toNat len.toNat)
          count := c.count + BitVec.ofNat 64 len.toNat }))
        log := s.log ++ reads s data.toNat len.toNat
        status := status 0 0xFF })

/-- R131 (with R126): HASH_DIGEST pads, runs the last compression steps, writes the 32-byte digest and
leaves the context FINAL, still allocated. -/
def Obligations.HashDigestWritesTheDigest : Prop :=
  ∀ (s : State) (h : Byte) (out : Word), Inv s → failsAsListed (.hashDigest h out) s ∧
    (failure (.hashDigest h out) s = none → ∃ c, s.ctx[h.toNat]? = some (.hash (.active c)) ∧
      (finishFrom sha256 c.state c.count.toNat c.buf).length = 32 ∧
      exec (.hashDigest h out) s = .next { s with
        ctx := s.ctx.set h.toNat (.hash (.final c.alg c.digestLen c.blockSize))
        mem := stored s out.toNat (finishFrom sha256 c.state c.count.toNat c.buf)
        log := s.log ++ writes s out.toNat 32
        status := status 0 0xFF })

/-- The SHA-256 compression step is R124's recurrence: sixteen words of the block, forty-eight more by the
schedule, sixty-four rounds on the working variables, and the sum with the chaining value. -/
def Obligations.CompressionIsTheRecurrence : Prop :=
  ∀ (hin : List Word) (block : Bytes), hin.length = 8 → block.length = 64 →
    ∃ (wt : Nat → Word) (v : Nat → ShaVars),
      (∀ t < 16, wt t = be32 ((block.drop (4 * t)).take 4)) ∧
      (∀ t, 16 ≤ t → t < 64 →
        wt t = ssig1 (wt (t - 2)) + wt (t - 7) + ssig0 (wt (t - 15)) + wt (t - 16)) ∧
      [(v 0).a, (v 0).b, (v 0).c, (v 0).d, (v 0).e, (v 0).f, (v 0).g, (v 0).h] = hin ∧
      (∀ t < 64,
        let x := v t
        let t1 := x.h + bsig1 x.e + shaCh x.e x.f x.g + sha256K.getD t 0 + wt t
        let t2 := bsig0 x.a + shaMaj x.a x.b x.c
        v (t + 1) = ⟨t1 + t2, x.a, x.b, x.c, x.d + t1, x.e, x.f, x.g⟩) ∧
      sha256Compress hin block = [hin.getD 0 0 + (v 64).a, hin.getD 1 0 + (v 64).b,
        hin.getD 2 0 + (v 64).c, hin.getD 3 0 + (v 64).d, hin.getD 4 0 + (v 64).e,
        hin.getD 5 0 + (v 64).f, hin.getD 6 0 + (v 64).g, hin.getD 7 0 + (v 64).h]

/-- R127, and the same law for HMAC_UPDATE (R153) and GCM_AAD (R215): giving a data command its data in two
parts, empty parts included, is the same as giving it in one. The second part's address is the first's
plus its length, modulo `2^ADDR_BITS` (R59). -/
def Obligations.SplitDataIsTheSameAsWhole : Prop :=
  ∀ (s : State) (h : Byte) (data data2 la lb lab : Word) (mk : Byte → Word → Word → Instr),
    (mk = .hashUpdate ∨ mk = .hmacUpdate ∨ mk = .gcmAad) →
    data2.toNat = (data.toNat + la.toNat) % 2 ^ s.cfg.addrBits → lab.toNat = la.toNat + lb.toNat →
    runCommands [mk h data la, mk h data2 lb] s = runCommands [mk h data lab] s

/-- What the hash unit computes (R126, R127): HASH_CREATE, any number of HASH_UPDATEs, HASH_DIGEST and
CTX_RELEASE write R126's hash under the SHA-256 descriptor of the concatenation of the data, and leave the
context table and the pool as they were. R92's SHA256 is the case of one update. The hash is SHA-256 as
published below `2^61` bytes, and from there on has the length word modulo `2^64` (R128, U3). -/
def Obligations.HashOfTheDataIsWritten : Prop :=
  ∀ (s : State) (parts : List (Word × Word)) (out : Word), Inv s →
    (∀ p ∈ parts, p.1.toNat < 2 ^ s.cfg.addrBits) → out.toNat < 2 ^ s.cfg.addrBits →
    (∃ h, leastFree s h) → 112 ≤ s.poolFree.toNat →
    runWithHandle (.hashCreate 0) (fun h => parts.map (fun p => .hashUpdate h p.1 p.2) ++
        [.hashDigest h out, .ctxRelease h]) s = .next { s with
      mem := stored s out.toNat
        (hashOf sha256 (parts.flatMap fun p => buffer s p.1.toNat p.2.toNat))
      log := s.log ++ (parts.flatMap fun p => reads s p.1.toNat p.2.toNat) ++ writes s out.toNat 32
      status := status 0 0xFF }

/-! ## HMAC -/

/-- R152 (with R151): HMAC_INIT takes the least free slot and 176 pool bytes; its template is the pair of
chaining values after the one block of the padded key XOR ipad and opad, and its inner hash has absorbed
the first of them. -/
def Obligations.HmacInitPrimesTheTemplate : Prop :=
  ∀ (s : State) (alg : Byte) (key keyLen : Word), Inv s → failsAsListed (.hmacInit alg key keyLen) s ∧
    (failure (.hmacInit alg key keyLen) s = none → ∃ h, leastFree s h ∧
      let k0 := keyBlock sha256 (buffer s key.toNat keyLen.toNat)
      let istate := sha256Compress sha256Init (xorPad k0 0x36)
      let ostate := sha256Compress sha256Init (xorPad k0 0x5c)
      k0.length = 64 ∧
      exec (.hmacInit alg key keyLen) s = .next { s with
        ctx := s.ctx.set h (.hmac (.active 0x00 ⟨0x00, 32, 64, istate, 64, []⟩ ⟨istate, ostate⟩))
        poolFree := s.poolFree - 176
        log := s.log ++ reads s key.toNat keyLen.toNat
        status := status 0 h })

/-- R153: HMAC_UPDATE feeds the inner hash only. -/
def Obligations.HmacUpdateFeedsTheInnerHash : Prop :=
  ∀ (s : State) (h : Byte) (data len : Word), Inv s → failsAsListed (.hmacUpdate h data len) s ∧
    (failure (.hmacUpdate h data len) s = none →
      ∃ alg c tpl, s.ctx[h.toNat]? = some (.hmac (.active alg c tpl)) ∧
      exec (.hmacUpdate h data len) s = .next { s with
        ctx := s.ctx.set h.toNat (.hmac (.active alg { c with
          state := compressAll sha256 c.state (c.buf ++ buffer s data.toNat len.toNat)
          buf := remainder 64 (c.buf ++ buffer s data.toNat len.toNat)
          count := c.count + BitVec.ofNat 64 len.toNat } tpl))
        log := s.log ++ reads s data.toNat len.toNat
        status := status 0 0xFF })

/-- R154: HMAC_FINAL finishes the inner hash, hashes its digest from the stored outer chaining value (one
block of 64 bytes already counted), writes the 32-byte MAC and leaves the context FINAL. -/
def Obligations.HmacFinalWritesTheMac : Prop :=
  ∀ (s : State) (h : Byte) (out : Word), Inv s → failsAsListed (.hmacFinal h out) s ∧
    (failure (.hmacFinal h out) s = none →
      ∃ alg c tpl, s.ctx[h.toNat]? = some (.hmac (.active alg c tpl)) ∧
      let inner := finishFrom sha256 c.state c.count.toNat c.buf
      let mac := finishFrom sha256 tpl.ostate 96 inner
      mac.length = 32 ∧
      exec (.hmacFinal h out) s = .next { s with
        ctx := s.ctx.set h.toNat (.hmac (.final alg))
        mem := stored s out.toNat mac
        log := s.log ++ writes s out.toNat 32
        status := status 0 0xFF })

/-- R155: for a key and the concatenation `m` of the data of any number of HMAC_UPDATEs, HMAC_FINAL writes
`Hash((K0 XOR OPAD) ‖ Hash((K0 XOR IPAD) ‖ m))`; with the CTX_RELEASE after it, the context table and the
pool are as they were. R92's HMAC256 is the case of one update. From `2^61` bytes on, the hash is R126's
with the length word modulo `2^64` (R128, U3). -/
def Obligations.HmacOfTheDataIsWritten : Prop :=
  ∀ (s : State) (key keyLen : Word) (parts : List (Word × Word)) (out : Word), Inv s →
    key.toNat < 2 ^ s.cfg.addrBits → (∀ p ∈ parts, p.1.toNat < 2 ^ s.cfg.addrBits) →
    out.toNat < 2 ^ s.cfg.addrBits → (∃ h, leastFree s h) → 176 ≤ s.poolFree.toNat →
    runWithHandle (.hmacInit 0 key keyLen) (fun h => parts.map (fun p => .hmacUpdate h p.1 p.2) ++
        [.hmacFinal h out, .ctxRelease h]) s = .next { s with
      mem := stored s out.toNat (hmacOf sha256 (buffer s key.toNat keyLen.toNat)
        (parts.flatMap fun p => buffer s p.1.toNat p.2.toNat))
      log := s.log ++ reads s key.toNat keyLen.toNat ++
        (parts.flatMap fun p => reads s p.1.toNat p.2.toNat) ++ writes s out.toNat 32
      status := status 0 0xFF }

/-! ## PBKDF2 -/

/-- R171 (with R170, R173): PBKDF2_DERIVE writes the derived key of R170, whatever overlap there is between
its buffers; `out_len = 0` is a success without any access; the context table and POOL_FREE are as they
were. -/
def Obligations.Pbkdf2WritesTheDerivedKey : Prop :=
  ∀ (s : State) (alg : Byte) (pw pwLen salt saltLen out outLen iter : Word), Inv s →
    failsAsListed (.pbkdf2Derive alg pw pwLen salt saltLen out outLen iter) s ∧
    (failure (.pbkdf2Derive alg pw pwLen salt saltLen out outLen iter) s = none →
      (outLen = 0 → exec (.pbkdf2Derive alg pw pwLen salt saltLen out outLen iter) s =
        .next { s with status := status 0 0xFF }) ∧
      (outLen ≠ 0 → exec (.pbkdf2Derive alg pw pwLen salt saltLen out outLen iter) s =
        .next { s with
          mem := stored s out.toNat (pbkdf2Of sha256 (buffer s pw.toNat pwLen.toNat)
            (buffer s salt.toNat saltLen.toNat) iter.toNat outLen.toNat)
          log := s.log ++ (reads s pw.toNat pwLen.toNat ++ reads s salt.toNat saltLen.toNat ++
            writes s out.toNat outLen.toNat)
          status := status 0 0xFF }))

/-! ## AES, GHASH -/

/-- R190: the S-box is the affine map of the inverse in GF(2^8) modulo `x^8 + x^4 + x^3 + x + 1`: for every
`a` there is an `inv`, 0 for 0 and otherwise with product 1, and bit `i` of `SBOX[a]` is the XOR of five
bits of `inv` and bit `i` of 0x63. The product is the schoolbook one over `xtime` (R191). -/
def Obligations.SboxIsTheAffineInverse : Prop :=
  ∀ a : Byte, ∃ inv : Byte,
    (a = 0 → inv = 0) ∧
    (a ≠ 0 → ((List.range 8).foldl (fun (r : Byte × Byte) i =>
      (if inv.getLsbD i then r.1 ^^^ r.2 else r.1, xtime r.2)) (0, a)).1 = 1) ∧
    ∀ i < 8, (sbox a).getLsbD i = (inv.getLsbD i ^^ inv.getLsbD ((i + 4) % 8) ^^
      inv.getLsbD ((i + 5) % 8) ^^ inv.getLsbD ((i + 6) % 8) ^^ inv.getLsbD ((i + 7) % 8) ^^
      (0x63 : Byte).getLsbD i)

/-- R192: the round-key schedule of a 16-, 24- or 32-byte key has `4*(nr+1)` words; the first `Nk` are the
key's, and every later one is `rk[i-Nk]` XOR the transformed `rk[i-1]`. -/
def Obligations.KeyScheduleIsTheRecurrence : Prop :=
  ∀ key : Bytes, key.length ∈ [16, 24, 32] →
    let nk := key.length / 4
    let rk := keyExpand key
    roundsOf key.length = nk + 6 ∧ rk.length = 4 * (nk + 6 + 1) ∧
    (∀ i < nk, rk.getD i 0 = be32 ((key.drop (4 * i)).take 4)) ∧
    ∀ i, nk ≤ i → i < 4 * (nk + 6 + 1) →
      rk.getD i 0 = rk.getD (i - nk) 0 ^^^
        (if i % nk = 0 then
          subWord (rotWord (rk.getD (i - 1) 0)) ^^^ ((rcon (i / nk)).setWidth 32 <<< 24)
        else if 6 < nk ∧ i % nk = 4 then subWord (rk.getD (i - 1) 0)
        else rk.getD (i - 1) 0)

/-- R210: GMUL is a commutative, associative multiplication that distributes over XOR, and with the block
`80 00 .. 00` as its identity. What fixes the polynomial: times `x` (the block `40 00 .. 00`), `x^i`
gives `x^(i+1)`, and `x^127` gives the reduction constant `e1 00 .. 00`, as R210 checks. -/
def Obligations.GmulIsMultiplicationModuloThePolynomial : Prop :=
  (∀ x y : Block, gmul x y = gmul y x) ∧
  (∀ x y z : Block, gmul (gmul x y) z = gmul x (gmul y z)) ∧
  (∀ x y z : Block, gmul (x ^^^ y) z = gmul x z ^^^ gmul y z) ∧
  (∀ y : Block, gmul 0x80000000000000000000000000000000 y = y) ∧
  (∀ i < 127, gmul (1 <<< (127 - i)) 0x40000000000000000000000000000000 = 1 <<< (126 - i)) ∧
  gmul 1 0x40000000000000000000000000000000 = 0xE1000000000000000000000000000000

/-- R212: the counter field is the last four bytes, big-endian, counting modulo `2^32`; the first twelve
bytes never change. -/
def Obligations.Inc32CountsTheLastFourBytes : Prop :=
  ∀ cb : Block, (inc32 cb).toNat =
    2 ^ 32 * (cb.toNat / 2 ^ 32) + (cb.toNat % 2 ^ 32 + 1) % 2 ^ 32

/-! ## AES-GCM -/

/-- R230 (with R192, R213): GCM_INIT takes the least free slot and 296, 328 or 360 pool bytes by the key
length; key schedule, hash subkey and initial counter block are those of the key and the IV, the
accumulator and both counts are zero, and the phase is AAD. -/
def Obligations.GcmInitBuildsTheContext : Prop :=
  ∀ (s : State) (cipher tagLen : Byte) (key keyLen iv ivLen : Word), Inv s →
    failsAsListed (.gcmInit cipher tagLen key keyLen iv ivLen) s ∧
    (failure (.gcmInit cipher tagLen key keyLen iv ivLen) s = none → ∃ h, leastFree s h ∧
      let k := gcmKeyOf (buffer s key.toNat keyLen.toNat) (buffer s iv.toNat ivLen.toNat)
      exec (.gcmInit cipher tagLen key keyLen iv ivLen) s = .next { s with
        ctx := s.ctx.set h (.gcm
          { keyLen := BitVec.ofNat 8 keyLen.toNat, nr := BitVec.ofNat 4 k.nr, rk := k.rk, h := k.h,
            j0 := k.j0, cb := k.j0, y := 0, gbuf := [], ks := none, aadLen := 0, ctLen := 0,
            phase := .aad, tagLen := if tagLen = 0 then 16 else tagLen })
        poolFree := s.poolFree - BitVec.ofNat 16 (120 + 16 * (keyLen.toNat / 4 + 7))
        log := s.log ++ (reads s key.toNat keyLen.toNat ++ reads s iv.toNat ivLen.toNat)
        status := status 0 h })

/-- R231 (with R215): GCM_AAD absorbs the whole 16-byte blocks of the pending bytes and the data, keeps what
is left over, and stays in phase AAD. -/
def Obligations.GcmAadAbsorbsTheData : Prop :=
  ∀ (s : State) (h : Byte) (data len : Word), Inv s → failsAsListed (.gcmAad h data len) s ∧
    (failure (.gcmAad h data len) s = none → ∃ g, s.ctx[h.toNat]? = some (.gcm g) ∧ g.phase = .aad ∧
      exec (.gcmAad h data len) s = .next { s with
        ctx := s.ctx.set h.toNat (.gcm { g with
          y := ghashOf g.h g.y (g.gbuf ++ buffer s data.toNat len.toNat)
          gbuf := remainder 16 (g.gbuf ++ buffer s data.toNat len.toNat)
          aadLen := g.aadLen + BitVec.ofNat 64 len.toNat })
        log := s.log ++ reads s data.toNat len.toNat
        status := status 0 0xFF })

/-- R232 (with R214, R216): GCM_ENCRYPT moves to CIPHER, reads the input byte after byte, writes each XOR its
keystream byte, and feeds the produced ciphertext to GHASH, in the order that decides every overlap of the
buffers (R60). Where no output byte lands on an input byte still to be read, that is the input as a whole
XOR the keystream, stored at `out`. -/
def Obligations.GcmEncryptWritesTheCiphertext : Prop :=
  ∀ (s : State) (h : Byte) (input len out : Word), Inv s →
    failsAsListed (.gcmEncrypt h input len out) s ∧
    (failure (.gcmEncrypt h input len out) s = none →
      ∃ g, s.ctx[h.toNat]? = some (.gcm g) ∧ g.phase ≠ .done ∧
      let r := cryptRun true s g input.toNat out.toNat len.toNat
      exec (.gcmEncrypt h input len out) s = .next { s with
        ctx := s.ctx.set h.toNat (.gcm (afterCipher g r.2))
        mem := r.1
        log := s.log ++ accesses (.gcmEncrypt h input len out) s
        status := status 0 0xFF } ∧
      (readBeforeOverwritten s.cfg input.toNat out.toNat len.toNat →
        let ct := (buffer s input.toNat len.toNat).mapIdx fun k b => b ^^^ nextKeystream g k
        r.2 = ct ∧ r.1 = stored s out.toNat ct))

/-- R233: GCM_DECRYPT is the same but for GHASH, which takes the input. -/
def Obligations.GcmDecryptWritesThePlaintext : Prop :=
  ∀ (s : State) (h : Byte) (input len out : Word), Inv s →
    failsAsListed (.gcmDecrypt h input len out) s ∧
    (failure (.gcmDecrypt h input len out) s = none →
      ∃ g, s.ctx[h.toNat]? = some (.gcm g) ∧ g.phase ≠ .done ∧
      let r := cryptRun false s g input.toNat out.toNat len.toNat
      exec (.gcmDecrypt h input len out) s = .next { s with
        ctx := s.ctx.set h.toNat (.gcm (afterCipher g r.2))
        mem := r.1
        log := s.log ++ accesses (.gcmDecrypt h input len out) s
        status := status 0 0xFF } ∧
      (readBeforeOverwritten s.cfg input.toNat out.toNat len.toNat →
        let ct := buffer s input.toNat len.toNat
        r.2 = ct ∧ r.1 = stored s out.toNat (ct.mapIdx fun k b => b ^^^ nextKeystream g k)))

/-- Streaming (R216): a cipher command given its data in two parts is the same as given it in one, whatever
the buffers' overlap (R60). -/
def Obligations.SplitCipherIsTheSameAsWhole : Prop :=
  ∀ (s : State) (h : Byte) (input input2 out out2 la lb lab : Word)
    (mk : Byte → Word → Word → Word → Instr), (mk = .gcmEncrypt ∨ mk = .gcmDecrypt) →
    input2.toNat = (input.toNat + la.toNat) % 2 ^ s.cfg.addrBits →
    out2.toNat = (out.toNat + la.toNat) % 2 ^ s.cfg.addrBits → lab.toNat = la.toNat + lb.toNat →
    runCommands [mk h input la out, mk h input2 lb out2] s = runCommands [mk h input lab out] s

/-- R234 (with R214, R217): GCM_DIGEST writes the leading `tag_len` bytes of the tag and leaves the context
DONE, from phase AAD as from CIPHER. -/
def Obligations.GcmDigestWritesTheTag : Prop :=
  ∀ (s : State) (h : Byte) (tag : Word), Inv s → failsAsListed (.gcmDigest h tag) s ∧
    (failure (.gcmDigest h tag) s = none → ∃ g, s.ctx[h.toNat]? = some (.gcm g) ∧ g.phase ≠ .done ∧
      (tagOfCtx g).length = g.tagLen.toNat ∧
      exec (.gcmDigest h tag) s = .next { s with
        ctx := s.ctx.set h.toNat (.gcm (finished g))
        mem := stored s tag.toNat (tagOfCtx g)
        log := s.log ++ writes s tag.toNat g.tagLen.toNat
        status := status 0 0xFF })

/-- R235: GCM_VERIFY reads all `tag_len` bytes, writes nothing, ends OK exactly when they are the computed
tag and AuthenticationFailed otherwise, and leaves the context DONE either way, so that a second one ends
InvalidState. -/
def Obligations.GcmVerifyComparesTheTag : Prop :=
  ∀ (s : State) (h : Byte) (tag : Word), Inv s → failsAsListed (.gcmVerify h tag) s ∧
    (failure (.gcmVerify h tag) s = none → ∃ g t, s.ctx[h.toNat]? = some (.gcm g) ∧ g.phase ≠ .done ∧
      exec (.gcmVerify h tag) s = .next t ∧
      t = { s with
        ctx := s.ctx.set h.toNat (.gcm (finished g))
        log := s.log ++ reads s tag.toNat g.tagLen.toNat
        status := if buffer s tag.toNat g.tagLen.toNat = tagOfCtx g then status 0 0xFF
          else status 5 0xFF } ∧
      failsWith (.gcmVerify h tag) t .invalidState)

/-- R218: what GCM_VERIFY reads, in which order, and what it leaves of every piece of state but STATUS do not
depend on the tag bytes in memory. -/
def Obligations.VerifyDoesNotDependOnTheTagBytes : Prop :=
  ∀ (s : State) (h : Byte) (tag : Word) (m : Memory),
    ∃ t t', exec (.gcmVerify h tag) s = .next t ∧ exec (.gcmVerify h tag) { s with mem := m } = .next t' ∧
      t'.log = t.log ∧ t'.ctx = t.ctx ∧ t'.poolFree = t.poolFree ∧ t.mem = s.mem ∧ t'.mem = m

/-- R92's GCM_SEAL is AES-GCM: the ciphertext is the counter-mode transform of the plaintext and the tag is
that of AAD and ciphertext (R216, R217), for buffers that do not run into each other; the context table and
the pool are as they were. -/
def Obligations.GcmSealIsAuthenticatedEncryption : Prop :=
  ∀ (s : State) (key keyLen iv ivLen aad aadLen input len out tag : Word), Inv s →
    (∀ a ∈ [key, iv, aad, input, out, tag], a.toNat < 2 ^ s.cfg.addrBits) →
    keyLen.toNat ∈ [16, 24, 32] → ivLen ≠ 0 → (∃ h, leastFree s h) →
    120 + 16 * (keyLen.toNat / 4 + 7) ≤ s.poolFree.toNat →
    readBeforeOverwritten s.cfg input.toNat out.toNat len.toNat →
    let k := gcmKeyOf (buffer s key.toNat keyLen.toNat) (buffer s iv.toNat ivLen.toNat)
    let ad := buffer s aad.toNat aadLen.toNat
    let ct := k.crypt (buffer s input.toNat len.toNat)
    ∃ t, pseudoGcmSeal key keyLen iv ivLen aad aadLen input len out tag s = .next t ∧
      t.status = status 0 0xFF ∧ t.ctx = s.ctx ∧ t.poolFree = s.poolFree ∧
      t.mem = stored { s with mem := stored s out.toNat ct } tag.toNat (k.tag ad ct)

/-- R92's GCM_OPEN is AES-GCM's inverse: it writes the counter-mode transform of the ciphertext, and ends OK
exactly when the sixteen bytes at the tag address, which the plaintext must not overwrite, are the tag of
AAD and ciphertext; otherwise it stops at AuthenticationFailed with its context still allocated (R235,
R92). -/
def Obligations.GcmOpenAcceptsExactlyTheTag : Prop :=
  ∀ (s : State) (key keyLen iv ivLen aad aadLen input len out tag : Word), Inv s →
    (∀ a ∈ [key, iv, aad, input, out, tag], a.toNat < 2 ^ s.cfg.addrBits) →
    keyLen.toNat ∈ [16, 24, 32] → ivLen ≠ 0 → (∃ h, leastFree s h) →
    120 + 16 * (keyLen.toNat / 4 + 7) ≤ s.poolFree.toNat →
    readBeforeOverwritten s.cfg input.toNat out.toNat len.toNat →
    disjoint s.cfg out.toNat len.toNat tag.toNat 16 →
    let k := gcmKeyOf (buffer s key.toNat keyLen.toNat) (buffer s iv.toNat ivLen.toNat)
    let ad := buffer s aad.toNat aadLen.toNat
    let ct := buffer s input.toNat len.toNat
    ∃ t, pseudoGcmOpen key keyLen iv ivLen aad aadLen input len out tag s = .next t ∧
      t.mem = stored s out.toNat (k.crypt ct) ∧
      (buffer s tag.toNat 16 = k.tag ad ct → t.status = status 0 0xFF ∧ t.ctx = s.ctx ∧
        t.poolFree = s.poolFree) ∧
      (buffer s tag.toNat 16 ≠ k.tag ad ct → t.status = status 5 0xFF ∧
        ∃ h g, leastFree s h ∧ t.ctx = s.ctx.set h (.gcm g) ∧ g.phase = .done)

/-- R236: of two equal live contexts, the one that is given the first's ciphertext to decrypt and its tag to
verify writes the first's plaintext and ends OK. Either transform may run in place; the plaintext buffer
must leave the tag's bytes alone, and the tag must fit in the memory. -/
def Obligations.DecryptUndoesEncrypt : Prop :=
  ∀ (s : State) (h1 h2 : Byte) (g : GcmCtx) (input len ct pt tag : Word), Inv s → h1 ≠ h2 →
    s.ctx[h1.toNat]? = some (.gcm g) → s.ctx[h2.toNat]? = some (.gcm g) → g.phase ≠ .done →
    (∀ a ∈ [input, ct, pt, tag], a.toNat < 2 ^ s.cfg.addrBits) → len.toNat ≤ 2 ^ s.cfg.addrBits →
    g.tagLen.toNat ≤ 2 ^ s.cfg.addrBits →
    readBeforeOverwritten s.cfg input.toNat ct.toNat len.toNat →
    readBeforeOverwritten s.cfg ct.toNat pt.toNat len.toNat →
    disjoint s.cfg tag.toNat g.tagLen.toNat pt.toNat len.toNat →
    ∃ t, runCommands [.gcmEncrypt h1 input len ct, .gcmDecrypt h2 ct len pt, .gcmDigest h1 tag,
        .gcmVerify h2 tag] s = .next t ∧
      t.status = status 0 0xFF ∧ buffer t pt.toNat len.toNat = buffer s input.toNat len.toNat ∧
      t.ctx[h1.toNat]? = t.ctx[h2.toNat]?

/-! ## The window in the host's address space -/

/-- The host reaches the window's byte `off` at `CORE_BASE + off` of its own address space (R6, R58, R80): an
access there is the access at that offset. That this is so, alignment included, where `CORE_BASE` is not a
multiple of four is the model's choice (assumption log 21); and so is the refusal at every other address, and
where no `CORE_BASE` is given (assumption log 20). -/
def Obligations.WindowLiesAtCoreBase : Prop :=
  ∀ (s : State) (width : AccessWidth) (addr : Nat) (v : Word) (rest : List HostAccess),
    (∀ base, s.cfg.coreBase = some base → ∀ off : Byte, addr = base + off.toNat →
      step { s with host := .busRead width addr :: rest } =
        step { s with host := .windowRead width off :: rest } ∧
      step { s with host := .busWrite width addr v :: rest } =
        step { s with host := .windowWrite width off v :: rest }) ∧
    ((∀ base, s.cfg.coreBase = some base → addr < base ∨ base + 256 ≤ addr) →
      step { s with host := .busRead width addr :: rest } = .refused .hostAddressNotInWindow ∧
      step { s with host := .busWrite width addr v :: rest } = .refused .hostAddressNotInWindow)
end

