-- ==== Sys2Proof/Laws/State.lean ====
section
/-! SUPPORT. What each update of the state leaves in each field, so that no proof unfolds a record
update. -/

namespace Sys2Proof.Machine

section
variable (s : State)

@[simp] theorem State.withStatus_cfg (code : StatusCode) (hnd : Byte) :
    (s.withStatus code hnd).cfg = s.cfg := rfl
@[simp] theorem State.withStatus_w (code : StatusCode) (hnd : Byte) :
    (s.withStatus code hnd).w = s.w := rfl
@[simp] theorem State.withStatus_status (code : StatusCode) (hnd : Byte) :
    (s.withStatus code hnd).status = statusWord code hnd := rfl
@[simp] theorem State.withStatus_poolFree (code : StatusCode) (hnd : Byte) :
    (s.withStatus code hnd).poolFree = s.poolFree := rfl
@[simp] theorem State.withStatus_ctx (code : StatusCode) (hnd : Byte) :
    (s.withStatus code hnd).ctx = s.ctx := rfl
@[simp] theorem State.withStatus_mem (code : StatusCode) (hnd : Byte) :
    (s.withStatus code hnd).mem = s.mem := rfl
@[simp] theorem State.withStatus_host (code : StatusCode) (hnd : Byte) :
    (s.withStatus code hnd).host = s.host := rfl
@[simp] theorem State.withStatus_readData (code : StatusCode) (hnd : Byte) :
    (s.withStatus code hnd).readData = s.readData := rfl
@[simp] theorem State.withStatus_log (code : StatusCode) (hnd : Byte) :
    (s.withStatus code hnd).log = s.log := rfl

@[simp] theorem State.afterRead_cfg (addr n : Nat) :
    (s.afterRead addr n).cfg = s.cfg := rfl
@[simp] theorem State.afterRead_w (addr n : Nat) :
    (s.afterRead addr n).w = s.w := rfl
@[simp] theorem State.afterRead_status (addr n : Nat) :
    (s.afterRead addr n).status = s.status := rfl
@[simp] theorem State.afterRead_poolFree (addr n : Nat) :
    (s.afterRead addr n).poolFree = s.poolFree := rfl
@[simp] theorem State.afterRead_ctx (addr n : Nat) :
    (s.afterRead addr n).ctx = s.ctx := rfl
@[simp] theorem State.afterRead_mem (addr n : Nat) :
    (s.afterRead addr n).mem = s.mem := rfl
@[simp] theorem State.afterRead_host (addr n : Nat) :
    (s.afterRead addr n).host = s.host := rfl
@[simp] theorem State.afterRead_readData (addr n : Nat) :
    (s.afterRead addr n).readData = s.readData := rfl
@[simp] theorem State.afterRead_log (addr n : Nat) :
    (s.afterRead addr n).log = s.log ++ (s.byteAddrs addr n).map .read := rfl

@[simp] theorem State.memWrite_cfg (addr : Nat) (v : Bytes) :
    (s.memWrite addr v).cfg = s.cfg := rfl
@[simp] theorem State.memWrite_w (addr : Nat) (v : Bytes) :
    (s.memWrite addr v).w = s.w := rfl
@[simp] theorem State.memWrite_status (addr : Nat) (v : Bytes) :
    (s.memWrite addr v).status = s.status := rfl
@[simp] theorem State.memWrite_poolFree (addr : Nat) (v : Bytes) :
    (s.memWrite addr v).poolFree = s.poolFree := rfl
@[simp] theorem State.memWrite_ctx (addr : Nat) (v : Bytes) :
    (s.memWrite addr v).ctx = s.ctx := rfl
@[simp] theorem State.memWrite_mem (addr : Nat) (v : Bytes) :
    (s.memWrite addr v).mem = s.mem.writeAll ((s.byteAddrs addr v.length).zip v) := rfl
@[simp] theorem State.memWrite_host (addr : Nat) (v : Bytes) :
    (s.memWrite addr v).host = s.host := rfl
@[simp] theorem State.memWrite_readData (addr : Nat) (v : Bytes) :
    (s.memWrite addr v).readData = s.readData := rfl
@[simp] theorem State.memWrite_log (addr : Nat) (v : Bytes) :
    (s.memWrite addr v).log = s.log ++ (s.byteAddrs addr v.length).map .write := rfl

@[simp] theorem State.setSlot_cfg (h : Nat) (slot : Slot) :
    (s.setSlot h slot).cfg = s.cfg := rfl
@[simp] theorem State.setSlot_w (h : Nat) (slot : Slot) :
    (s.setSlot h slot).w = s.w := rfl
@[simp] theorem State.setSlot_status (h : Nat) (slot : Slot) :
    (s.setSlot h slot).status = s.status := rfl
@[simp] theorem State.setSlot_poolFree (h : Nat) (slot : Slot) :
    (s.setSlot h slot).poolFree = s.poolFree := rfl
@[simp] theorem State.setSlot_ctx (h : Nat) (slot : Slot) :
    (s.setSlot h slot).ctx = s.ctx.set h slot := rfl
@[simp] theorem State.setSlot_mem (h : Nat) (slot : Slot) :
    (s.setSlot h slot).mem = s.mem := rfl
@[simp] theorem State.setSlot_host (h : Nat) (slot : Slot) :
    (s.setSlot h slot).host = s.host := rfl
@[simp] theorem State.setSlot_readData (h : Nat) (slot : Slot) :
    (s.setSlot h slot).readData = s.readData := rfl
@[simp] theorem State.setSlot_log (h : Nat) (slot : Slot) :
    (s.setSlot h slot).log = s.log := rfl

@[simp] theorem State.release_cfg (h : Nat) (slot : Slot) :
    (s.release h slot).cfg = s.cfg := rfl
@[simp] theorem State.release_w (h : Nat) (slot : Slot) :
    (s.release h slot).w = s.w := rfl
@[simp] theorem State.release_status (h : Nat) (slot : Slot) :
    (s.release h slot).status = s.status := rfl
@[simp] theorem State.release_poolFree (h : Nat) (slot : Slot) :
    (s.release h slot).poolFree = s.poolFree + BitVec.ofNat 16 slot.size := rfl
@[simp] theorem State.release_ctx (h : Nat) (slot : Slot) :
    (s.release h slot).ctx = s.ctx.set h .free := rfl
@[simp] theorem State.release_mem (h : Nat) (slot : Slot) :
    (s.release h slot).mem = s.mem := rfl
@[simp] theorem State.release_host (h : Nat) (slot : Slot) :
    (s.release h slot).host = s.host := rfl
@[simp] theorem State.release_readData (h : Nat) (slot : Slot) :
    (s.release h slot).readData = s.readData := rfl
@[simp] theorem State.release_log (h : Nat) (slot : Slot) :
    (s.release h slot).log = s.log := rfl

@[simp] theorem resetCore_cfg : (resetCore s).cfg = s.cfg := rfl
@[simp] theorem resetCore_w : (resetCore s).w = ⟨0, 0, 0, 0, 0, 0, 0, 0⟩ := rfl
@[simp] theorem resetCore_status : (resetCore s).status = statusWord .ok noHandle := rfl
@[simp] theorem resetCore_poolFree : (resetCore s).poolFree = BitVec.ofNat 16 s.cfg.poolBytes := rfl
@[simp] theorem resetCore_ctx : (resetCore s).ctx = List.replicate s.cfg.nCtx .free := rfl
@[simp] theorem resetCore_mem : (resetCore s).mem = s.mem := rfl
@[simp] theorem resetCore_host : (resetCore s).host = s.host := rfl
@[simp] theorem resetCore_readData : (resetCore s).readData = s.readData := rfl
@[simp] theorem resetCore_log : (resetCore s).log = [] := rfl

end

/-! Addresses depend on the parameters alone. -/

theorem State.byteAddrs_congr {s t : State} (h : s.cfg = t.cfg) (addr n : Nat) :
    s.byteAddrs addr n = t.byteAddrs addr n := by
  simp [State.byteAddrs, State.wrap, h]

@[simp] theorem State.byteAddrs_length (s : State) (addr n : Nat) :
    (s.byteAddrs addr n).length = n := by
  simp [State.byteAddrs]

@[simp] theorem State.bytesAt_length (s : State) (addr n : Nat) : (s.bytesAt addr n).length = n := by
  simp [State.bytesAt, Memory.readAll]

theorem State.byteAddrs_lt (s : State) (addr n : Nat) :
    ∀ a ∈ s.byteAddrs addr n, a < 2 ^ s.cfg.addrBits := by
  simp only [State.byteAddrs, State.wrap, List.mem_map]
  rintro a ⟨k, -, rfl⟩
  exact Nat.mod_lt _ (Nat.two_pow_pos _)

theorem State.bytesAt_congr {s t : State} (hc : s.cfg = t.cfg) (hm : s.mem = t.mem) (addr n : Nat) :
    s.bytesAt addr n = t.bytesAt addr n := by
  simp [State.bytesAt, State.byteAddrs_congr hc, hm]

end Sys2Proof.Machine
end

