-- ==== Sys2Proof/Laws/Decode.lean ====
section
/-! SUPPORT. The header word's fields, read back from where `header` puts them (30_encoding R71). -/

namespace Sys2Proof

@[simp] theorem header_opc (opc hnd alg aux : Byte) :
    (header opc hnd alg aux).extractLsb' 0 8 = opc := by
  unfold header
  ext i hi
  simp only [BitVec.getElem_extractLsb', BitVec.getLsbD_append]
  simp [hi]

@[simp] theorem header_hnd (opc hnd alg aux : Byte) :
    (header opc hnd alg aux).extractLsb' 8 8 = hnd := by
  unfold header
  ext i hi
  simp only [BitVec.getElem_extractLsb', BitVec.getLsbD_append]
  have h1 : ¬ 8 + i < 8 := by omega
  have h2 : 8 + i - 8 = i := by omega
  simp [h1, h2, hi]

@[simp] theorem header_alg (opc hnd alg aux : Byte) :
    (header opc hnd alg aux).extractLsb' 16 8 = alg := by
  unfold header
  ext i hi
  simp only [BitVec.getElem_extractLsb', BitVec.getLsbD_append]
  have h1 : ¬ 16 + i < 8 := by omega
  have h2 : ¬ 16 + i - 8 < 8 := by omega
  have h3 : 16 + i - 8 - 8 = i := by omega
  simp [h1, h2, h3, hi]

@[simp] theorem header_aux (opc hnd alg aux : Byte) :
    (header opc hnd alg aux).extractLsb' 24 8 = aux := by
  unfold header
  ext i hi
  simp only [BitVec.getElem_extractLsb', BitVec.getLsbD_append]
  have h1 : ¬ 24 + i < 8 := by omega
  have h2 : ¬ 24 + i - 8 < 8 := by omega
  have h3 : ¬ 24 + i - 8 - 8 < 8 := by omega
  have h4 : 24 + i - 8 - 8 - 8 = i := by omega
  simp [h1, h2, h3, h4, hi]

end Sys2Proof
end

