-- ==== Sys2Proof/Laws/Memory.lean ====
section
/-! SUPPORT. Memory: a read after a write, and that every operation keeps the canonical form. -/

namespace Sys2Proof.Machine

/-- Every listed address is above `x`. -/
def Memory.above (x : Nat) (m : Memory) : Prop := ∀ c ∈ m, x < c.1

theorem Memory.wf_cons {a : Nat} {b : Byte} {m : Memory} :
    Memory.wf ((a, b) :: m) = true ↔
      b ≠ Memory.unwritten ∧ Memory.above a m ∧ Memory.wf m = true := by
  induction m generalizing a b with
  | nil => simp [Memory.wf, Memory.above]
  | cons c m ih =>
    obtain ⟨a', b'⟩ := c
    have := @ih a' b'
    simp only [Memory.wf, Bool.and_eq_true, bne_iff_ne, decide_eq_true_eq, this, Memory.above,
      List.mem_cons, forall_eq_or_imp]
    constructor
    · rintro ⟨⟨h1, h2⟩, h3, h4, h5⟩
      exact ⟨h1, ⟨h2, fun c hc => h2.trans (h4 c hc)⟩, h3, h4, h5⟩
    · rintro ⟨h1, ⟨h2, -⟩, h3, h4, h5⟩
      exact ⟨⟨h1, h2⟩, h3, h4, h5⟩

@[simp] theorem Memory.read_nil (x : Nat) : Memory.read [] x = Memory.unwritten := rfl

theorem Memory.read_above {x y : Nat} {m : Memory} (h : Memory.above x m) (hy : y ≤ x) :
    Memory.read m y = Memory.unwritten := by
  induction m with
  | nil => rfl
  | cons c m ih =>
    obtain ⟨a, b⟩ := c
    have ha : x < a := h (a, b) (by simp)
    have hne : a ≠ y := by omega
    simp only [Memory.read, hne, if_false]
    exact ih fun c hc => h c (by simp [hc])

theorem Memory.read_write_ne (m : Memory) {x y : Nat} (v : Byte) (h : y ≠ x) :
    Memory.read (Memory.write m x v) y = Memory.read m y := by
  induction m with
  | nil => by_cases hv : v = Memory.unwritten <;> simp [Memory.write, Memory.read, hv, Ne.symm h]
  | cons c m ih =>
    obtain ⟨a, b⟩ := c
    unfold Memory.write
    split
    · split <;> simp [Memory.read, Ne.symm h]
    · split
      · rename_i hax
        split <;> simp [Memory.read, hax, Ne.symm h]
      · simp [Memory.read, ih]

theorem Memory.read_write_same {m : Memory} (hm : Memory.wf m = true) (x : Nat) (v : Byte) :
    Memory.read (Memory.write m x v) x = v := by
  induction m with
  | nil => by_cases hv : v = Memory.unwritten <;> simp [Memory.write, Memory.read, hv]
  | cons c m ih =>
    obtain ⟨a, b⟩ := c
    obtain ⟨-, ha, hm⟩ := Memory.wf_cons.1 hm
    unfold Memory.write
    split
    · rename_i hxa
      split
      · rename_i hv
        have hax : a ≠ x := by omega
        simp only [Memory.read, hax, if_false, hv]
        exact Memory.read_above ha (by omega)
      · simp [Memory.read]
    · split
      · rename_i hax
        split
        · rename_i hv
          subst hax
          rw [hv]
          exact Memory.read_above ha le_rfl
        · simp [Memory.read]
      · rename_i hax
        simp [Memory.read, hax, ih hm]

theorem Memory.read_write {m : Memory} (hm : Memory.wf m = true) (x y : Nat) (v : Byte) :
    Memory.read (Memory.write m x v) y = if y = x then v else Memory.read m y := by
  split
  · rename_i h; rw [h, Memory.read_write_same hm]
  · rename_i h; exact Memory.read_write_ne m v h

theorem Memory.above_write {m : Memory} {x y : Nat} {v : Byte} (h : Memory.above y m) (hx : y < x) :
    Memory.above y (Memory.write m x v) := by
  induction m with
  | nil =>
    unfold Memory.write
    split <;> simp [Memory.above, hx]
  | cons c m ih =>
    obtain ⟨a, b⟩ := c
    have h' : y < a ∧ Memory.above y m := by simpa [Memory.above] using h
    unfold Memory.write
    split
    · split
      · exact h
      · simpa [Memory.above, hx] using h'
    · split
      · split
        · exact h'.2
        · simpa [Memory.above, hx] using h'.2
      · have := ih h'.2
        simp only [Memory.above, List.mem_cons, forall_eq_or_imp]
        exact ⟨h'.1, this⟩

theorem Memory.write_wf {m : Memory} (hm : Memory.wf m = true) (x : Nat) (v : Byte) :
    Memory.wf (Memory.write m x v) = true := by
  induction m with
  | nil =>
    unfold Memory.write
    split
    · rfl
    · rename_i hv; simp [Memory.wf, hv]
  | cons c m ih =>
    obtain ⟨a, b⟩ := c
    obtain ⟨hb, ha, hm'⟩ := Memory.wf_cons.1 hm
    unfold Memory.write
    split
    · rename_i hxa
      split
      · exact hm
      · rename_i hv
        refine Memory.wf_cons.2 ⟨hv, ?_, hm⟩
        simp only [Memory.above, List.mem_cons, forall_eq_or_imp]
        exact ⟨hxa, fun c hc => hxa.trans (ha c hc)⟩
    · rename_i hxa
      split
      · rename_i hax
        split
        · exact hm'
        · rename_i hv
          exact Memory.wf_cons.2 ⟨hv, hax ▸ ha, hm'⟩
      · rename_i hax
        exact Memory.wf_cons.2 ⟨hb, Memory.above_write ha (by omega), ih hm'⟩

theorem Memory.write_below {m : Memory} {bound x : Nat} {v : Byte} (hm : Memory.below bound m = true)
    (hx : x < bound) : Memory.below bound (Memory.write m x v) = true := by
  induction m with
  | nil => unfold Memory.write; split <;> simp [Memory.below, hx]
  | cons c m ih =>
    obtain ⟨a, b⟩ := c
    have h : a < bound ∧ Memory.below bound m = true := by simpa [Memory.below] using hm
    have h2 : ∀ a b, (a, b) ∈ m → a < bound := by simpa [Memory.below] using h.2
    unfold Memory.write
    split
    · split
      · exact hm
      · simpa [Memory.below, hx, h.1] using h2
    · split
      · split
        · exact h.2
        · simpa [Memory.below, hx] using h2
      · have := ih h.2
        simp only [Memory.below, List.all_cons, Bool.and_eq_true, decide_eq_true_eq] at this ⊢
        exact ⟨h.1, this⟩

theorem Memory.writeAll_append (m : Memory) (xs ys : List Host.Cell) :
    m.writeAll (xs ++ ys) = (m.writeAll xs).writeAll ys := by
  simp [Memory.writeAll, List.foldl_append]

@[simp] theorem Memory.writeAll_nil (m : Memory) : m.writeAll [] = m := rfl

theorem Memory.writeAll_cons (m : Memory) (c : Host.Cell) (cs : List Host.Cell) :
    m.writeAll (c :: cs) = (m.write c.1 c.2).writeAll cs := rfl

theorem Memory.writeAll_wf {m : Memory} (hm : Memory.wf m = true) (cs : List Host.Cell) :
    Memory.wf (m.writeAll cs) = true := by
  induction cs generalizing m with
  | nil => exact hm
  | cons c cs ih => exact ih (Memory.write_wf hm c.1 c.2)

theorem Memory.writeAll_below {m : Memory} {bound : Nat} (hm : Memory.below bound m = true)
    {cs : List Host.Cell} (h : ∀ c ∈ cs, c.1 < bound) : Memory.below bound (m.writeAll cs) = true := by
  induction cs generalizing m with
  | nil => exact hm
  | cons c cs ih =>
    exact ih (Memory.write_below hm (h c (by simp))) fun d hd => h d (by simp [hd])

/-- A byte no cell of the list is at reads as before. -/
theorem Memory.read_writeAll_of_notMem (m : Memory) {cs : List Host.Cell} {x : Nat}
    (h : x ∉ cs.map Prod.fst) : Memory.read (m.writeAll cs) x = Memory.read m x := by
  induction cs generalizing m with
  | nil => rfl
  | cons c cs ih =>
    have h' : x ≠ c.1 ∧ x ∉ cs.map Prod.fst := by simpa using h
    rw [Memory.writeAll_cons, ih _ h'.2, Memory.read_write_ne _ _ h'.1]

theorem State.memWrite_wf {s : State} (h : s.mem.wf = true) (addr : Nat) (v : Bytes) :
    (s.memWrite addr v).mem.wf = true := Memory.writeAll_wf h _

theorem State.memWrite_below {s : State} (h : s.mem.below (2 ^ s.cfg.addrBits) = true) (addr : Nat)
    (v : Bytes) : (s.memWrite addr v).mem.below (2 ^ s.cfg.addrBits) = true := by
  refine Memory.writeAll_below h fun c hc => ?_
  obtain ⟨a, b⟩ := c
  exact s.byteAddrs_lt addr v.length a (List.of_mem_zip hc).1

/-- A byte outside the stored buffer reads as before (R53). -/
theorem State.memWrite_read_of_notMem (s : State) {addr x : Nat} {v : Bytes}
    (h : x ∉ s.byteAddrs addr v.length) : (s.memWrite addr v).mem.read x = s.mem.read x := by
  refine Memory.read_writeAll_of_notMem _ ?_
  rwa [List.map_fst_zip (by simp)]

theorem reset_mem_wf : State.reset.mem.wf = true := rfl

end Sys2Proof.Machine
end

