-- ==== Sys2Proof/Laws/Ops.lean ====
section
/-! SUPPORT. Each shared check, once: what holds of every way it can end holds of the whole. The lemmas
`*_elim` prove a property of a meaning check by check; the lemmas `*_pass` and `*_fail` run one. -/

namespace Sys2Proof.Machine

section
variable {P : Result → Prop} {s : State}

theorem requireAddrs_elim {as : List Word} {k : Result} (hf : P (fail .invalidArgument s))
    (hk : as.all s.addrOk = true → P k) : P (requireAddrs s as k) := by
  unfold requireAddrs
  split
  · exact hk ‹_›
  · exact hf

theorem requireArg_elim {p : Bool} {k : Result} (hf : P (fail .invalidArgument s))
    (hk : p = true → P k) : P (requireArg s p k) := by
  unfold requireArg
  split
  · exact hk ‹_›
  · exact hf

theorem withAlg_elim {alg : Byte} {k : HashAlg → Result} (hf : P (fail .unsupportedAlgorithm s))
    (hk : ∀ d, lookupAlg alg = some d → P (k d)) : P (withAlg s alg k) := by
  unfold withAlg
  split
  · exact hk _ ‹_›
  · exact hf

theorem withHash_elim {h : Byte} {k : HashCtx → Result} (hf : P (fail .invalidArgument s))
    (hk : ∀ c, s.slotAt h = some (.hash c) → P (k c)) : P (withHash s h k) := by
  unfold withHash
  split
  · exact hk _ ‹_›
  · exact hf

theorem withHmac_elim {h : Byte} {k : HmacCtx → Result} (hf : P (fail .invalidArgument s))
    (hk : ∀ c, s.slotAt h = some (.hmac c) → P (k c)) : P (withHmac s h k) := by
  unfold withHmac
  split
  · exact hk _ ‹_›
  · exact hf

theorem withGcm_elim {h : Byte} {k : GcmCtx → Result} (hf : P (fail .invalidArgument s))
    (hk : ∀ g, s.slotAt h = some (.gcm g) → P (k g)) : P (withGcm s h k) := by
  unfold withGcm
  split
  · exact hk _ ‹_›
  · exact hf

theorem withSlot_elim {h : Byte} {k : Slot → Result} (hf : P (fail .invalidArgument s))
    (hk : ∀ x, s.slotAt h = some x → x.isFree = false → P (k x)) : P (withSlot s h k) := by
  unfold withSlot
  split
  · split
    · exact hf
    · rename_i hx
      exact hk _ ‹_› (by simpa using hx)
  · exact hf

theorem withAlloc_elim {size : Nat} {k : Nat → State → Result} (hf : P (fail .outOfMemory s))
    (hk : ∀ h, s.freeSlot? = some h → size ≤ s.poolFree.toNat →
      P (k h { s with poolFree := s.poolFree - BitVec.ofNat 16 size })) : P (withAlloc s size k) := by
  unfold withAlloc
  split
  · exact hf
  · split
    · exact hf
    · exact hk _ ‹_› (by omega)

end

section
variable {s : State}

theorem requireAddrs_pass {as : List Word} {k : Result} (h : as.all s.addrOk = true) :
    requireAddrs s as k = k := by simp [requireAddrs, h]

theorem requireAddrs_fail {as : List Word} {k : Result} (h : as.all s.addrOk = false) :
    requireAddrs s as k = fail .invalidArgument s := by simp [requireAddrs, h]

theorem withAlg_pass {alg : Byte} {d : HashAlg} {k : HashAlg → Result} (h : lookupAlg alg = some d) :
    withAlg s alg k = k d := by simp [withAlg, h]

theorem withHash_pass {h : Byte} {c : HashCtx} {k : HashCtx → Result}
    (hc : s.slotAt h = some (.hash c)) : withHash s h k = k c := by simp [withHash, hc]

theorem withHmac_pass {h : Byte} {c : HmacCtx} {k : HmacCtx → Result}
    (hc : s.slotAt h = some (.hmac c)) : withHmac s h k = k c := by simp [withHmac, hc]

theorem withGcm_pass {h : Byte} {g : GcmCtx} {k : GcmCtx → Result}
    (hg : s.slotAt h = some (.gcm g)) : withGcm s h k = k g := by simp [withGcm, hg]

theorem withAlloc_pass {size h : Nat} {k : Nat → State → Result} (hh : s.freeSlot? = some h)
    (hs : size ≤ s.poolFree.toNat) :
    withAlloc s size k = k h { s with poolFree := s.poolFree - BitVec.ofNat 16 size } := by
  have : ¬ s.poolFree.toNat < size := by omega
  simp [withAlloc, hh, this]

end

/-! ## The algorithm table has one row -/

theorem lookupAlg_eq (alg : Byte) : lookupAlg alg = if alg = 0 then some sha256 else none := by
  unfold lookupAlg hashTable
  by_cases h : alg = 0
  · simp [h, sha256]
  · have : (sha256.id == alg) = false := by
      simp only [sha256, beq_eq_false_iff_ne, ne_eq]
      exact fun h' => h h'.symm
    rw [if_neg h, List.find?_cons, this, List.find?_nil]

theorem lookupAlg_some {alg : Byte} {d : HashAlg} (h : lookupAlg alg = some d) :
    alg = 0 ∧ d = sha256 := by
  rw [lookupAlg_eq] at h
  split at h
  · exact ⟨‹_›, by simpa using h.symm⟩
  · cases h

/-! ## The free slot -/

theorem freeSlot?_lt {s : State} {h : Nat} (hh : s.freeSlot? = some h) : h < s.ctx.length := by
  rw [State.freeSlot?, List.findIdx?_eq_some_iff_getElem] at hh
  exact hh.1

/-- The allocated slot is FREE and every lower one is not (R100). -/
theorem freeSlot?_spec {s : State} {h : Nat} (hh : s.freeSlot? = some h) :
    s.ctx[h]? = some .free ∧ ∀ j < h, s.ctx[j]? ≠ some .free := by
  rw [State.freeSlot?, List.findIdx?_eq_some_iff_getElem] at hh
  obtain ⟨hl, hf, hj⟩ := hh
  have free_iff : ∀ x : Slot, x.isFree = true ↔ x = .free := by
    intro x; cases x <;> simp [Slot.isFree]
  refine ⟨?_, fun j hjh hc => ?_⟩
  · rw [List.getElem?_eq_getElem hl, (free_iff _).1 hf]
  · have hjl : j < s.ctx.length := hjh.trans hl
    rw [List.getElem?_eq_getElem hjl, Option.some.injEq] at hc
    exact hj j hjh ((free_iff _).2 hc)

end Sys2Proof.Machine
end

