-- ==== Sys2Proof/Laws/Gcm.lean ====
section
/-! SUPPORT. The AES-GCM context: which fields each byte-level operation leaves, and that a context stays
well formed. -/

namespace Sys2Proof.Machine

@[simp] theorem zeroPad_length (n : Nat) (s : Bytes) : (zeroPad n s).length = max n s.length := by
  simp [zeroPad]; omega

/-- The first twelve bytes of a counter block never change (R212). -/
@[simp] theorem inc32_high (cb : Block) : (inc32 cb).extractLsb' 32 96 = cb.extractLsb' 32 96 := by
  unfold inc32
  ext i hi
  simp only [BitVec.getElem_extractLsb']
  rw [BitVec.getLsbD_append]
  have : ¬ (32 + i < 32) := by omega
  have h2 : 32 + i - 32 = i := by omega
  simp [this, h2, hi]

theorem toNat_add_one64 (x : BitVec 64) : (x + 1).toNat = (x.toNat + 1) % 2 ^ 64 := by
  simp [BitVec.toNat_add]

/-- A step of the AAD stream (R215) keeps a context in phase AAD well formed. -/
theorem gcmAadByte_wf {g : GcmCtx} (hg : g.wf) (hp : g.phase = .aad) (b : Byte) :
    (gcmAadByte g b).wf ∧ (gcmAadByte g b).phase = .aad := by
  have hpend : g.gbuf.length = g.aadLen.toNat % 16 := by simpa [GcmCtx.fill, hp] using hg.pending
  unfold gcmAadByte
  dsimp only
  have hn := toNat_add_one64 g.aadLen
  split
  · rename_i h0
    refine ⟨⟨hg.keyLen, hg.rounds, hg.schedule, hg.subkey, hg.counter, hg.phase, ?_, hg.keystream,
      hg.keystreamValue, hg.noCipherYet, hg.tagLen⟩, hp⟩
    simp only [GcmCtx.fill, ghashBlock, hp, List.length_nil]
    exact h0.symm
  · rename_i h0
    refine ⟨⟨hg.keyLen, hg.rounds, hg.schedule, hg.subkey, hg.counter, hg.phase, ?_, hg.keystream,
      hg.keystreamValue, hg.noCipherYet, hg.tagLen⟩, hp⟩
    simp only [GcmCtx.fill, hp, List.length_append, List.length_singleton]
    omega

theorem gcmAad_wf {g : GcmCtx} (hg : g.wf) (hp : g.phase = .aad) (s : Bytes) :
    (s.foldl gcmAadByte g).wf ∧ (s.foldl gcmAadByte g).phase = .aad := by
  induction s generalizing g with
  | nil => exact ⟨hg, hp⟩
  | cons b s ih => exact ih (gcmAadByte_wf hg hp b).1 (gcmAadByte_wf hg hp b).2

@[simp] theorem ghashFlush_gbuf (g : GcmCtx) (n : Nat) : (ghashFlush g n).gbuf = [] := rfl

/-- A flush changes the accumulator and the pending bytes, nothing else (R214). -/
theorem ghashFlush_fields (g : GcmCtx) (n : Nat) :
    ∃ y, ghashFlush g n = { g with y := y, gbuf := [] } := by
  unfold ghashFlush ghashBlock
  dsimp only
  split
  · exact ⟨_, rfl⟩
  · exact ⟨g.y, rfl⟩

/-- Entering CIPHER keeps a live context well formed, in phase CIPHER (R232, R233). -/
theorem gcmEnterCipher_wf {g : GcmCtx} (hg : g.wf) (hp : g.phase ≠ .done) :
    (gcmEnterCipher g).wf ∧ (gcmEnterCipher g).phase = .cipher := by
  unfold gcmEnterCipher
  split
  · rename_i ha
    obtain ⟨y, hy⟩ := ghashFlush_fields g g.aadLen.toNat
    rw [hy]
    refine ⟨⟨hg.keyLen, hg.rounds, hg.schedule, hg.subkey, hg.counter, by simp, ?_, hg.keystream,
      hg.keystreamValue, by simp, hg.tagLen⟩, rfl⟩
    simp [GcmCtx.fill, (hg.noCipherYet ha).1]
  · rename_i ha
    have : g.phase = .cipher := by
      have := hg.phase
      cases h : g.phase <;> simp_all
    exact ⟨hg, this⟩

/-- The keystream block in use is `AES_encrypt(CB)` after it was fetched, and only `CB` and `ks` may have
changed (R216). -/
theorem gcmKeystream_spec {g : GcmCtx} (hg : g.wf) :
    ∃ cb, gcmKeystream g = (aesEncrypt g.rk g.nr.toNat cb,
        { g with cb := cb, ks := some (aesEncrypt g.rk g.nr.toNat cb) }) ∧
      cb = if g.ctLen.toNat % 16 = 0 then inc32 g.cb else g.cb := by
  unfold gcmKeystream
  cases hk : g.ks with
  | none =>
    have h0 : g.ctLen.toNat % 16 = 0 := by
      by_contra h; have := hg.keystream.2 h; simp [hk] at this
    exact ⟨inc32 g.cb, rfl, by simp [h0]⟩
  | some k =>
    have h0 : ¬ g.ctLen.toNat % 16 = 0 := hg.keystream.1 (by simp [hk])
    have hkv := hg.keystreamValue k hk
    refine ⟨g.cb, ?_, by simp [h0]⟩
    obtain ⟨keyLen, nr, rk, h, j0, cb, y, gbuf, ks, aadLen, ctLen, phase, tagLen⟩ := g
    cases hk
    simp only at hkv ⊢
    rw [← hkv]

/-- One cipher byte keeps a context in phase CIPHER well formed (R216). -/
theorem gcmCryptByte_wf {g : GcmCtx} (hg : g.wf) (hp : g.phase = .cipher) (b : Byte) (enc : Bool) :
    (gcmCryptByte g b enc).2.wf ∧ (gcmCryptByte g b enc).2.phase = .cipher := by
  obtain ⟨cb, hks, hcb⟩ := gcmKeystream_spec hg
  have hpend : g.gbuf.length = g.ctLen.toNat % 16 := by simpa [GcmCtx.fill, hp] using hg.pending
  have hn := toNat_add_one64 g.ctLen
  have hhigh : cb.extractLsb' 32 96 = g.j0.extractLsb' 32 96 := by
    rw [hcb]; split
    · rw [inc32_high]; exact hg.counter
    · exact hg.counter
  unfold gcmCryptByte
  rw [hks]
  dsimp only
  split
  · rename_i h0
    refine ⟨⟨hg.keyLen, hg.rounds, hg.schedule, hg.subkey, hhigh, hg.phase, ?_, ?_, ?_, ?_,
      hg.tagLen⟩, hp⟩
    · simp only [GcmCtx.fill, ghashBlock, hp, List.length_nil]
      exact h0.symm
    · simp only [Option.isSome_none, Bool.false_eq_true, false_iff, not_not]
      exact h0
    · intro k hk; cases hk
    · intro h; simp only [ghashBlock] at h; simp [hp] at h
  · rename_i h0
    refine ⟨⟨hg.keyLen, hg.rounds, hg.schedule, hg.subkey, hhigh, hg.phase, ?_, ?_, ?_, ?_,
      hg.tagLen⟩, hp⟩
    · simp only [GcmCtx.fill, hp, List.length_append, List.length_singleton]
      omega
    · simp only [Option.isSome_some, true_iff]
      exact h0
    · intro k hk; exact (Option.some.inj hk).symm
    · intro h; simp [hp] at h

/-- The tag changes the accumulator, the pending bytes and the phase, nothing else (R217). -/
theorem gcmTag_fields (g : GcmCtx) :
    ∃ y, (gcmTag g).2 = { g with y := y, gbuf := [], phase := .done } := by
  unfold gcmTag ghashBlock
  dsimp only
  split
  · obtain ⟨y, hy⟩ := ghashFlush_fields g g.aadLen.toNat
    rw [hy]
    exact ⟨_, rfl⟩
  · obtain ⟨y, hy⟩ := ghashFlush_fields g g.ctLen.toNat
    rw [hy]
    exact ⟨_, rfl⟩

/-- The tag leaves a well-formed context, DONE (R217). -/
theorem gcmTag_wf {g : GcmCtx} (hg : g.wf) : (gcmTag g).2.wf ∧ (gcmTag g).2.phase = .done := by
  obtain ⟨y, hy⟩ := gcmTag_fields g
  rw [hy]
  exact ⟨⟨hg.keyLen, hg.rounds, hg.schedule, hg.subkey, hg.counter, by simp, by simp [GcmCtx.fill],
    hg.keystream, hg.keystreamValue, by simp, hg.tagLen⟩, rfl⟩

/-- The tag has `tag_len` bytes (R217). -/
theorem gcmTag_length {g : GcmCtx} (hg : g.wf) : (gcmTag g).1.length = g.tagLen.toNat := by
  have hle : ∀ t ∈ tagLenLegal, t.toNat ≤ 16 := by decide
  have := hle _ hg.tagLen
  have hl : ∀ n, (ghashFlush g n).tagLen = g.tagLen := by
    intro n; obtain ⟨y, hy⟩ := ghashFlush_fields g n; rw [hy]
  unfold gcmTag
  dsimp only [ghashBlock]
  split <;> simp [blockBytes, hl] <;> omega

/-- The round-key schedule has `4*(nr+1)` words (R192). -/
theorem keyExpand_length {key : Bytes} (h : key.length ∈ aesKeyLens) :
    (keyExpand key).length = 4 * (roundsOf key.length + 1) := by
  have grow : ∀ (nk n : Nat) (rk : List Word),
      ((List.range n).foldl (fun rk _ => keyStep nk rk) rk).length = rk.length + n := by
    intro nk n
    induction n with
    | zero => simp
    | succ n ih =>
      intro rk
      rw [List.range_succ, List.foldl_append]
      simp only [List.foldl_cons, List.foldl_nil]
      rw [keyStep, List.length_append, ih]
      simp [Nat.add_assoc]
  unfold keyExpand
  rw [grow]
  simp only [beWords, List.length_map, List.length_range, roundsOf]
  have : key.length = 16 ∨ key.length = 24 ∨ key.length = 32 := by simpa [aesKeyLens] using h
  omega

/-- A context GCM_INIT builds is well formed, in phase AAD (R230). -/
theorem gcmInitCtx_wf {t : Byte} {key iv : Bytes} (hk : key.length ∈ aesKeyLens)
    (ht : t ∈ tagLenLegal) : (gcmInitCtx t key iv).wf := by
  have hl : key.length = 16 ∨ key.length = 24 ∨ key.length = 32 := by simpa [aesKeyLens] using hk
  have hnr : (BitVec.ofNat 4 (roundsOf key.length)).toNat = roundsOf key.length := by
    rw [BitVec.toNat_ofNat, roundsOf]; omega
  have hkl : (BitVec.ofNat 8 key.length).toNat = key.length := by
    rw [BitVec.toNat_ofNat]; omega
  refine ⟨?_, ?_, ?_, ?_, rfl, by simp [gcmInitCtx], rfl, by simp [gcmInitCtx], by simp [gcmInitCtx],
    fun _ => ⟨rfl, rfl⟩, ht⟩
  · simpa [gcmInitCtx, hkl] using hk
  · simp only [gcmInitCtx, hkl, hnr]
  · simp only [gcmInitCtx, hnr]; exact keyExpand_length hk
  · simp only [gcmInitCtx, hnr]

end Sys2Proof.Machine
end

