-- ==== Sys2Proof/Laws/Hash.lean ====
section
/-! SUPPORT. The hash engine: streaming is a fold, identity fields stay, a context stays well formed. -/

namespace Sys2Proof.Machine

/-! ## Updates are folds (R125, R127) -/

@[simp] theorem hashUpdate_nil (d : HashAlg) (c : HashLive) : hashUpdate d c [] = c := rfl

theorem hashUpdate_cons (d : HashAlg) (c : HashLive) (b : Byte) (s : Bytes) :
    hashUpdate d c (b :: s) = hashUpdate d (hashAbsorb d c b) s := rfl

theorem hashUpdate_append (d : HashAlg) (c : HashLive) (a b : Bytes) :
    hashUpdate d c (a ++ b) = hashUpdate d (hashUpdate d c a) b := List.foldl_append

/-! ## Identity fields -/

@[simp] theorem hashAbsorb_alg (d : HashAlg) (c : HashLive) (b : Byte) :
    (hashAbsorb d c b).alg = c.alg := by unfold hashAbsorb; dsimp only; split <;> rfl

@[simp] theorem hashAbsorb_digestLen (d : HashAlg) (c : HashLive) (b : Byte) :
    (hashAbsorb d c b).digestLen = c.digestLen := by unfold hashAbsorb; dsimp only; split <;> rfl

@[simp] theorem hashAbsorb_blockSize (d : HashAlg) (c : HashLive) (b : Byte) :
    (hashAbsorb d c b).blockSize = c.blockSize := by unfold hashAbsorb; dsimp only; split <;> rfl

@[simp] theorem hashAbsorb_count (d : HashAlg) (c : HashLive) (b : Byte) :
    (hashAbsorb d c b).count = c.count + 1 := by unfold hashAbsorb; dsimp only; split <;> rfl

/-- What a sequence of absorbed bytes leaves in the identity fields and the counter. -/
theorem hashUpdate_fields (d : HashAlg) (c : HashLive) (s : Bytes) :
    (hashUpdate d c s).alg = c.alg ∧ (hashUpdate d c s).digestLen = c.digestLen ∧
      (hashUpdate d c s).blockSize = c.blockSize ∧
      (hashUpdate d c s).count = c.count + BitVec.ofNat 64 s.length := by
  induction s generalizing c with
  | nil => simp
  | cons b s ih =>
    obtain ⟨h1, h2, h3, h4⟩ := ih (hashAbsorb d c b)
    rw [hashUpdate_cons]
    refine ⟨by simp [h1], by simp [h2], by simp [h3], ?_⟩
    rw [h4, hashAbsorb_count]
    apply BitVec.eq_of_toNat_eq
    have h1 : (1 : BitVec 64).toNat = 1 := rfl
    simp only [BitVec.toNat_add, BitVec.toNat_ofNat, List.length_cons, h1]
    omega

/-! ## SHA-256 keeps eight chaining words -/

@[simp] theorem sha256Compress_length (st : List Word) (b : Bytes) :
    (sha256Compress st b).length = 8 := by
  simp [sha256Compress, shaWordsOf]

theorem hashAbsorb_wf {c : HashLive} {d : HashAlg} (hd : lookupAlg c.alg = some d) (hc : c.wf)
    (b : Byte) : (hashAbsorb d c b).wf := by
  obtain ⟨d', hd', h1, h2, h3, h4⟩ := hc
  obtain rfl : d = d' := Option.some.inj (hd.symm.trans hd')
  obtain ⟨h0, rfl⟩ := lookupAlg_some hd
  refine ⟨sha256, by simpa using hd, by simpa using h1, by simpa using h2, ?_, ?_⟩
  · unfold hashAbsorb
    dsimp only
    split
    · exact sha256Compress_length _ _
    · exact h3
  · have hbs : c.blockSize.toNat = 64 := h2
    rw [hashAbsorb_count]
    unfold hashAbsorb
    dsimp only
    have h4' : c.buf.length = c.count.toNat % 64 := h4
    have : (c.count + 1).toNat = (c.count.toNat + 1) % 2 ^ 64 := by simp [BitVec.toNat_add]
    rw [this]
    have hlt := c.count.isLt
    rw [show sha256.blockBytes = 64 from rfl, hbs]
    split
    · simp only [List.length_nil]; omega
    · simp only [List.length_append, List.length_singleton]; omega

theorem hashUpdate_wf {c : HashLive} {d : HashAlg} (hd : lookupAlg c.alg = some d) (hc : c.wf)
    (s : Bytes) : (hashUpdate d c s).wf := by
  induction s generalizing c with
  | nil => exact hc
  | cons b s ih => exact ih (by simpa using hd) (hashAbsorb_wf hd hc b)

theorem hashInit_wf : (hashInit sha256).wf := ⟨sha256, rfl, rfl, rfl, rfl, rfl⟩

theorem hmacInner_wf {st : List Word} (h : st.length = 8) : (hmacInner sha256 st).wf :=
  ⟨sha256, rfl, rfl, rfl, h, by simp [hmacInner, hashInit, sha256]⟩

theorem hmacTemplate_lengths (key : Bytes) :
    (hmacTemplate sha256 key).istate.length = 8 ∧ (hmacTemplate sha256 key).ostate.length = 8 :=
  ⟨sha256Compress_length _ _, sha256Compress_length _ _⟩

end Sys2Proof.Machine
end

