-- ==== Sys2Proof/Laws/PerInstr.lean ====
section
/-! SUPPORT. Per-instruction facts: the encoding of a command starts with its own opcode (30_encoding
R73). -/

namespace Sys2Proof.Laws.OpcodeOfEncoding

/-- The `OPC` field of the encoding is the command's opcode (R71, R73). -/
def Statement (i : Instr) : Prop := (encode i).opc = i.opcode

theorem hashCreate (alg : Byte) : Statement (.hashCreate alg) := header_opc ..
theorem hashUpdate (h : Byte) (data len : Word) : Statement (.hashUpdate h data len) := header_opc ..
theorem hashDigest (h : Byte) (out : Word) : Statement (.hashDigest h out) := header_opc ..
theorem ctxRelease (h : Byte) : Statement (.ctxRelease h) := header_opc ..
theorem hmacInit (alg : Byte) (key keyLen : Word) : Statement (.hmacInit alg key keyLen) :=
  header_opc ..
theorem hmacUpdate (h : Byte) (data len : Word) : Statement (.hmacUpdate h data len) := header_opc ..
theorem hmacFinal (h : Byte) (out : Word) : Statement (.hmacFinal h out) := header_opc ..
theorem pbkdf2Derive (alg : Byte) (pw pwLen salt saltLen out outLen iter : Word) :
    Statement (.pbkdf2Derive alg pw pwLen salt saltLen out outLen iter) := header_opc ..
theorem gcmInit (cipher tagLen : Byte) (key keyLen iv ivLen : Word) :
    Statement (.gcmInit cipher tagLen key keyLen iv ivLen) := header_opc ..
theorem gcmAad (h : Byte) (data len : Word) : Statement (.gcmAad h data len) := header_opc ..
theorem gcmEncrypt (h : Byte) (input len out : Word) : Statement (.gcmEncrypt h input len out) :=
  header_opc ..
theorem gcmDecrypt (h : Byte) (input len out : Word) : Statement (.gcmDecrypt h input len out) :=
  header_opc ..
theorem gcmDigest (h : Byte) (tag : Word) : Statement (.gcmDigest h tag) := header_opc ..
theorem gcmVerify (h : Byte) (tag : Word) : Statement (.gcmVerify h tag) := header_opc ..
theorem illegal (opc : Byte) : Statement (.illegal opc) := header_opc ..

end Sys2Proof.Laws.OpcodeOfEncoding
end

