-- ==== Sys2Proof/Laws/Stream.lean ====
section
/-! SUPPORT. The streaming engines in closed form: what a fold over bytes leaves, said in the one-shot
functions of Reference.lean. Later proofs cite these and never unfold the engines. -/

namespace Sys2Proof.Machine

open Sys2Proof.Spec

/-! ## Buffers -/

theorem State.byteAddrs_eq (s : State) (addr n : Nat) : s.byteAddrs addr n = bufferAddrs s.cfg addr n := rfl
theorem State.bytesAt_eq (s : State) (addr n : Nat) : s.bytesAt addr n = buffer s addr n := rfl
theorem State.afterRead_eq (s : State) (addr n : Nat) :
    s.afterRead addr n = { s with log := s.log ++ reads s addr n } := rfl
theorem State.memWrite_eq (s : State) (addr : Nat) (v : Bytes) :
    s.memWrite addr v = { s with mem := stored s addr v, log := s.log ++ writes s addr v.length } := rfl

/-! ## Blocks -/

theorem chunks_short {n : Nat} {s : Bytes} (h : s.length < n) : chunks n s = [] := by
  simp [chunks, Nat.div_eq_of_lt h]

theorem remainder_short {n : Nat} {s : Bytes} (h : s.length < n) : remainder n s = s := by
  simp [remainder, Nat.div_eq_of_lt h]

theorem chunks_block {n : Nat} (hn : 0 < n) {b : Bytes} (hb : b.length = n) (s : Bytes) :
    chunks n (b ++ s) = b :: chunks n s := by
  have hd : (b ++ s).length / n = s.length / n + 1 := by
    rw [List.length_append, hb, Nat.add_comm, Nat.add_div_right _ hn]
  rw [chunks, hd, List.range_succ_eq_map, List.map_cons, List.map_map]
  congr 1
  · simp [hb]
  · refine List.map_congr_left fun i _ => ?_
    have : n * (i + 1) = b.length + n * i := by rw [hb]; ring
    simp [this, Nat.succ_eq_add_one, ← List.drop_drop]

theorem remainder_block {n : Nat} (hn : 0 < n) {b : Bytes} (hb : b.length = n) (s : Bytes) :
    remainder n (b ++ s) = remainder n s := by
  have hd : (b ++ s).length / n = s.length / n + 1 := by
    rw [List.length_append, hb, Nat.add_comm, Nat.add_div_right _ hn]
  have : n * (s.length / n + 1) = b.length + n * (s.length / n) := by rw [hb]; ring
  rw [remainder, hd, this, ← List.drop_drop]
  simp [remainder]

theorem remainder_length (n : Nat) (s : Bytes) : (remainder n s).length = s.length % n := by
  have := Nat.div_add_mod s.length n
  rw [remainder, List.length_drop]
  omega

/-- Cutting a sequence into blocks can stop anywhere and go on from what is left. -/
theorem chunks_append {n : Nat} (hn : 0 < n) (s t : Bytes) :
    chunks n (s ++ t) = chunks n s ++ chunks n (remainder n s ++ t) ∧
      remainder n (s ++ t) = remainder n (remainder n s ++ t) := by
  induction hl : s.length using Nat.strong_induction_on generalizing s with
  | _ l ih =>
    by_cases h : s.length < n
    · simp [chunks_short h, remainder_short h]
    · have hb : (s.take n).length = n := by rw [List.length_take]; omega
      have hd : (s.drop n).length < l := by rw [List.length_drop]; omega
      obtain ⟨h1, h2⟩ := ih _ hd (s.drop n) rfl
      have hs : s = s.take n ++ s.drop n := (List.take_append_drop n s).symm
      rw [hs, List.append_assoc, chunks_block hn hb, chunks_block hn hb, remainder_block hn hb,
        remainder_block hn hb, h1, h2]
      simp

theorem ghashOf_append (h y : Block) (s t : Bytes) :
    ghashOf h y (s ++ t) = ghashOf h (ghashOf h y s) (remainder 16 s ++ t) := by
  simp only [ghashOf, (chunks_append (by decide : 0 < 16) s t).1, List.map_append, List.foldl_append]

/-! ## The hash engine in closed form (R125, R126) -/

/-- One compression step per completed block, the rest pending, the bytes counted. -/
theorem hashUpdate_eq {c : HashLive} (hb : c.blockSize = 64) (hl : c.buf.length = c.count.toNat % 64)
    (s : Bytes) :
    hashUpdate sha256 c s = { c with
      state := compressAll sha256 c.state (c.buf ++ s)
      buf := remainder 64 (c.buf ++ s)
      count := c.count + BitVec.ofNat 64 s.length } := by
  induction s generalizing c with
  | nil =>
    have : c.buf.length < 64 := by omega
    have hs : c.buf.length < sha256.blockBytes := this
    simp [compressAll, chunks_short hs, remainder_short this]
  | cons b s ih =>
    have h64 : c.blockSize.toNat = 64 := by rw [hb]; rfl
    have hlt := c.count.isLt
    have hn : (c.count + 1).toNat = (c.count.toNat + 1) % 2 ^ 64 := by simp [BitVec.toNat_add]
    have hcount : c.count + 1 + BitVec.ofNat 64 s.length = c.count + BitVec.ofNat 64 (b :: s).length := by
      apply BitVec.eq_of_toNat_eq
      simp only [BitVec.toNat_add, BitVec.toNat_ofNat, List.length_cons, hn]
      omega
    have happ : c.buf ++ b :: s = (c.buf ++ [b]) ++ s := by simp
    rw [hashUpdate_cons]
    by_cases hf : c.count.toNat % 64 = 63
    · have hblk : (c.buf ++ [b]).length = 64 := by simp [hl, hf]
      have ha : hashAbsorb sha256 c b = { c with
          count := c.count + 1, state := sha256.compress c.state (c.buf ++ [b]), buf := [] } := by
        simp [hashAbsorb, h64, hf]
      rw [ha, ih (by exact hb) (by simp only [hn, List.length_nil]; omega), ← hcount, happ,
        remainder_block (by decide) hblk]
      simp only [compressAll, List.nil_append]
      rw [show sha256.blockBytes = 64 from rfl, chunks_block (by decide) hblk]
      rfl
    · have ha : hashAbsorb sha256 c b = { c with count := c.count + 1, buf := c.buf ++ [b] } := by
        simp [hashAbsorb, h64, hf]
      rw [ha, ih (by exact hb) (by simp only [hn, List.length_append, List.length_singleton, hl]; omega), ← hcount, happ]

theorem padZeros_eq {c : HashLive} (hb : c.blockSize = 64) (n : Nat)
    (hn : (64 + 56 - c.count.toNat % 64) % 64 ≤ n) :
    padZeros sha256 n c =
      hashUpdate sha256 c (List.replicate ((64 + 56 - c.count.toNat % 64) % 64) 0) := by
  have h64 : c.blockSize.toNat = 64 := by rw [hb]; rfl
  have h56 : c.blockSize.toNat - sha256.lenBytes = 56 := by rw [h64]; rfl
  induction n generalizing c with
  | zero => 
    have : (64 + 56 - c.count.toNat % 64) % 64 = 0 := by omega
    rw [this]; rfl
  | succ n ih =>
    unfold padZeros
    rw [h56, h64]
    split
    · rename_i h
      rw [h]; rfl
    · rename_i h
      have hlt := c.count.isLt
      have hc : (hashAbsorb sha256 c 0).count.toNat = (c.count.toNat + 1) % 2 ^ 64 := by
        simp [BitVec.toNat_add]
      have : (64 + 56 - c.count.toNat % 64) % 64 =
          (64 + 56 - (hashAbsorb sha256 c 0).count.toNat % 64) % 64 + 1 := by rw [hc]; omega
      rw [ih (by simpa using hb) (by omega) (by simpa using h64) (by simpa using h56), this,
        List.replicate_succ, hashUpdate_cons]

/-- The digest is the padded message's last chaining value, laid out (R126). -/
theorem hashFinish_eq {c : HashLive} (hb : c.blockSize = 64) (hl : c.buf.length = c.count.toNat % 64) :
    hashFinish sha256 c = finishFrom sha256 c.state c.count.toNat c.buf := by
  have hlt := c.count.isLt
  have h1 : (hashAbsorb sha256 c 0x80) = hashUpdate sha256 c [0x80] := rfl
  have hc : (hashAbsorb sha256 c 0x80).count.toNat = (c.count.toNat + 1) % 2 ^ 64 := by
    simp [BitVec.toNat_add]
  have h64 : c.blockSize.toNat = 64 := by rw [hb]; rfl
  have hz : (64 + 56 - (c.count.toNat + 1) % 2 ^ 64 % 64) % 64 = (64 - (c.count.toNat + 1 + 8) % 64) % 64 := by
    omega
  unfold hashFinish
  dsimp only
  rw [hashAbsorb_blockSize, h64, padZeros_eq (by simpa using hb) 64 (by omega), hc, hz, h1,
    ← hashUpdate_append, ← hashUpdate_append, hashUpdate_eq hb hl]
  have : lenField sha256 = beBytes 8 := rfl
  rw [this]
  simp [finishFrom, padding, sha256]

theorem compressAll_length {st : List Word} (h : st.length = 8) (s : Bytes) :
    (compressAll sha256 st s).length = 8 := by
  unfold compressAll
  generalize chunks sha256.blockBytes s = bs
  induction bs generalizing st with
  | nil => exact h
  | cons b bs ih => exact ih (sha256Compress_length st b)

/-- The digest has 32 bytes (R121). -/
theorem finishFrom_length {st : List Word} (h : st.length = 8) (n : Nat) (pending : Bytes) :
    (finishFrom sha256 st n pending).length = 32 := by
  have hl : ∀ l : List Word, (l.flatMap wordBytes).length = 4 * l.length := by
    intro l
    induction l with
    | nil => rfl
    | cons x l ih =>
      rw [List.flatMap_cons, List.length_append, ih]
      simp [wordBytes, beBytes]
      omega
  unfold finishFrom
  rw [List.length_take, show sha256.output = fun st => st.flatMap wordBytes from rfl, hl,
    compressAll_length h]
  rfl

/-! ## GHASH in closed form (R211, R215) -/

theorem ctEqual_iff {a b : Bytes} (h : a.length = b.length) : ctEqual a b = true ↔ a = b := by
  have hz : ∀ (l : Bytes) (x : Byte), l.foldl (· ||| ·) x = 0 ↔ x = 0 ∧ ∀ y ∈ l, y = 0 := by
    intro l
    induction l with
    | nil => simp
    | cons y l ih =>
      intro x
      rw [List.foldl_cons, ih]
      have : x ||| y = 0 ↔ x = 0 ∧ y = 0 := BitVec.or_eq_zero_iff
      rw [this]
      simp [and_assoc]
  unfold ctEqual
  rw [decide_eq_true_iff, hz]
  simp only [true_and, xorBytes]
  induction a generalizing b with
  | nil => cases b with
    | nil => simp
    | cons => simp at h
  | cons x a ih => cases b with
    | nil => simp at h
    | cons y b =>
      simp only [List.zipWith_cons_cons, List.mem_cons, forall_eq_or_imp, List.cons.injEq]
      have hx : x ^^^ y = 0 ↔ x = y := BitVec.xor_eq_zero_iff
      rw [hx]
      exact and_congr_right fun _ => ih (by simpa using h)

theorem gcmAad_eq {g : GcmCtx} (hl : g.gbuf.length = g.aadLen.toNat % 16) (s : Bytes) :
    s.foldl gcmAadByte g = { g with
      y := ghashOf g.h g.y (g.gbuf ++ s)
      gbuf := remainder 16 (g.gbuf ++ s)
      aadLen := g.aadLen + BitVec.ofNat 64 s.length } := by
  induction s generalizing g with
  | nil =>
    have : g.gbuf.length < 16 := by omega
    simp [ghashOf, chunks_short this, remainder_short this]
  | cons b s ih =>
    have hlt := g.aadLen.isLt
    have hn : (g.aadLen + 1).toNat = (g.aadLen.toNat + 1) % 2 ^ 64 := by simp [BitVec.toNat_add]
    have hcount : g.aadLen + 1 + BitVec.ofNat 64 s.length = g.aadLen + BitVec.ofNat 64 (b :: s).length := by
      apply BitVec.eq_of_toNat_eq
      simp only [BitVec.toNat_add, BitVec.toNat_ofNat, List.length_cons, hn]
      omega
    have happ : g.gbuf ++ b :: s = (g.gbuf ++ [b]) ++ s := by simp
    rw [List.foldl_cons]
    by_cases hf : g.aadLen.toNat % 16 = 15
    · have hblk : (g.gbuf ++ [b]).length = 16 := by simp [hl, hf]
      have ha : gcmAadByte g b = { g with
          aadLen := g.aadLen + 1, y := gmul (g.y ^^^ blockOf (g.gbuf ++ [b])) g.h, gbuf := [] } := by
        have : (g.aadLen + 1).toNat % 16 = 0 := by rw [hn]; omega
        simp only [gcmAadByte, this, if_true, ghashBlock, ghashStep]
      rw [ha, ih (by simp only [hn, List.length_nil]; omega), ← hcount, happ,
        remainder_block (by decide) hblk]
      simp only [ghashOf, List.nil_append]
      rw [chunks_block (by decide) hblk]
      rfl
    · have ha : gcmAadByte g b = { g with aadLen := g.aadLen + 1, gbuf := g.gbuf ++ [b] } := by
        have : ¬ (g.aadLen + 1).toNat % 16 = 0 := by rw [hn]; omega
        simp only [gcmAadByte, this, if_false]
      rw [ha, ih (by simp only [hn, List.length_append, List.length_singleton, hl]; omega),
        ← hcount, happ]

/-! ## Counter mode in closed form (R216) -/

theorem counter_add (cb : Block) (a b : Nat) : counter (counter cb a) b = counter cb (a + b) := by
  induction b with
  | zero => rfl
  | succ b ih => rw [counter, ih]; rfl

/-- A context in phase CIPHER as it stands between bytes. -/
structure GcmCtx.Streaming (g : GcmCtx) : Prop where
  phase : g.phase = .cipher
  pending : g.gbuf.length = g.ctLen.toNat % 16
  keystream : g.ks = if g.ctLen.toNat % 16 = 0 then none else some (aesEncrypt g.rk g.nr.toNat g.cb)

theorem GcmCtx.wf.streaming {g : GcmCtx} (hg : g.wf) (hp : g.phase = .cipher) : g.Streaming := by
  refine ⟨hp, by simpa [GcmCtx.fill, hp] using hg.pending, ?_⟩
  cases hk : g.ks with
  | none =>
    have : g.ctLen.toNat % 16 = 0 := by
      by_contra h
      have := hg.keystream.2 h
      simp [hk] at this
    simp [this]
  | some k =>
    have : g.ctLen.toNat % 16 ≠ 0 := hg.keystream.1 (by simp [hk])
    rw [if_neg this, hg.keystreamValue k hk]

theorem GcmCtx.Streaming.entered {g : GcmCtx} (hg : g.Streaming) : Spec.entered g = g := by
  simp [Spec.entered, hg.phase]

theorem toNat_ctLen (g : GcmCtx) (n : Nat) :
    (g.ctLen + BitVec.ofNat 64 n).toNat % 16 = (g.ctLen.toNat % 16 + n) % 16 := by
  have hlt := g.ctLen.isLt
  simp only [BitVec.toNat_add, BitVec.toNat_ofNat]
  omega

theorem GcmCtx.Streaming.after {g : GcmCtx} (hg : g.Streaming) (ct : Bytes) :
    (afterCipher g ct).Streaming := by
  refine ⟨?_, ?_, ?_⟩
  · simp [afterCipher, hg.entered, hg.phase]
  · simp only [afterCipher, hg.entered, toNat_ctLen, remainder_length, List.length_append, hg.pending]
  · simp only [afterCipher, hg.entered, toNat_ctLen]

/-- Taking cipher bytes in two parts is taking them in one. -/
theorem afterCipher_append {g : GcmCtx} (hg : g.Streaming) (a b : Bytes) :
    afterCipher (afterCipher g a) b = afterCipher g (a ++ b) := by
  have hcount : g.ctLen + BitVec.ofNat 64 a.length + BitVec.ofNat 64 b.length =
      g.ctLen + BitVec.ofNat 64 (a ++ b).length := by
    apply BitVec.eq_of_toNat_eq
    simp only [BitVec.toNat_add, BitVec.toNat_ofNat, List.length_append]
    omega
  have hsteps : ((g.ctLen.toNat % 16 + a.length + 15) / 16 - (g.ctLen.toNat % 16 + 15) / 16) +
      (((g.ctLen.toNat % 16 + a.length) % 16 + b.length + 15) / 16 -
        ((g.ctLen.toNat % 16 + a.length) % 16 + 15) / 16) =
      (g.ctLen.toNat % 16 + (a ++ b).length + 15) / 16 - (g.ctLen.toNat % 16 + 15) / 16 := by
    rw [List.length_append]; omega
  have hmod : ((g.ctLen.toNat % 16 + a.length) % 16 + b.length) % 16 =
      (g.ctLen.toNat % 16 + (a ++ b).length) % 16 := by rw [List.length_append]; omega
  have hca := chunks_append (by decide : 0 < 16) (g.gbuf ++ a) b
  have happ : g.gbuf ++ (a ++ b) = (g.gbuf ++ a) ++ b := by simp
  rw [afterCipher, (hg.after a).entered]
  simp only [afterCipher, hg.entered, toNat_ctLen, counter_add, hsteps, hmod, hcount, happ,
    ghashOf_append g.h g.y (g.gbuf ++ a) b, hca.2]

/-- The keystream runs on across calls. -/
theorem nextKeystream_after {g : GcmCtx} (hg : g.Streaming) (a : Bytes) (k : Nat) :
    nextKeystream (afterCipher g a) k = nextKeystream g (a.length + k) := by
  have hq : ∀ p n : Nat, p < 16 →
      ((p + n + 15) / 16 - (p + 15) / 16) + (((p + n) % 16 + k) / 16 + if (p + n) % 16 = 0 then 1 else 0) =
        (p + (n + k)) / 16 + if p = 0 then 1 else 0 := by
    intro p n hp
    split <;> split <;> omega
  have hm : ∀ p n : Nat, ((p + n) % 16 + k) % 16 = (p + (n + k)) % 16 := by omega
  simp only [nextKeystream, afterCipher, hg.entered, toNat_ctLen, counter_add]
  rw [hq _ _ (Nat.mod_lt _ (by decide)), hm]

/-- The first keystream byte is that of the block the machine holds or fetches (R216). -/
theorem gcmKeystream_eq {g : GcmCtx} (hg : g.Streaming) :
    gcmKeystream g = (aesEncrypt g.rk g.nr.toNat (counter g.cb (if g.ctLen.toNat % 16 = 0 then 1 else 0)),
      { g with
        cb := counter g.cb (if g.ctLen.toNat % 16 = 0 then 1 else 0)
        ks := some (aesEncrypt g.rk g.nr.toNat
          (counter g.cb (if g.ctLen.toNat % 16 = 0 then 1 else 0))) }) := by
  have hk := hg.keystream
  unfold gcmKeystream
  split at hk
  · rename_i h; simp [hk, h, counter]
  · rename_i h
    rw [if_neg h, counter]
    simp only [hk]
    rw [← hk]

/-- One cipher byte (R216). -/
theorem gcmCryptByte_eq {g : GcmCtx} (hg : g.Streaming) (b : Byte) (enc : Bool) :
    gcmCryptByte g b enc = (b ^^^ nextKeystream g 0,
      afterCipher g [if enc then b ^^^ nextKeystream g 0 else b]) := by
  have hp : g.ctLen.toNat % 16 < 16 := Nat.mod_lt _ (by decide)
  have hq : (g.ctLen.toNat % 16 + 0) / 16 + (if g.ctLen.toNat % 16 = 0 then 1 else 0) =
      if g.ctLen.toNat % 16 = 0 then 1 else 0 := by split <;> omega
  have hks : nextKeystream g 0 = blockByte (aesEncrypt g.rk g.nr.toNat
      (counter g.cb (if g.ctLen.toNat % 16 = 0 then 1 else 0))) (g.ctLen.toNat % 16) := by
    simp only [nextKeystream, hq]
    congr 1
    omega
  have hstep : (g.ctLen.toNat % 16 + 1 + 15) / 16 - (g.ctLen.toNat % 16 + 15) / 16 =
      if g.ctLen.toNat % 16 = 0 then 1 else 0 := by split <;> omega
  have hlen : (g.ctLen + 1).toNat % 16 = (g.ctLen.toNat % 16 + 1) % 16 := toNat_ctLen g 1
  unfold gcmCryptByte
  simp only [gcmKeystream_eq hg, hks]
  generalize hx : (if enc then _ else b) = x
  refine Prod.ext rfl ?_
  simp only [afterCipher, hg.entered, List.length_singleton, hstep, hlen]
  have hone : BitVec.ofNat 64 1 = (1 : BitVec 64) := rfl
  by_cases hf : (g.ctLen.toNat % 16 + 1) % 16 = 0
  · have hblk : (g.gbuf ++ [x]).length = 16 := by
      rw [List.length_append, hg.pending, List.length_singleton]; omega
    have hc : chunks 16 (g.gbuf ++ [x]) = [g.gbuf ++ [x]] := by
      have := chunks_block (by decide) hblk []
      simpa [chunks_short] using this
    have hr : remainder 16 (g.gbuf ++ [x]) = [] := by
      have := remainder_block (by decide) hblk []
      simpa [remainder_short] using this
    simp [hf, hc, hr, ghashOf, ghashBlock, ghashStep]
  · have hlt : (g.gbuf ++ [x]).length < 16 := by
      rw [List.length_append, hg.pending, List.length_singleton]; omega
    rw [if_neg hf, if_neg hf]
    simp [ghashOf, chunks_short hlt, remainder_short hlt]

/-! ## Flush and tag in closed form (R214, R217) -/

theorem ghashOf_block (h y : Block) {s : Bytes} (hs : s.length = 16) :
    ghashOf h y s = gmul (y ^^^ blockOf s) h := by
  have := chunks_block (by decide) hs []
  simp only [List.append_nil, chunks_short (s := []) (n := 16) (by decide)] at this
  simp [ghashOf, this]

theorem ghashFlush_eq {g : GcmCtx} {n : Nat} (hl : g.gbuf.length = n % 16) :
    ghashFlush g n = { g with y := flushed g, gbuf := [] } := by
  unfold ghashFlush flushed
  dsimp only
  split
  · have hlt : n % 16 < 16 := Nat.mod_lt _ (by decide)
    have ht : g.gbuf.take (n % 16) = g.gbuf := List.take_of_length_le hl.le
    have hz : zeroPad 16 g.gbuf = pad16 g.gbuf := by
      have : (16 - g.gbuf.length % 16) % 16 = 16 - g.gbuf.length := by omega
      rw [zeroPad, pad16, this]
    have h16 : (pad16 g.gbuf).length = 16 := by
      rw [← hz, zeroPad_length]; omega
    rw [ht, hz, ghashOf_block _ _ h16]
    rfl
  · rename_i h
    have : g.gbuf = [] := List.length_eq_zero_iff.1 (by omega)
    simp [this, pad16, ghashOf, chunks_short]

/-- Entering CIPHER flushes the AAD (R232, R233). -/
theorem gcmEnterCipher_eq {g : GcmCtx} (hg : g.wf) : gcmEnterCipher g = entered g := by
  unfold gcmEnterCipher entered
  split
  · rename_i ha
    rw [ghashFlush_eq (by simpa [GcmCtx.fill, ha] using hg.pending)]
  · rfl

/-- The tag of a live context and what computing it leaves (R217). -/
theorem gcmTag_eq {g : GcmCtx} (hg : g.wf) (hp : g.phase ≠ .done) :
    gcmTag g = (tagOfCtx g, finished g) := by
  have hf : (if g.phase = .aad then ghashFlush g g.aadLen.toNat else ghashFlush g g.ctLen.toNat) =
      { g with y := flushed g, gbuf := [] } := by
    split
    · rename_i ha
      exact ghashFlush_eq (by simpa [GcmCtx.fill, ha] using hg.pending)
    · rename_i ha
      have hc : g.phase = .cipher := by
        have := hg.phase
        cases h : g.phase <;> simp_all
      exact ghashFlush_eq (by simpa [GcmCtx.fill, hc] using hg.pending)
  have h16 : ∀ a b : Nat, (beBytes 8 a ++ beBytes 8 b).length = 16 := by intro a b; simp [beBytes]
  unfold gcmTag
  rw [hf]
  simp only [ghashBlock, ghashStep, tagOfCtx, finished, finalY, ghashOf_block _ _ (h16 _ _)]

/-! ## The initial counter block in closed form (R213) -/

theorem pad16_length (s : Bytes) : (pad16 s).length = 16 * ((s.length + 15) / 16) := by
  rw [pad16, List.length_append, List.length_replicate]; omega

theorem deriveJ0_eq (h : Block) (iv : Bytes) : deriveJ0 h iv = j0Of h iv := by
  unfold deriveJ0 j0Of
  split
  · rfl
  · have hz : zeroPad (16 * ((iv.length + 15) / 16)) iv = pad16 iv := by
      have : (16 - iv.length % 16) % 16 = 16 * ((iv.length + 15) / 16) - iv.length := by omega
      rw [zeroPad, pad16, this]
    have hb : blocksOf ((iv.length + 15) / 16) (pad16 iv) = (chunks 16 (pad16 iv)).map blockOf := by
      have : (pad16 iv).length / 16 = (iv.length + 15) / 16 := by rw [pad16_length]; omega
      simp [blocksOf, chunks, this]
    have hr : remainder 16 (pad16 iv) = [] := by
      rw [← List.length_eq_zero_iff, remainder_length, pad16_length]; omega
    have hl : (List.replicate 8 (0 : Byte) ++ beBytes 8 (8 * iv.length)).length = 16 := by
      simp [beBytes]
    dsimp only
    rw [hz, hb, ghashOf_append, hr, List.nil_append, ghashOf_block _ _ hl]
    rfl

/-! ## Digests of streams in closed form (R126, R127, R151) -/

theorem compressAll_append (st : List Word) (s t : Bytes) :
    compressAll sha256 st (s ++ t) =
      compressAll sha256 (compressAll sha256 st s) (remainder 64 s ++ t) := by
  simp only [compressAll, show sha256.blockBytes = 64 from rfl,
    (chunks_append (by decide : 0 < 64) s t).1, List.foldl_append]

/-- The padding depends on the length modulo `2^64` only. -/
theorem padding_mod (n : Nat) : padding sha256 (n % 2 ^ 64) = padding sha256 n := by
  have h1 : (64 - (n % 2 ^ 64 + 1 + 8) % 64) % 64 = (64 - (n + 1 + 8) % 64) % 64 := by omega
  have h2 : 8 * (n % 2 ^ 64) % 2 ^ 64 = 8 * n % 2 ^ 64 := by omega
  simp only [padding, show sha256.blockBytes = 64 from rfl, show sha256.lenBytes = 8 from rfl, h1, h2]

/-- The digest of a stream: whatever was absorbed, it is the padded whole. -/
theorem hashFinish_update {c : HashLive} (hb : c.blockSize = 64)
    (hl : c.buf.length = c.count.toNat % 64) (s : Bytes) :
    hashFinish sha256 (hashUpdate sha256 c s) =
      finishFrom sha256 c.state (c.count.toNat + s.length) (c.buf ++ s) := by
  have hn : (c.count + BitVec.ofNat 64 s.length).toNat = (c.count.toNat + s.length) % 2 ^ 64 := by
    simp [BitVec.toNat_add]
  rw [hashUpdate_eq hb hl, hashFinish_eq (by exact hb) (by
    have hlt := c.count.isLt
    simp only [remainder_length, List.length_append, hl, hn]
    omega)]
  simp only [finishFrom, hn, padding_mod]
  rw [← compressAll_append]

theorem hashOf_eq (s : Bytes) : hashFinish sha256 (hashUpdate sha256 (hashInit sha256) s) = hashOf sha256 s := by
  rw [hashFinish_update (c := hashInit sha256) rfl rfl]
  simp [hashInit, hashOf]

theorem hashOf_length (s : Bytes) : (hashOf sha256 s).length = 32 := finishFrom_length rfl _ _

theorem hmacK0_eq (key : Bytes) : hmacK0 sha256 key = keyBlock sha256 key := by
  unfold hmacK0 keyBlock zeroPad
  rw [hashOf_eq]

theorem keyBlock_length (key : Bytes) : (keyBlock sha256 key).length = 64 := by
  have := hashOf_length key
  unfold keyBlock
  simp only [show sha256.blockBytes = 64 from rfl]
  split <;> simp only [List.length_append, List.length_replicate] <;> omega

/-- A message that starts with one whole block is hashed from that block's chaining value. -/
theorem hashOf_block {b : Bytes} (hb : b.length = 64) (m : Bytes) :
    hashOf sha256 (b ++ m) = finishFrom sha256 (sha256Compress sha256Init b) (64 + m.length) m := by
  have hc : ∀ t : Bytes, compressAll sha256 sha256Init (b ++ t) =
      compressAll sha256 (sha256Compress sha256Init b) t := by
    intro t
    simp only [compressAll, show sha256.blockBytes = 64 from rfl, chunks_block (by decide) hb,
      List.foldl_cons, show sha256.compress = sha256Compress from rfl]
  simp only [hashOf, finishFrom, List.length_append, hb, List.append_assoc,
    show sha256.init = sha256Init from rfl, hc]

/-- The keyed PRF from its template is HMAC (R151, R154, R155, R172). -/
theorem prfFinish_eq (key m : Bytes) :
    prfFinish sha256 (hashUpdate sha256 (hmacInner sha256 (hmacTemplate sha256 key).istate) m)
      (hmacTemplate sha256 key).ostate = hmacOf sha256 key m := by
  have hx : ∀ p : Byte, (xorPad (keyBlock sha256 key) p).length = 64 := by
    intro p; rw [xorPad, List.length_map, keyBlock_length]
  have ht : hmacTemplate sha256 key =
      ⟨sha256Compress sha256Init (xorPad (keyBlock sha256 key) 0x36),
        sha256Compress sha256Init (xorPad (keyBlock sha256 key) 0x5c)⟩ := by
    unfold hmacTemplate
    rw [hmacK0_eq]
    rfl
  have hin : ∀ (st : List Word) (s : Bytes), hashFinish sha256 (hashUpdate sha256 (hmacInner sha256 st) s) =
      finishFrom sha256 st (64 + s.length) s := by
    intro st s
    have hl : (hmacInner sha256 st).buf.length = (hmacInner sha256 st).count.toNat % 64 := by
      simp [hmacInner, hashInit, sha256]
    rw [hashFinish_update rfl hl]
    simp [hmacInner, hashInit, show sha256.blockBytes = 64 from rfl]
  rw [prfFinish, ht, hin, hin, hmacOf, hashOf_block (hx _), hashOf_block (hx _)]

end Sys2Proof.Machine
end

