-- ==== Sys2Proof/Laws/Window.lean ====
section
/-! SUPPORT. Where the register window lies in the host's address space (20_memory R58, 30_encoding R80). -/

namespace Sys2Proof.Machine

variable {p : Params} {base : Nat}

/-- The window's byte `off` is at `CORE_BASE + off`. -/
theorem windowOffset?_base (h : p.coreBase = some base) (off : Byte) :
    windowOffset? p (base + off.toNat) = some off := by
  have : off.toNat < 256 := off.isLt
  simp [windowOffset?, h, this]

/-- Nothing else of the host's space is the window's. -/
theorem windowOffset?_outside (h : p.coreBase = some base) {addr : Nat}
    (ha : addr < base ∨ base + 256 ≤ addr) : windowOffset? p addr = none := by
  have : ¬ (base ≤ addr ∧ addr < base + 256) := by omega
  simp [windowOffset?, h, this]

theorem windowOffset?_unmapped (h : p.coreBase = none) (addr : Nat) : windowOffset? p addr = none := by
  simp [windowOffset?, h]

end Sys2Proof.Machine
end

