-- ==== Sys2Proof/Tests/Slice0.lean ====
section
/-! SUPPORT. The model's own tests. Every expected value is the spec's (95_test_vectors; the vector's name
stands in each docstring), none is the model's answer. After them, for every obligation that has
hypotheses, a named theorem with a state and operands that meet them, clause by clause. -/

namespace Sys2Proof.Tests

open Sys2Proof.Machine Sys2Proof.Spec

/-! ## Helpers -/

/-- The command goes on to a state of which `p` holds. -/
def ends (r : Result) (p : State → Bool) : Bool :=
  match r with
  | .next t => p t
  | _ => false

/-- The memory cells of a byte sequence at an address, zero bytes being unlisted. -/
def cells (addr : Nat) (s : Bytes) : Memory := (s.mapIdx fun k b => (addr + k, b)).filter (·.2 ≠ 0)

/-- A machine with the default parameters, one context in slot 0, and bytes at 0x100. -/
def with1 (x : Slot) (m : Bytes) : State :=
  { State.reset with
    ctx := x :: List.replicate 7 .free
    poolFree := BitVec.ofNat 16 (2048 - x.size)
    mem := cells 0x100 m }

/-- The machine after reset with other parameters. -/
def resetWith (p : Params) : State :=
  { State.reset with
    cfg := p
    ctx := List.replicate p.nCtx .free
    poolFree := BitVec.ofNat 16 p.poolBytes }

/-! ## Well-formedness: each check refuses an ill-formed term (R73, R76, R93) -/

theorem test_wellFormed_illegal_with_a_legal_opcode :
    (Instr.illegal 0x33).wellFormed Params.default = false := by decide
theorem test_wellFormed_illegal : (Instr.illegal 0x04).wellFormed Params.default = true := by decide
/-- E17's address word. -/
theorem test_wellFormed_address :
    (Instr.hashUpdate 0 0x01000000 0).wellFormed ⟨8, 2048, 24, none⟩ = false := by decide
theorem test_wellFormed_last_address :
    (Instr.hashUpdate 0 0x00FFFFFF 2).wellFormed ⟨8, 2048, 24, none⟩ = true := by decide
theorem test_wellFormed_each_address :
    (Instr.pbkdf2Derive 0 0 0 0 0 0x100 1 1).wellFormed ⟨8, 2048, 8, none⟩ = false ∧
    (Instr.pbkdf2Derive 0 0 0 0x100 0 0 1 1).wellFormed ⟨8, 2048, 8, none⟩ = false ∧
    (Instr.gcmInit 0 0 0 16 0x100 12).wellFormed ⟨8, 2048, 8, none⟩ = false ∧
    (Instr.gcmDecrypt 0 0 1 0x100).wellFormed ⟨8, 2048, 8, none⟩ = false := by decide

/-! ## Decoding: the words of section 8's programs and of the spec's encoding tables -/

/-- P1.1 -/
theorem test_decode_hashCreate : decode ⟨0x00000001, 0, 0, 0, 0, 0, 0, 0⟩ = .ok (.hashCreate 0) := rfl
/-- P1.3 -/
theorem test_decode_hashUpdate : decode ⟨0x00000002, 0x00001001, 0x00000002, 0, 0, 0, 0, 0⟩ = .ok (.hashUpdate 0 0x1001 2) := rfl
/-- P5.8 -/
theorem test_decode_hashDigest : decode ⟨0x00000103, 0x00000340, 0, 0, 0, 0, 0, 0⟩ = .ok (.hashDigest 1 0x340) := rfl
/-- P3.13 -/
theorem test_decode_ctxRelease : decode ⟨0x0000010F, 0, 0, 0, 0, 0, 0, 0⟩ = .ok (.ctxRelease 1) := rfl
/-- P5.1 -/
theorem test_decode_hmacInit : decode ⟨0x00000011, 0x00000100, 0x00000004, 0, 0, 0, 0, 0⟩ = .ok (.hmacInit 0 0x100 4) := rfl
/-- P5.6 -/
theorem test_decode_hmacUpdate : decode ⟨0x00000112, 0x00000200, 0x00000001, 0, 0, 0, 0, 0⟩ = .ok (.hmacUpdate 1 0x200 1) := rfl
/-- P5.7 -/
theorem test_decode_hmacFinal : decode ⟨0x00000013, 0x00000300, 0, 0, 0, 0, 0, 0⟩ = .ok (.hmacFinal 0 0x300) := rfl
/-- P2.1 -/
theorem test_decode_pbkdf2Derive : decode ⟨0x00000021, 0x00000100, 0x00000009, 0x00000200, 0x00000010, 0x00000300, 0x00000010, 0x0000000A⟩ = .ok (.pbkdf2Derive 0 0x100 9 0x200 16 0x300 16 10) := rfl
/-- P4.4 with G13b's AUX -/
theorem test_decode_gcmInit : decode ⟨0x0C000031, 0x00000100, 0x00000020, 0x00000200, 0x0000000C, 0, 0, 0⟩ = .ok (.gcmInit 0 12 0x100 32 0x200 12) := rfl
/-- P3.8 -/
theorem test_decode_gcmAad : decode ⟨0x00000132, 0x00000300, 0x00000012, 0, 0, 0, 0, 0⟩ = .ok (.gcmAad 1 0x300 18) := rfl
/-- P2.5 -/
theorem test_decode_gcmEncrypt : decode ⟨0x00000033, 0x00000614, 0x0000000D, 0x00000714, 0, 0, 0, 0⟩ = .ok (.gcmEncrypt 0 0x614 13 0x714) := rfl
/-- P3.9 -/
theorem test_decode_gcmDecrypt : decode ⟨0x00000134, 0x00000600, 0x00000021, 0x00000700, 0, 0, 0, 0⟩ = .ok (.gcmDecrypt 1 0x600 33 0x700) := rfl
/-- P2.7 -/
theorem test_decode_gcmDigest : decode ⟨0x00000035, 0x00000800, 0, 0, 0, 0, 0, 0⟩ = .ok (.gcmDigest 0 0x800) := rfl
/-- P3.10 -/
theorem test_decode_gcmVerify : decode ⟨0x00000136, 0x00000520, 0, 0, 0, 0, 0, 0⟩ = .ok (.gcmVerify 1 0x520) := rfl
/-- E2 -/
theorem test_decode_illegal : decode ⟨0x00000004, 0, 0, 0, 0, 0, 0, 0⟩ = .ok (.illegal 4) := rfl
/-- R105 -/
theorem test_decode_illegal_ignores_the_rest : decode ⟨0x12345604, 1, 2, 3, 4, 5, 6, 7⟩ = .ok (.illegal 4) := rfl
/-- E3, E4, K16: a reserved word, the unused AUX field, the unused HND field. -/
theorem test_decode_reserved :
    decode ⟨0x00000001, 1, 0, 0, 0, 0, 0, 0⟩ = .error (.reservedField "HASH_CREATE") ∧
    decode ⟨0x01000001, 0, 0, 0, 0, 0, 0, 0⟩ = .error (.reservedField "HASH_CREATE") ∧
    decode ⟨0x00000121, 0x100, 9, 0x200, 0x10, 0x300, 0x10, 0xA⟩ =
      .error (.reservedField "PBKDF2_DERIVE") := ⟨rfl, rfl, rfl⟩
theorem test_encode_fields :
    encode (.gcmInit 0x01 0x0C 0x100 0x10 0x200 0xC) = ⟨0x0C010031, 0x100, 0x10, 0x200, 0xC, 0, 0, 0⟩ ∧
    encode (.hmacUpdate 0x42 0x200 1) = ⟨0x00004212, 0x200, 1, 0, 0, 0, 0, 0⟩ := by decide
theorem test_decodeTableWord :
    decodeTableWord 96 (0x00000003 * 2 ^ 64 + 0x00001000 * 2 ^ 32 + 0x00000502) =
      some (.hashUpdate 5 0x1000 3) := rfl

/-! ## Primitives -/

/-- A1 and A3: FIPS 197 appendix C, a 16- and a 32-byte key. -/
theorem test_aes :
    aesEncrypt (keyExpand ((List.range 16).map (BitVec.ofNat 8))) 10 0x00112233445566778899aabbccddeeff =
      0x69c4e0d86a7b0430d8cdb78070b4c55a ∧
    aesEncrypt (keyExpand ((List.range 32).map (BitVec.ofNat 8))) 14 0x00112233445566778899aabbccddeeff =
      0x8ea2b7ca516745bfeafc49904b496089 := by decide +kernel
/-- The 32-byte key schedule, both branches, and the last words of the 24-byte one (section 5). -/
theorem test_keyExpand :
    ((keyExpand ((List.range 32).map (BitVec.ofNat 8))).drop 8).take 8 =
      [0xa573c29f, 0xa176c498, 0xa97fce93, 0xa572c09c, 0x1651a8cd, 0x0244beda, 0x1a5da4c1, 0x0640bade] ∧
    (keyExpand ((List.range 24).map (BitVec.ofNat 8))).drop 48 =
      [0xa4970a33, 0x1a78dc09, 0xc418c271, 0xe3a41d5d] := by decide +kernel
/-- G18. -/
theorem test_inc32 :
    inc32 0x000102030405060708090a0bffffffff = 0x000102030405060708090a0b00000000 ∧
    inc32 0xffffffffffffffffffffffffffffffff = 0xffffffffffffffffffffffff00000000 ∧
    inc32 0xff = 0x100 := by decide +kernel
/-- `J0` of an 8-byte and of a 1-byte IV (G5, G11), with their `H`. -/
theorem test_deriveJ0 :
    deriveJ0 0xb83b533708bf535d0aa6e52980d53b78 [0xca, 0xfe, 0xba, 0xbe, 0xfa, 0xce, 0xdb, 0xad] =
      0xc43a83c4c4badec4354ca984db252f7d ∧
    deriveJ0 0xb83b533708bf535d0aa6e52980d53b78 [0x5a] =
      0xc4e8c89db33a4b5ead2815b37979d54a := by decide +kernel
/-- The canonical memory: writing what an unlisted address reads as removes the cell. -/
theorem test_memory :
    (Memory.write (Memory.write [] 5 0x61) 3 0x62) = [(3, 0x62), (5, 0x61)] ∧
    Memory.write [(3, 0x62), (5, 0x61)] 3 0 = [(5, 0x61)] := by decide

/-! ## One step of each command -/

/-- E6, E8: the least free slot, with its handle and 112 pool bytes. -/
theorem test_hashCreate :
    ends (exec (.hashCreate 0) (with1 (.hash (.final 0 32 64)) [])) (fun t =>
      t.status = 0x00000100 && t.poolFree = 1824 && t.ctx.getD 1 .free ==
        .hash (.active ⟨0, 32, 64, sha256Init, 0, []⟩)) = true := by decide +kernel
/-- E5. -/
theorem test_hashCreate_alg :
    ends (exec (.hashCreate 0xFF) State.reset) (· == { State.reset with status := 0x0000FF04 }) = true := by
  decide +kernel
/-- H12: a full block runs one compression step and leaves nothing pending. -/
theorem test_hashUpdate :
    ends (exec (.hashUpdate 0 0x100 64)
      (with1 (.hash (.active (hashInit sha256))) (List.replicate 64 0x61))) (fun t =>
      t.status = 0x0000FF00 && t.ctx.getD 0 .free == .hash (.active ⟨0, 32, 64,
        [0xdf5bb81c, 0xe81e0626, 0xfb45a894, 0x4fd40f31, 0xb25e6816, 0xd6d499c1, 0xab904929, 0x00635e66], 64, []⟩)) = true := by
  decide +kernel
/-- E18: the address wraps at `2^ADDR_BITS`. -/
theorem test_hashUpdate_wraps :
    ends (exec (.hashUpdate 0 0x00FFFFFF 2) { with1 (.hash (.active (hashInit sha256))) [] with
        cfg := ⟨8, 2048, 24, none⟩, mem := [(0, 0x62), (0xFFFFFF, 0x61)] }) (fun t =>
      t.ctx.getD 0 .free == .hash (.active ⟨0, 32, 64, sha256Init, 2, [0x61, 0x62]⟩) &&
        t.log == [.read 0xFFFFFF, .read 0]) = true := by decide +kernel
/-- P1: the digest of "abc", written at `out`, the context FINAL. -/
theorem test_hashDigest :
    ends (exec (.hashDigest 0 0x2000)
      (with1 (.hash (.active ⟨0, 32, 64, sha256Init, 3, [0x61, 0x62, 0x63]⟩)) [])) (fun t =>
      t.bytesAt 0x2000 32 =
        [0xba, 0x78, 0x16, 0xbf, 0x8f, 0x01, 0xcf, 0xea, 0x41, 0x41, 0x40, 0xde, 0x5d, 0xae, 0x22, 0x23, 0xb0, 0x03, 0x61, 0xa3, 0x96, 0x17, 0x7a, 0x9c, 0xb4, 0x10, 0xff, 0x61, 0xf2, 0x00, 0x15, 0xad] &&
      t.ctx.getD 0 .free == .hash (.final 0 32 64) && t.poolFree = 1936) = true := by decide +kernel
/-- P1.6: a second digest is InvalidState and writes nothing. -/
theorem test_hashDigest_twice :
    ends (exec (.hashDigest 0 0x2040) (with1 (.hash (.final 0 32 64)) [])) (fun t =>
      t == { with1 (.hash (.final 0 32 64)) [] with status := 0x0000FF03 }) = true := by decide +kernel
/-- E16. -/
theorem test_ctxRelease :
    ends (exec (.ctxRelease 0) (with1 (.hash (.final 0 32 64)) [])) (fun t =>
      t.status = 0x0000FF00 && t.poolFree = 2048 && t.ctx == State.reset.ctx) = true := by decide +kernel
/-- E11: a handle at `N_CTX`. -/
theorem test_ctxRelease_handle :
    ends (exec (.ctxRelease 8) State.reset) (· == { State.reset with status := 0x0000FF02 }) = true := by
  decide +kernel
/-- M4: the template of the empty key. -/
theorem test_hmacInit :
    ends (exec (.hmacInit 0 0x100 0) State.reset) (fun t =>
      t.status = 0 && t.poolFree = 1872 && (match t.ctx.getD 0 .free with
        | .hmac (.active 0 inner tpl) => inner.count = 64 && inner.state == tpl.istate && tpl.istate ==
          [0xf454dead, 0x9725214f, 0x90daf2a0, 0xdf1228ea, 0x64e5750f, 0xa3924181, 0x824a932b, 0xf8e04e32]
        | _ => false)) = true := by decide +kernel
/-- P5.6: a command of the HMAC unit on a hash context. -/
theorem test_hmacUpdate_kind :
    ends (exec (.hmacUpdate 0 0x200 1) (with1 (.hash (.active (hashInit sha256))) [])) (fun t =>
      t.status = 0x0000FF02 && t.log = []) = true := by decide +kernel
/-- P5.3: the data goes to the inner hash alone. -/
theorem test_hmacUpdate :
    ends (exec (.hmacUpdate 0 0x100 2)
      (with1 (.hmac (.active 0 (hmacInner sha256 sha256Init) ⟨sha256Init, sha256Init⟩)) [0x77, 0x68]))
      (fun t => t.ctx.getD 0 .free == .hmac (.active 0 ⟨0, 32, 64, sha256Init, 66, [0x77, 0x68]⟩
        ⟨sha256Init, sha256Init⟩)) = true := by decide +kernel
/-- M4: the MAC of nothing under the empty key. -/
theorem test_hmacFinal :
    ends (exec (.hmacFinal 0 0x300) (with1 (.hmac (.active 0
        (hmacInner sha256 (hmacTemplate sha256 []).istate) (hmacTemplate sha256 []))) [])) (fun t =>
      t.bytesAt 0x300 32 =
        [0xb6, 0x13, 0x67, 0x9a, 0x08, 0x14, 0xd9, 0xec, 0x77, 0x2f, 0x95, 0xd7, 0x78, 0xc3, 0x5f, 0xc5, 0xff, 0x16, 0x97, 0xc4, 0x93, 0x71, 0x56, 0x53, 0xc6, 0xc7, 0x12, 0x14, 0x42, 0x92, 0xc5, 0xad] &&
      t.ctx.getD 0 .free == .hmac (.final 0)) = true := by decide +kernel
/-- K5's output byte, from K1's inputs; the byte after it stays. -/
theorem test_pbkdf2Derive :
    ends (exec (.pbkdf2Derive 0 0x100 8 0x108 4 0x200 1 1)
      { State.reset with mem := cells 0x100 [0x70, 0x61, 0x73, 0x73, 0x77, 0x6f, 0x72, 0x64, 0x73, 0x61, 0x6c, 0x74] }) (fun t =>
      t.status = 0x0000FF00 && t.bytesAt 0x200 2 = [0x12, 0] && t.poolFree = 2048) = true := by
  decide +kernel
/-- K12, K13, K14. -/
theorem test_pbkdf2Derive_order :
    ends (exec (.pbkdf2Derive 0 0 0 0 0 0 0 0) State.reset) (·.status = 0x0000FF02) = true ∧
    ends (exec (.pbkdf2Derive 7 0 0 0 0 0 0 0) State.reset) (·.status = 0x0000FF04) = true ∧
    ends (exec (.pbkdf2Derive 0 0 0 0 0 0 16 1) (resetWith ⟨8, 351, 32, none⟩)) (·.status = 0x0000FF01) = true := by
  decide +kernel
/-- G1: the all-zero key and IV; the tag length defaults to 16; 296 pool bytes (P2.2). -/
theorem test_gcmInit :
    ends (exec (.gcmInit 0 0 0x100 16 0x200 12) State.reset) (fun t =>
      t.status = 0 && t.poolFree = 1752 && (match t.ctx.getD 0 .free with
        | .gcm g => g.h = 0x66e94bd4ef8a2c3b884cfa59ca342b2e && g.j0 = 1 && g.cb = 1 &&
          g.phase == .aad && g.tagLen = 16 && g.nr = 10
        | _ => false)) = true := by decide +kernel
/-- G20 to G23. -/
theorem test_gcmInit_checks :
    ends (exec (.gcmInit 0 0 0 16 0 0) State.reset) (·.status = 0x0000FF02) = true ∧
    ends (exec (.gcmInit 0 5 0 16 0 12) State.reset) (·.status = 0x0000FF02) = true ∧
    ends (exec (.gcmInit 1 0 0 15 0 12) State.reset) (·.status = 0x0000FF04) = true ∧
    ends (exec (.gcmInit 0 0 0 32 0 12) (resetWith ⟨8, 359, 32, none⟩)) (·.status = 0x0000FF01) = true := by
  decide +kernel

/-- The context of G1 and G2 after GCM_INIT. -/
def zeroCtx : GcmCtx := gcmInitCtx 16 (List.replicate 16 0) (List.replicate 12 0)

/-- The context of 1.3 after GCM_INIT. -/
def sourceCtx : GcmCtx := gcmInitCtx 16
  [0xee, 0x89, 0x19, 0xc3, 0x8d, 0x53, 0x7a, 0xd6, 0x04, 0x19, 0x9e, 0x77, 0x0b, 0xe0, 0xe0, 0x4c]
  [0x79, 0xa6, 0xde, 0xdf, 0xf0, 0xa2, 0x7c, 0x7f, 0xee, 0x0b, 0x8e, 0xf5, 0x12, 0x63, 0xa4, 0x8a]

/-- 1.3: the accumulator after the first AAD block, two bytes pending. -/
theorem test_gcmAad :
    ends (exec (.gcmAad 0 0x100 18) (with1 (.gcm sourceCtx)
      [0x53, 0x6f, 0x6d, 0x65, 0x20, 0x72, 0x61, 0x6e, 0x64, 0x6f, 0x6d, 0x20, 0x68, 0x65, 0x61, 0x64, 0x65, 0x72])) (fun t =>
      match t.ctx.getD 0 .free with
      | .gcm g => g.y = 0xd2fb59e44766423d67b9000484f6d580 && g.aadLen = 18 &&
        g.gbuf = [0x65, 0x72] && g.phase == .aad
      | _ => false) = true := by decide +kernel
/-- E15: no AAD once in CIPHER, whatever the length. -/
theorem test_gcmAad_late :
    ends (exec (.gcmAad 0 0x100 0) (with1 (.gcm { zeroCtx with phase := .cipher }) []))
      (·.status = 0x0000FF03) = true := by decide +kernel
/-- G2: one block, in place. -/
theorem test_gcmEncrypt :
    ends (exec (.gcmEncrypt 0 0x100 16 0x100) (with1 (.gcm zeroCtx) [])) (fun t =>
      t.bytesAt 0x100 16 = [0x03, 0x88, 0xda, 0xce, 0x60, 0xb6, 0xa3, 0x92, 0xf3, 0x28, 0xc2, 0xb9, 0x71, 0xb2, 0xfe, 0x78] &&
      (match t.ctx.getD 0 .free with
        | .gcm g => g.ctLen = 16 && g.cb = 2 && g.phase == .cipher && g.gbuf = [] && g.ks = none
        | _ => false)) = true := by decide +kernel
/-- G17: a zero-length encrypt enters CIPHER. -/
theorem test_gcmEncrypt_nothing :
    ends (exec (.gcmEncrypt 0 0x100 0 0x100) (with1 (.gcm zeroCtx) [])) (fun t =>
      t.log = [] && (match t.ctx.getD 0 .free with
        | .gcm g => g.phase == .cipher
        | _ => false)) = true := by decide +kernel
/-- G2 backwards: the zero plaintext, and GHASH over the ciphertext read. -/
theorem test_gcmDecrypt :
    ends (exec (.gcmDecrypt 0 0x100 16 0x200) (with1 (.gcm zeroCtx)
      [0x03, 0x88, 0xda, 0xce, 0x60, 0xb6, 0xa3, 0x92, 0xf3, 0x28, 0xc2, 0xb9, 0x71, 0xb2, 0xfe, 0x78])) (fun t =>
      t.bytesAt 0x200 16 = List.replicate 16 0 && (match t.ctx.getD 0 .free with
        | .gcm g => (gcmTag g).1 = [0xab, 0x6e, 0x47, 0xd4, 0x2c, 0xec, 0x13, 0xbd, 0xf5, 0x3a, 0x67, 0xb2, 0x12, 0x57, 0xbd, 0xdf]
        | _ => false)) = true := by decide +kernel
/-- G1's tag, issued in phase AAD, cut to 12 bytes. -/
theorem test_gcmDigest :
    ends (exec (.gcmDigest 0 0x200) (with1 (.gcm { zeroCtx with tagLen := 12 }) [])) (fun t =>
      t.bytesAt 0x200 13 = [0x58, 0xe2, 0xfc, 0xce, 0xfa, 0x7e, 0x30, 0x61, 0x36, 0x7f, 0x1d, 0x57, 0x00] &&
      (match t.ctx.getD 0 .free with
        | .gcm g => g.phase == .done
        | _ => false)) = true := by decide +kernel
/-- E14. -/
theorem test_gcmDigest_done :
    ends (exec (.gcmDigest 0 0x200) (with1 (.gcm { zeroCtx with phase := .done }) []))
      (·.status = 0x0000FF03) = true := by decide +kernel
/-- G1's tag verifies; all sixteen bytes are read and nothing is written. -/
theorem test_gcmVerify :
    ends (exec (.gcmVerify 0 0x100) (with1 (.gcm zeroCtx)
      [0x58, 0xe2, 0xfc, 0xce, 0xfa, 0x7e, 0x30, 0x61, 0x36, 0x7f, 0x1d, 0x57, 0xa4, 0xe7, 0x45, 0x5a])) (fun t =>
      t.status = 0x0000FF00 && t.log.length = 16) = true := by decide +kernel
/-- G15's last byte: one differing byte is enough, and the context is DONE. -/
theorem test_gcmVerify_differs :
    ends (exec (.gcmVerify 0 0x100) (with1 (.gcm zeroCtx)
      [0x58, 0xe2, 0xfc, 0xce, 0xfa, 0x7e, 0x30, 0x61, 0x36, 0x7f, 0x1d, 0x57, 0xa4, 0xe7, 0x45, 0x5b])) (fun t =>
      t.status = 0x0000FF05 && t.log.length = 16 && (match t.ctx.getD 0 .free with
        | .gcm g => g.phase == .done
        | _ => false)) = true := by decide +kernel
/-- E1, through the doorbell: the window all zero. -/
theorem test_illegal :
    ends (step { State.reset with host := [ringDoorbell] }) (· == { State.reset with status := 0x0000FF02 }) =
      true := by decide +kernel

/-! ## The host's side -/

/-- R84 with the default parameters: 8 contexts, one algorithm, 2048 pool bytes. -/
theorem test_window_constants :
    windowRead State.reset 0x2C = 0x4C574345 ∧ windowRead State.reset 0x30 = 0x08000108 ∧
    windowRead State.reset 0x24 = 0x0000FF00 ∧ windowRead State.reset 0x28 = 0x00000800 := by decide +kernel
/-- E11 as a host issues it, from a window with other content: nine accesses. -/
theorem test_issue :
    ends (Host.Core.run Sys2Proof.core 9 ({ State.reset with
        w := ⟨1, 2, 3, 4, 5, 6, 7, 8⟩, host := issue (encode (.ctxRelease 8)) } : State))
      (· == { State.reset with w := ⟨0x0000080F, 0, 0, 0, 0, 0, 0, 0⟩, status := 0x0000FF02 }) = true := by
  decide +kernel
/-- R58, R80: the window is the 256 bytes at `CORE_BASE`; STATUS is at 0x24, DOORBELL at 0x20. -/
theorem test_busRead :
    ends (step { resetWith ⟨8, 2048, 32, some 0x40000000⟩ with
        host := [.busRead .word 0x40000024] }) (·.readData = some 0x0000FF00) = true ∧
    windowOffset? ⟨8, 2048, 32, some 0x40000000⟩ 0x40000100 = none := by decide +kernel
theorem test_busWrite :
    ends (step { resetWith ⟨8, 2048, 32, some 0x40000000⟩ with
        w := ⟨0x00000001, 0, 0, 0, 0, 0, 0, 0⟩, host := [.busWrite .word 0x40000020 0] }) (fun t =>
      t.status = 0 && t.poolFree = 1936) = true := by decide +kernel
theorem test_withFetchWord :
    ends (step (State.reset.withFetchWord 32 0x00000001)) (fun t =>
      t.status = 0 && t.poolFree = 1936 && t.host = []) = true := by decide +kernel

/-! ## Witnesses: states and operands that meet the hypotheses of the obligations

`wit` has a context of every kind and phase (two equal GCM contexts in slots 2 and 7) and a free slot.
Where a hypothesis is that a command answers some state with a property, `ends` gives that state. -/

theorem ends_next {r : Result} {p : State → Bool} (h : ends r p = true) :
    ∃ t, r = .next t ∧ p t = true := by
  unfold ends at h
  split at h
  · exact ⟨_, rfl, h⟩
  · cases h

def wit : State where
  cfg := ⟨9, 4096, 16, some 0x40000000⟩
  w := ⟨0x0000000F, 0, 0, 0, 0, 0, 0, 0⟩
  status := 0x0000FF00
  poolFree := 2336
  ctx :=
    [ .hash (.active (hashInit sha256)),
      .hmac (.active 0 (hmacInner sha256 (hmacTemplate sha256 []).istate) (hmacTemplate sha256 [])),
      .gcm zeroCtx, .gcm (gcmEnterCipher zeroCtx), .gcm (gcmTag zeroCtx).2,
      .hash (.final 0 32 64), .hmac (.final 0), .gcm zeroCtx, .free ]
  mem := [(0x10, 0x61), (0x11, 0x62), (0xFFFF, 0x63)]
  host := []
  readData := none
  log := [.read 0xFFFF]

theorem zeroCtx_wf : zeroCtx.wf := gcmInitCtx_wf (by decide) (by decide)

theorem wit_inv : Inv wit where
  params := by decide
  table := rfl
  pool := by decide +kernel
  contexts := by
    have hf : HashCtx.wf (.final 0 32 64) := ⟨sha256, rfl, rfl, rfl⟩
    have hm : HmacCtx.wf (.active 0 (hmacInner sha256 (hmacTemplate sha256 []).istate)
        (hmacTemplate sha256 [])) :=
      ⟨rfl, hmacInner_wf (hmacTemplate_lengths []).1, sha256, rfl, (hmacTemplate_lengths []).1,
        (hmacTemplate_lengths []).2⟩
    have hc := (gcmEnterCipher_wf zeroCtx_wf (by decide +kernel)).1
    intro x hx
    simp only [wit, List.mem_cons, List.not_mem_nil, or_false] at hx
    rcases hx with rfl | rfl | rfl | rfl | rfl | rfl | rfl | rfl | rfl
    · exact hashInit_wf
    · exact hm
    · exact zeroCtx_wf
    · exact hc
    · exact (gcmTag_wf zeroCtx_wf).1
    · exact hf
    · exact ⟨sha256, rfl⟩
    · exact zeroCtx_wf
    · trivial
  status := ⟨.ok, noHandle, by decide, .inl rfl⟩
  memory := by decide
  memoryBelow := by decide
  history := by decide

/-- A machine with one free slot and `n` pool bytes. -/
def small (n : Nat) : State := resetWith ⟨1, n, 32, none⟩

theorem small_inv {n : Nat} (h : n ≤ 65535) : Inv (small n) where
  params := by simp [small, resetWith, Params.legal, h]
  table := rfl
  pool := by
    have : (BitVec.ofNat 16 n).toNat = n := by rw [BitVec.toNat_ofNat]; omega
    exact this
  contexts := by
    intro x hx
    obtain rfl : x = .free := by simpa [small, resetWith] using hx
    trivial
  status := ⟨.ok, noHandle, rfl, .inl rfl⟩
  memory := rfl
  memoryBelow := rfl
  history := by simp [small, resetWith, State.reset]

/-! ### Encoding and the step -/

theorem witness_DecodeOfEncode :
    (Instr.gcmInit 0xFF 0xFF 0xFFFF 0xFFFFFFFF 0xFFFF 0xFFFFFFFF).wellFormed ⟨9, 4096, 16, some 0x40000000⟩ = true ∧
    (Instr.illegal 0x00).wellFormed Params.default = true := by decide

theorem witness_EncodeOfDecode :
    Descriptor.opc ⟨0x0000FF0F, 0, 0, 0, 0, 0, 0, 0⟩ ∈ legalOpcodes ∧
    decode ⟨0x0000FF0F, 0, 0, 0, 0, 0, 0, 0⟩ = .ok (.ctxRelease 0xFF) := ⟨by decide, rfl⟩

/-- A reserved word, a reserved field, and an address word of exactly `2^ADDR_BITS`. -/
theorem witness_ReservedField :
    let s := { wit with host := [.windowWrite .word 0x20 0xFFFFFFFF] }
    (Descriptor.opc ⟨0x0000000F, 0, 0, 0, 0, 0, 0, 1⟩ ∈ legalOpcodes ∧
      reservedNonzero ⟨0x0000000F, 0, 0, 0, 0, 0, 0, 1⟩ = true) ∧
    reservedNonzero ⟨0x01000021, 0, 0, 0, 0, 0, 0, 1⟩ = true ∧
    s.host = .windowWrite .word 0x20 0xFFFFFFFF :: [] ∧
    decode ⟨0x00000003, 0x10000, 0, 0, 0, 0, 0, 0⟩ = .ok (.hashDigest 0 0x10000) ∧
    badAddress s (.hashDigest 0 0x10000) = true := by
  exact ⟨by decide, by decide, rfl, rfl, by decide⟩

theorem witness_IllegalOpcode :
    Descriptor.opc ⟨0xFFFFFF00, 1, 1, 1, 1, 1, 1, 1⟩ ∉ legalOpcodes ∧
    Descriptor.opc ⟨0x00000037, 0, 0, 0, 0, 0, 0, 0⟩ ∉ legalOpcodes := by decide

theorem witness_DoorbellRuns :
    decode wit.w = .ok (.ctxRelease 0) ∧ decodeTableWord 32 0x0000FF0F = some (.ctxRelease 0xFF) :=
  ⟨rfl, rfl⟩

theorem witness_IssuedCommandRuns :
    let i := Instr.hashUpdate 0xFF 0xFFFF 0xFFFFFFFF
    let s := { wit with host := issue (encode i) ++ [HostAccess.reset] }
    i.wellFormed wit.cfg = true ∧ s.host = issue (encode i) ++ [.reset] := ⟨by decide, rfl⟩

/-! ### The host's side -/

/-- Every register of the window: the command words' first and last, each later register, both ends of the
reserved range. -/
theorem witness_WindowReads :
    ∀ off ∈ [(0x00 : Byte), 0x1C, 0x20, 0x24, 0x28, 0x2C, 0x30, 0x34, 0xFC],
      ({ wit with host := [.windowRead .word off] } : State).host = .windowRead .word off :: [] ∧
      wit.cfg.legal = true ∧ off.toNat % 4 = 0 := by decide

theorem witness_WindowWrites :
    ∀ off ∈ [(0x00 : Byte), 0x1C, 0x24, 0x30, 0xFC],
      ({ wit with host := [.windowWrite .word off 7] } : State).host = .windowWrite .word off 7 :: [] ∧
      off.toNat % 4 = 0 ∧ off ≠ 0x20 := by decide

theorem witness_UndefinedWindowAccess :
    let r := { wit with host := [.windowRead .half 0x24] }
    let w := { wit with host := [.windowWrite .word 0x23 7] }
    (r.host = .windowRead .half 0x24 :: [] ∧ AccessWidth.half ≠ .word) ∧
    (w.host = .windowWrite .word 0x23 7 :: [] ∧ (0x23 : Byte).toNat % 4 ≠ 0) := by decide

/-- The last address that exists and the first that does not. -/
theorem witness_HostMemoryAccesses :
    let s := { wit with host := [.memWrite 0xFFFF 0] }
    let s' := { wit with host := [.memWrite 0x10000 0] }
    s.mem.wf = true ∧ s.host = .memWrite 0xFFFF 0 :: [] ∧ (0xFFFF : Word).toNat < 2 ^ s.cfg.addrBits ∧
    s'.host = .memWrite 0x10000 0 :: [] ∧ 2 ^ s'.cfg.addrBits ≤ (0x10000 : Word).toNat := by decide

theorem witness_Idle : wit.host = [] := rfl

theorem witness_ResetInput : ({ wit with host := [.reset] } : State).host = .reset :: [] := rfl

/-! ### Rules about every command -/

/-- A creating command that ends OK, a command that does not create, one that fails (R106's three cases);
the same three serve the access table, the phases and the frame. -/
theorem witness_Status :
    Inv wit ∧ (∃ t, exec (.hashCreate 0) wit = .next t ∧ t.code = 0) ∧
    (∃ t, exec (.ctxRelease 5) wit = .next t ∧ t.code = 0) ∧
    (∃ t, exec (.hashUpdate 5 0 0) wit = .next t ∧ t.code = 3) := by
  refine ⟨wit_inv, ?_, ?_, ?_⟩
  · obtain ⟨t, h, ht⟩ := ends_next (r := exec (.hashCreate 0) wit) (p := (·.code = 0)) (by decide +kernel)
    exact ⟨t, h, by simpa using ht⟩
  · obtain ⟨t, h, ht⟩ := ends_next (r := exec (.ctxRelease 5) wit) (p := (·.code = 0)) (by decide +kernel)
    exact ⟨t, h, by simpa using ht⟩
  · obtain ⟨t, h, ht⟩ := ends_next (r := exec (.hashUpdate 5 0 0) wit) (p := (·.code = 3))
      (by decide +kernel)
    exact ⟨t, h, by simpa using ht⟩

/-- Each code a failing command can report. -/
theorem witness_FailingCommand :
    ends (exec (.hashCreate 0) (small 111)) (·.code = 1) = true ∧
    ends (exec (.ctxRelease 9) wit) (·.code = 2) = true ∧
    ends (exec (.hashDigest 5 0) wit) (·.code = 3) = true ∧
    ends (exec (.hashCreate 1) wit) (·.code = 4) = true ∧
    ends (exec (.gcmVerify 2 0) wit) (·.code = 5) = true := by decide +kernel

theorem witness_InvariantKept :
    ∃ t, Inv ({ wit with host := [ringDoorbell] }) ∧ step { wit with host := [ringDoorbell] } = .next t := by
  obtain ⟨t, h, -⟩ := ends_next (r := step { wit with host := [ringDoorbell] }) (p := fun _ => true)
    (by decide +kernel)
  exact ⟨t, ⟨wit_inv.params, wit_inv.table, wit_inv.pool, wit_inv.contexts, wit_inv.status,
    wit_inv.memory, wit_inv.memoryBelow, wit_inv.history⟩, h⟩

/-- A slot that moves, one that is born, one that is released. -/
theorem witness_Phases :
    Inv wit ∧ wit.ctx[0]? ≠ none ∧ wit.ctx[8]? = some .free ∧ wit.ctx[6]? = some (.hmac (.final 0)) ∧
    ends (exec (.hashDigest 0 0) wit) (fun t => t.ctx.getD 0 .free == .hash (.final 0 32 64)) = true ∧
    ends (exec (.hmacInit 0 0 0) wit) (fun t => t.ctx.getD 8 .free != .free) = true ∧
    ends (exec (.ctxRelease 6) wit) (fun t => t.ctx.getD 6 (.hmac (.final 0)) == .free) = true :=
  ⟨wit_inv, by decide +kernel, rfl, rfl, by decide +kernel, by decide +kernel, by decide +kernel⟩

theorem witness_OtherSlots :
    handle (.gcmDigest 2 0) = some 2 ∧ (7 : Nat) ≠ (2 : Byte).toNat ∧ handle (.hashCreate 0) = none ∧
    wit.ctx[2]? ≠ some .free ∧ ends (exec (.hashCreate 0) wit) (fun _ => true) = true ∧
    ends (exec (.gcmDigest 2 0) wit) (fun _ => true) = true := by
  refine ⟨rfl, by decide, rfl, by simp [wit], by decide +kernel, by decide +kernel⟩

theorem witness_OtherContexts :
    (handle (.hashUpdate 0 0x10 2) = some 0 ∧ (8 : Nat) ≠ (0 : Byte).toNat) ∧
    (handle (.gcmInit 0 0 0 16 0 12) = none ∧ Slot.hmac (.final 0) ≠ .free ∧
      ∃ y, wit.ctx[2]? = some y ∧ y ≠ .free) :=
  ⟨⟨rfl, by decide⟩, rfl, by simp, _, rfl, by simp⟩

/-- One of the commands that store nothing, and for each that stores, an address beside its range. -/
theorem witness_Stores :
    storesNothing (.gcmVerify 2 0) = true ∧ ends (exec (.gcmVerify 2 0) wit) (fun _ => true) = true ∧
    32 ∉ storedRange (.hashDigest 0 0) wit ∧ 0xFFFF ∉ storedRange (.hmacFinal 1 0) wit ∧
    1 ∉ storedRange (.pbkdf2Derive 0 0 0 0 0 0 1 1) wit ∧ 0 ∉ storedRange (.gcmEncrypt 2 0 1 0xFFFF) wit ∧
    1 ∉ storedRange (.gcmDecrypt 2 0 2 0xFFFF) wit ∧ 16 ∉ storedRange (.gcmDigest 2 0) wit := by
  decide +kernel

theorem witness_Pool :
    creates (.hmacFinal 1 0) = false ∧ (∀ h, Instr.hmacFinal 1 0 ≠ .ctxRelease h) ∧
    ends (exec (.pbkdf2Derive 0 0 0 0 0 0 0 1) wit) (fun _ => true) = true :=
  ⟨rfl, by simp, by decide +kernel⟩

theorem witness_Accesses :
    ends (exec (.gcmVerify 2 0) wit) (fun t => t.code = 5) = true ∧
    ends (exec (.gcmEncrypt 2 0x10 2 0xFFFF) wit) (fun t => t.code = 0) = true ∧
    ends (exec (.gcmAad 3 0x10 2) wit) (fun t => t.code = 3) = true := by decide +kernel

/-! ### The commands: every check that can fail, the last resources that suffice, and no failure -/

theorem witness_Release :
    Inv wit ∧ failure (.ctxRelease 6) wit = none ∧ failure (.ctxRelease 0) wit = none ∧
    failure (.ctxRelease 4) wit = none ∧ failure (.ctxRelease 8) wit = some .invalidArgument ∧
    failure (.ctxRelease 9) wit = some .invalidArgument :=
  ⟨wit_inv, by decide +kernel⟩

theorem witness_HashCreate :
    Inv (small 112) ∧ failure (.hashCreate 0) (small 112) = none ∧
    failure (.hashCreate 1) (small 112) = some .unsupportedAlgorithm ∧
    Inv (small 111) ∧ failure (.hashCreate 0) (small 111) = some .outOfMemory :=
  ⟨small_inv (by decide), by decide +kernel, by decide +kernel, small_inv (by decide), by decide +kernel⟩

theorem witness_HashUpdate :
    failure (.hashUpdate 0 0xFFFF 2) wit = none ∧ failure (.hashUpdate 0 0 0) wit = none ∧
    failure (.hashUpdate 5 0 0) wit = some .invalidState ∧
    failure (.hashUpdate 1 0 0) wit = some .invalidArgument ∧
    failure (.hashUpdate 0 0x10000 0) wit = some .invalidArgument := by decide +kernel

theorem witness_HashDigest :
    failure (.hashDigest 0 0xFFFF) wit = none ∧ failure (.hashDigest 5 0) wit = some .invalidState ∧
    failure (.hashDigest 8 0) wit = some .invalidArgument := by decide +kernel

theorem witness_Compression : sha256Init.length = 8 ∧ (List.replicate 64 (0xFF : Byte)).length = 64 := by
  decide

/-- Both parts, and an empty second part; the second part's address wraps. -/
theorem witness_SplitData :
    (0x0001 : Word).toNat = ((0xFFFF : Word).toNat + (2 : Word).toNat) % 2 ^ wit.cfg.addrBits ∧
    (5 : Word).toNat = (2 : Word).toNat + (3 : Word).toNat ∧
    (0 : Word).toNat = ((0 : Word).toNat + (0 : Word).toNat) % 2 ^ wit.cfg.addrBits := by decide

theorem witness_leastFree : leastFree wit 8 := by
  refine ⟨rfl, fun j hj => ?_⟩
  have h : ∀ j < 8, wit.ctx[j]? ≠ some .free := by
    intro j hj
    interval_cases j <;> simp [wit]
  exact h j hj

/-- No update, and two with an empty one among them. -/
theorem witness_HashOfTheData :
    Inv wit ∧ (∀ p ∈ ([] : List (Word × Word)), p.1.toNat < 2 ^ wit.cfg.addrBits) ∧
    (∀ p ∈ [((0xFFFF : Word), (65 : Word)), (0x10, 0)], p.1.toNat < 2 ^ wit.cfg.addrBits) ∧
    (0xFFFF : Word).toNat < 2 ^ wit.cfg.addrBits ∧ (∃ h, leastFree wit h) ∧ 112 ≤ wit.poolFree.toNat :=
  ⟨wit_inv, by simp, by simp [wit], by decide, ⟨8, witness_leastFree⟩, by decide⟩

theorem witness_HmacInit :
    Inv (small 176) ∧ failure (.hmacInit 0 0 0) (small 176) = none ∧
    failure (.hmacInit 0 0 65) wit = none ∧
    failure (.hmacInit 0xFF 0 0) (small 176) = some .unsupportedAlgorithm ∧
    Inv (small 175) ∧ failure (.hmacInit 0 0 0) (small 175) = some .outOfMemory :=
  ⟨small_inv (by decide), by decide +kernel, by decide +kernel, by decide +kernel, small_inv (by decide),
    by decide +kernel⟩

theorem witness_HmacUpdate :
    failure (.hmacUpdate 1 0xFFFF 2) wit = none ∧ failure (.hmacUpdate 6 0 0) wit = some .invalidState ∧
    failure (.hmacUpdate 0 0 0) wit = some .invalidArgument := by decide +kernel

theorem witness_HmacFinal :
    failure (.hmacFinal 1 0xFFFF) wit = none ∧ failure (.hmacFinal 6 0) wit = some .invalidState ∧
    failure (.hmacFinal 9 0) wit = some .invalidArgument := by decide +kernel

theorem witness_HmacOfTheData :
    Inv wit ∧ (0x10 : Word).toNat < 2 ^ wit.cfg.addrBits ∧
    (∀ p ∈ [((0xFFFF : Word), (65 : Word)), (0x10, 0)], p.1.toNat < 2 ^ wit.cfg.addrBits) ∧
    (∃ h, leastFree wit h) ∧ 176 ≤ wit.poolFree.toNat :=
  ⟨wit_inv, by decide, by simp [wit], ⟨8, witness_leastFree⟩, by decide⟩

/-- 352 scratch bytes are enough, 351 are not, none are needed for `out_len = 0`. -/
theorem witness_Pbkdf2 :
    Inv (small 352) ∧ failure (.pbkdf2Derive 0 0 0 0 0 0 33 1) (small 352) = none ∧
    Inv (small 351) ∧ failure (.pbkdf2Derive 0 0 0 0 0 0 33 1) (small 351) = some .outOfMemory ∧
    failure (.pbkdf2Derive 0 0 0 0 0 0 0 1) (small 351) = none ∧
    failure (.pbkdf2Derive 0 0 0 0 0 0 0 0) (small 351) = some .invalidArgument ∧
    failure (.pbkdf2Derive 1 0 0 0 0 0 0 0) (small 351) = some .unsupportedAlgorithm :=
  ⟨small_inv (by decide), by decide +kernel, small_inv (by decide), by decide +kernel, by decide +kernel,
    by decide +kernel, by decide +kernel⟩

theorem witness_KeySchedule :
    ∀ n ∈ [16, 24, 32], (List.replicate n (0 : Byte)).length ∈ [16, 24, 32] := by decide

theorem witness_GcmInit :
    Inv (small 296) ∧ failure (.gcmInit 0 0 0 16 0 1) (small 296) = none ∧
    failure (.gcmInit 0 4 0 32 0 12) wit = none ∧ failure (.gcmInit 0 13 0 24 0 12) wit = none ∧
    Inv (small 359) ∧ failure (.gcmInit 0 16 0 32 0 12) (small 359) = some .outOfMemory ∧
    failure (.gcmInit 1 0 0 15 0 0) wit = some .unsupportedAlgorithm ∧
    failure (.gcmInit 0 0 0 15 0 12) wit = some .invalidArgument ∧
    failure (.gcmInit 0 0 0 16 0 0) wit = some .invalidArgument ∧
    failure (.gcmInit 0 17 0 16 0 12) wit = some .invalidArgument :=
  ⟨small_inv (by decide), by decide +kernel, by decide +kernel, by decide +kernel, small_inv (by decide),
    by decide +kernel, by decide +kernel, by decide +kernel, by decide +kernel, by decide +kernel⟩

theorem witness_GcmAad :
    failure (.gcmAad 2 0xFFFF 17) wit = none ∧ failure (.gcmAad 3 0 0) wit = some .invalidState ∧
    failure (.gcmAad 4 0 0) wit = some .invalidState ∧
    failure (.gcmAad 0 0 0) wit = some .invalidArgument := by decide +kernel

theorem witness_rbo : readBeforeOverwritten wit.cfg 0x10 0x10 17 := by
  unfold readBeforeOverwritten; decide +kernel

/-- From AAD and from CIPHER, in place; an overlap the disjointness clause leaves to the byte order. -/
theorem witness_GcmEncrypt :
    failure (.gcmEncrypt 2 0x10 17 0x10) wit = none ∧ failure (.gcmEncrypt 3 0x10 17 0x11) wit = none ∧
    readBeforeOverwritten wit.cfg (0x10 : Word).toNat (0x10 : Word).toNat (17 : Word).toNat ∧
    ¬ readBeforeOverwritten wit.cfg (0x10 : Word).toNat (0x11 : Word).toNat (17 : Word).toNat ∧
    failure (.gcmEncrypt 4 0 0 0) wit = some .invalidState ∧
    failure (.gcmEncrypt 6 0 0 0) wit = some .invalidArgument ∧
    failure (.gcmEncrypt 2 0 0 0x10000) wit = some .invalidArgument :=
  ⟨by decide +kernel, by decide +kernel, witness_rbo,
    fun h => h 1 (by decide) 0 (by decide) (by decide), by decide +kernel, by decide +kernel,
    by decide +kernel⟩

theorem witness_GcmDecrypt :
    failure (.gcmDecrypt 2 0x10 17 0x10) wit = none ∧ failure (.gcmDecrypt 3 0x10 17 0x11) wit = none ∧
    failure (.gcmDecrypt 4 0 0 0) wit = some .invalidState ∧
    failure (.gcmDecrypt 6 0 0 0) wit = some .invalidArgument := by decide +kernel

theorem witness_SplitCipher :
    (0x0001 : Word).toNat = ((0xFFFF : Word).toNat + (2 : Word).toNat) % 2 ^ wit.cfg.addrBits ∧
    (0x0012 : Word).toNat = ((0x0010 : Word).toNat + (2 : Word).toNat) % 2 ^ wit.cfg.addrBits ∧
    (19 : Word).toNat = (2 : Word).toNat + (17 : Word).toNat := by decide

theorem witness_GcmDigest :
    failure (.gcmDigest 2 0xFFFF) wit = none ∧ failure (.gcmDigest 3 0) wit = none ∧
    failure (.gcmDigest 4 0) wit = some .invalidState ∧
    failure (.gcmDigest 5 0) wit = some .invalidArgument := by decide +kernel

/-- Both outcomes of the comparison are in the tests above (G1's tag, and the tag with one byte changed). -/
theorem witness_GcmVerify :
    failure (.gcmVerify 2 0xFFFF) wit = none ∧ failure (.gcmVerify 3 0) wit = none ∧
    failure (.gcmVerify 4 0) wit = some .invalidState ∧
    failure (.gcmVerify 8 0) wit = some .invalidArgument := by decide +kernel

theorem witness_Disjoint :
    disjoint wit.cfg 0x10 17 0x21 17 ∧ disjoint wit.cfg 0x21 17 0x40 17 ∧
    disjoint wit.cfg 0x60 16 0x40 17 ∧ disjoint wit.cfg 0x10 17 0xFFF8 16 := by
  unfold disjoint; decide +kernel

theorem witness_SealOpen :
    Inv wit ∧ (∀ a ∈ [(0x10 : Word), 0x20, 0xFFFF, 0x10, 0x10, 0xFFF8], a.toNat < 2 ^ wit.cfg.addrBits) ∧
    (24 : Word).toNat ∈ [16, 24, 32] ∧ (12 : Word) ≠ 0 ∧ (∃ h, leastFree wit h) ∧
    120 + 16 * ((24 : Word).toNat / 4 + 7) ≤ wit.poolFree.toNat ∧
    readBeforeOverwritten wit.cfg (0x10 : Word).toNat (0x10 : Word).toNat (17 : Word).toNat ∧
    disjoint wit.cfg (0x10 : Word).toNat (17 : Word).toNat (0xFFF8 : Word).toNat 16 :=
  ⟨wit_inv, by simp [wit], by decide, by decide, ⟨8, witness_leastFree⟩, by decide, witness_rbo,
    witness_Disjoint.2.2.2⟩

/-- A machine with one free slot, just the pool of a 16-byte key, and G1's tag at 0x100. -/
def openState : State :=
  { small 296 with mem := cells 0x100 [0x58, 0xe2, 0xfc, 0xce, 0xfa, 0x7e, 0x30, 0x61, 0x36, 0x7f, 0x1d, 0x57, 0xa4, 0xe7, 0x45, 0x5a] }

theorem openState_inv : Inv openState where
  params := by decide
  table := rfl
  pool := by decide
  contexts := (small_inv (n := 296) (by decide)).contexts
  status := ⟨.ok, noHandle, rfl, .inl rfl⟩
  memory := by decide +kernel
  memoryBelow := by decide +kernel
  history := by simp [openState, small, resetWith, State.reset]

/-- GCM_SEAL and GCM_OPEN with the least pool of a 16-byte key, a zero key and IV, no data. The tag at 0x100
is G1's, so that GCM_OPEN's agrees there; at 0x200 it does not. -/
theorem witness_SealOpen_boundary :
    let k := gcmKeyOf (buffer openState (0 : Word).toNat (16 : Word).toNat)
      (buffer openState (0x20 : Word).toNat (12 : Word).toNat)
    let ad := buffer openState (0x40 : Word).toNat (0 : Word).toNat
    let ct := buffer openState (0x50 : Word).toNat (0 : Word).toNat
    Inv openState ∧
    (∀ a ∈ [(0 : Word), 0x20, 0x40, 0x50, 0x60, 0x100, 0x200], a.toNat < 2 ^ openState.cfg.addrBits) ∧
    (16 : Word).toNat ∈ [16, 24, 32] ∧ (12 : Word) ≠ 0 ∧ (∃ h, leastFree openState h) ∧
    120 + 16 * ((16 : Word).toNat / 4 + 7) ≤ openState.poolFree.toNat ∧
    readBeforeOverwritten openState.cfg (0x50 : Word).toNat (0x60 : Word).toNat (0 : Word).toNat ∧
    disjoint openState.cfg (0x60 : Word).toNat (0 : Word).toNat (0x100 : Word).toNat 16 ∧
    disjoint openState.cfg (0x60 : Word).toNat (0 : Word).toNat (0x200 : Word).toNat 16 ∧
    buffer openState (0x100 : Word).toNat 16 = k.tag ad ct ∧
    buffer openState (0x200 : Word).toNat 16 ≠ k.tag ad ct := by
  refine ⟨openState_inv, by simp [openState, small, resetWith], by decide, by decide,
    ⟨0, rfl, fun j hj => absurd hj (Nat.not_lt_zero j)⟩, by decide, ?_, ?_, ?_, by decide +kernel,
    by decide +kernel⟩
  · unfold readBeforeOverwritten; decide +kernel
  · unfold disjoint; decide +kernel
  · unfold disjoint; decide +kernel

theorem witness_DecryptUndoesEncrypt_context :
    Inv wit ∧ (2 : Byte) ≠ 7 ∧ wit.ctx[(2 : Byte).toNat]? = some (.gcm zeroCtx) ∧
    wit.ctx[(7 : Byte).toNat]? = some (.gcm zeroCtx) ∧ zeroCtx.phase ≠ .done :=
  ⟨wit_inv, by decide, rfl, rfl, by simp [zeroCtx, gcmInitCtx]⟩

/-- The buffers apart from each other. -/
theorem witness_DecryptUndoesEncrypt :
    (∀ a ∈ [(0x10 : Word), 0x21, 0x40, 0x60], a.toNat < 2 ^ wit.cfg.addrBits) ∧
    (17 : Word).toNat ≤ 2 ^ wit.cfg.addrBits ∧ zeroCtx.tagLen.toNat ≤ 2 ^ wit.cfg.addrBits ∧
    readBeforeOverwritten wit.cfg (0x10 : Word).toNat (0x21 : Word).toNat (17 : Word).toNat ∧
    readBeforeOverwritten wit.cfg (0x21 : Word).toNat (0x40 : Word).toNat (17 : Word).toNat ∧
    disjoint wit.cfg (0x60 : Word).toNat zeroCtx.tagLen.toNat (0x40 : Word).toNat (17 : Word).toNat := by
  refine ⟨by simp [wit], by decide, by decide +kernel, ?_, ?_, witness_Disjoint.2.2.1⟩ <;>
    (unfold readBeforeOverwritten; decide +kernel)

/-- Both transforms in place, and the tag up to the plaintext's first byte. -/
theorem witness_DecryptUndoesEncrypt_inPlace :
    (∀ a ∈ [(0x10 : Word), 0], a.toNat < 2 ^ wit.cfg.addrBits) ∧
    (17 : Word).toNat ≤ 2 ^ wit.cfg.addrBits ∧ zeroCtx.tagLen.toNat ≤ 2 ^ wit.cfg.addrBits ∧
    readBeforeOverwritten wit.cfg (0x10 : Word).toNat (0x10 : Word).toNat (17 : Word).toNat ∧
    disjoint wit.cfg (0 : Word).toNat zeroCtx.tagLen.toNat (0x10 : Word).toNat (17 : Word).toNat := by
  refine ⟨by simp [wit], by decide, by decide +kernel, witness_rbo, ?_⟩
  show disjoint wit.cfg 0 16 0x10 17
  unfold disjoint; decide +kernel

/-! ### The window in the host's address space -/

/-- Both ends of the window, both neighbours, and no `CORE_BASE`. -/
theorem witness_WindowLiesAtCoreBase :
    wit.cfg.coreBase = some 0x40000000 ∧ 0x40000000 = 0x40000000 + (0x00 : Byte).toNat ∧
    0x400000FF = 0x40000000 + (0xFF : Byte).toNat ∧
    (∀ addr ∈ [0x3FFFFFFF, 0x40000100], ∀ base, wit.cfg.coreBase = some base →
      addr < base ∨ base + 256 ≤ addr) ∧
    (∀ addr base : Nat, State.reset.cfg.coreBase = some base → addr < base ∨ base + 256 ≤ addr) := by
  simp [wit, State.reset, Params.default]

end Sys2Proof.Tests
end

section
/-! Proofs of the scope family (00_scope): the state after reset, and where the host's address space holds the
register window. -/

namespace Sys2Proof.Machine

/-! ## One host access at a time -/

/-- A step is the host's next access (R22, R67). -/
theorem step_host_cons (s : State) (a : HostAccess) (rest : List HostAccess) :
    step { s with host := a :: rest } = hostAccess a { s with host := rest } := rfl

theorem hostAccess_busRead (width : AccessWidth) (addr : Nat) (s : State) :
    hostAccess (.busRead width addr) s =
      atHostAddress s addr fun off => hostAccess (.windowRead width off) s := rfl

theorem hostAccess_busWrite (width : AccessWidth) (addr : Nat) (v : Word) (s : State) :
    hostAccess (.busWrite width addr v) s =
      atHostAddress s addr fun off => hostAccess (.windowWrite width off v) s := rfl

/-! ## The window in the host's address space (R58, R80) -/

theorem windowOffset?_eq_none {p : Params} {addr : Nat}
    (h : ∀ base, p.coreBase = some base → addr < base ∨ base + 256 ≤ addr) :
    windowOffset? p addr = none := by
  cases hb : p.coreBase with
  | none => exact windowOffset?_unmapped hb addr
  | some base => exact windowOffset?_outside hb (h base hb)

theorem atHostAddress_base {s : State} {base : Nat} (h : s.cfg.coreBase = some base) (off : Byte)
    (k : Byte → Result) : atHostAddress s (base + off.toNat) k = k off := by
  simp [atHostAddress, windowOffset?_base h]

theorem atHostAddress_outside {s : State} {addr : Nat}
    (h : ∀ base, s.cfg.coreBase = some base → addr < base ∨ base + 256 ≤ addr) (k : Byte → Result) :
    atHostAddress s addr k = .refused .hostAddressNotInWindow := by
  simp [atHostAddress, windowOffset?_eq_none h]

/-- Settles O55: a bus access is `atHostAddress` of the window access, which the address decides. -/
theorem windowLiesAtCoreBase : Obligations.WindowLiesAtCoreBase := by
  intro s width addr v rest
  simp only [step_host_cons, hostAccess_busRead, hostAccess_busWrite]
  refine ⟨?inside, ?outside⟩
  case inside =>
    rintro base hb off rfl
    exact ⟨atHostAddress_base hb off _, atHostAddress_base hb off _⟩
  case outside =>
    intro h
    exact ⟨atHostAddress_outside h _, atHostAddress_outside h _⟩

/-! ## The state after reset (R34) -/

theorem wordAt_zero : ∀ i < 8, Spec.wordAt ⟨0, 0, 0, 0, 0, 0, 0, 0⟩ i = 0 := by decide

theorem windowRead_coreId (s : State) : windowRead s 0x2C = coreId := rfl

theorem windowRead_coreCfg (s : State) : windowRead s 0x30 = coreCfg s.cfg := rfl

theorem coreCfg_default : coreCfg Params.default = 0x08000108 := by decide

/-- Settles O14: `State.reset` field by field; the constant registers are read at their offsets (R84). -/
theorem stateAfterReset : Obligations.StateAfterReset := by
  refine ⟨rfl, wordAt_zero, rfl, List.length_replicate, ?free, rfl, windowRead_coreId _, ?cfg⟩
  case free => exact fun _ hx => List.eq_of_mem_replicate hx
  case cfg => exact (windowRead_coreCfg _).trans coreCfg_default

end Sys2Proof.Machine
end

section
/-! Proofs of the state family (10_state). One statement says what a command can do to the state
(`exec_ends`): it leaves a frame alone, and it moves the context table and the pool in one of four ways. The
family's statements follow from it. -/

namespace Sys2Proof.Machine

open Sys2Proof.Spec

/-! ## The frame of every command -/

/-- What every command leaves: the window, the parameters and the host's side as they were (R21, R32), memory
in its form and below `2^ADDR_BITS` (R50), and no access recorded at or above it (R59). -/
structure Frame (s t : State) : Prop where
  cfg : t.cfg = s.cfg
  w : t.w = s.w
  host : t.host = s.host
  readData : t.readData = s.readData
  memory : s.mem.wf = true → t.mem.wf = true
  memoryBelow : s.mem.below (2 ^ s.cfg.addrBits) = true → t.mem.below (2 ^ s.cfg.addrBits) = true
  history : ∀ a ∈ t.log, a ∈ s.log ∨ a.addr < 2 ^ s.cfg.addrBits

/-- The frame when memory and the access history did not move. -/
theorem Frame.of_eq {s t : State} (hc : t.cfg = s.cfg) (hw : t.w = s.w) (hh : t.host = s.host)
    (hr : t.readData = s.readData) (hm : t.mem = s.mem) (hl : t.log = s.log) : Frame s t where
  cfg := hc
  w := hw
  host := hh
  readData := hr
  memory := fun h => hm ▸ h
  memoryBelow := fun h => hm ▸ h
  history := fun _ ha => .inl (hl ▸ ha)

theorem Frame.trans {s t u : State} (h₁ : Frame s t) (h₂ : Frame t u) : Frame s u where
  cfg := h₂.cfg.trans h₁.cfg
  w := h₂.w.trans h₁.w
  host := h₂.host.trans h₁.host
  readData := h₂.readData.trans h₁.readData
  memory := fun h => h₂.memory (h₁.memory h)
  memoryBelow := fun h => h₁.cfg ▸ h₂.memoryBelow (h₁.cfg ▸ h₁.memoryBelow h)
  history := fun a ha => (h₂.history a ha).elim (h₁.history a) fun h => .inr (h₁.cfg ▸ h)

theorem Frame.withStatus (s : State) (code : StatusCode) (hnd : Byte) : Frame s (s.withStatus code hnd) :=
  .of_eq rfl rfl rfl rfl rfl rfl

theorem Frame.setSlot (s : State) (h : Nat) (slot : Slot) : Frame s (s.setSlot h slot) :=
  .of_eq rfl rfl rfl rfl rfl rfl

theorem Frame.release (s : State) (h : Nat) (slot : Slot) : Frame s (s.release h slot) :=
  .of_eq rfl rfl rfl rfl rfl rfl

theorem Frame.poolFree (s : State) (p : BitVec 16) : Frame s { s with poolFree := p } :=
  .of_eq rfl rfl rfl rfl rfl rfl

/-- `t` is `s` after accesses of the master port: a frame, with the context table and the pool left too. -/
structure BusOnly (s t : State) : Prop extends Frame s t where
  ctx : t.ctx = s.ctx
  poolFree : t.poolFree = s.poolFree

theorem BusOnly.refl (s : State) : BusOnly s s := ⟨.of_eq rfl rfl rfl rfl rfl rfl, rfl, rfl⟩

theorem BusOnly.trans {s t u : State} (h₁ : BusOnly s t) (h₂ : BusOnly t u) : BusOnly s u :=
  ⟨h₁.toFrame.trans h₂.toFrame, h₂.ctx.trans h₁.ctx, h₂.poolFree.trans h₁.poolFree⟩

/-- The accesses a read or a write adds to the history are those of a wrapped buffer (R59). -/
theorem addr_of_mem_history {s : State} {addr n : Nat} {mk : Nat → BusAccess} (hmk : ∀ a, (mk a).addr = a)
    {a : BusAccess} (ha : a ∈ s.log ++ (s.byteAddrs addr n).map mk) :
    a ∈ s.log ∨ a.addr < 2 ^ s.cfg.addrBits := by
  rcases List.mem_append.1 ha with h | h
  · exact .inl h
  · obtain ⟨x, hx, rfl⟩ := List.mem_map.1 h
    rw [hmk]
    exact .inr (s.byteAddrs_lt addr n x hx)

theorem BusOnly.afterRead (s : State) (addr n : Nat) : BusOnly s (s.afterRead addr n) where
  cfg := rfl
  w := rfl
  host := rfl
  readData := rfl
  memory := id
  memoryBelow := id
  history := fun _ => addr_of_mem_history fun _ => rfl
  ctx := rfl
  poolFree := rfl

theorem BusOnly.memWrite (s : State) (addr : Nat) (v : Bytes) : BusOnly s (s.memWrite addr v) where
  cfg := rfl
  w := rfl
  host := rfl
  readData := rfl
  memory := fun h => State.memWrite_wf h addr v
  memoryBelow := fun h => State.memWrite_below h addr v
  history := fun _ => addr_of_mem_history fun _ => rfl
  ctx := rfl
  poolFree := rfl

/-! A slot is set and the master port used in either order. -/

theorem State.memWrite_setSlot (s : State) (h : Nat) (slot : Slot) (addr : Nat) (v : Bytes) :
    (s.setSlot h slot).memWrite addr v = (s.memWrite addr v).setSlot h slot := rfl

theorem State.afterRead_setSlot (s : State) (h : Nat) (slot : Slot) (addr n : Nat) :
    (s.setSlot h slot).afterRead addr n = (s.afterRead addr n).setSlot h slot := rfl

/-! ## What a command makes of one context -/

/-- A context's command takes the context `a` to `b`: a legal move of R30 to a context of the same size. -/
structure Forward (a b : Slot) : Prop where
  live : a ≠ .free
  move : mayMove a b
  wf : b.wf
  size : b.size = a.size

/-- What a creating command puts in a FREE slot. -/
structure Fresh (x : Slot) : Prop where
  move : mayMove .free x
  wf : x.wf

theorem mayMove_refl (a : Slot) : mayMove a a := by
  cases a with
  | free => trivial
  | hash c => cases c <;> simp [mayMove]
  | hmac c => cases c <;> simp [mayMove]
  | gcm g => simp [mayMove]

/-! ### Hash and HMAC contexts -/

theorem hashUpdate_forward {c : HashLive} {d : HashAlg} (hd : lookupAlg c.alg = some d) (s : Bytes)
    (hc : Slot.wf (.hash (.active c))) :
    Forward (.hash (.active c)) (.hash (.active (hashUpdate d c s))) where
  live := by simp
  move := trivial
  wf := hashUpdate_wf hd hc s
  size := by simp [Slot.size, hashUpdate_fields]

theorem hashDigest_forward {c : HashLive} (hc : Slot.wf (.hash (.active c))) :
    Forward (.hash (.active c)) (.hash (.final c.alg c.digestLen c.blockSize)) where
  live := by simp
  move := trivial
  wf := by
    obtain ⟨d, hd, hdigest, hblock, -⟩ := hc
    exact ⟨d, hd, hdigest, hblock⟩
  size := rfl

theorem hmacUpdate_forward {alg : Byte} {inner : HashLive} {tpl : PrfTemplate} {d : HashAlg}
    (hd : lookupAlg alg = some d) (s : Bytes) (hc : Slot.wf (.hmac (.active alg inner tpl))) :
    Forward (.hmac (.active alg inner tpl)) (.hmac (.active alg (hashUpdate d inner s) tpl)) where
  live := by simp
  move := trivial
  wf := by
    obtain ⟨rfl, hinner, htpl⟩ := hc
    exact ⟨(hashUpdate_fields d inner s).1, hashUpdate_wf hd hinner s, htpl⟩
  size := rfl

theorem hmacFinal_forward {alg : Byte} {inner : HashLive} {tpl : PrfTemplate} {d : HashAlg}
    (hd : lookupAlg alg = some d) : Forward (.hmac (.active alg inner tpl)) (.hmac (.final alg)) where
  live := by simp
  move := trivial
  wf := ⟨d, hd⟩
  size := rfl

theorem hashInit_fresh : Fresh (.hash (.active (hashInit sha256))) := ⟨trivial, hashInit_wf⟩

theorem hmacInit_fresh (key : Bytes) : Fresh (.hmac (.active sha256.id
    (hmacInner sha256 (hmacTemplate sha256 key).istate) (hmacTemplate sha256 key))) where
  move := trivial
  wf := by
    obtain ⟨hi, ho⟩ := hmacTemplate_lengths key
    exact ⟨rfl, hmacInner_wf hi, sha256, rfl, hi, ho⟩

/-! ### GCM contexts -/

@[simp] theorem gcmAadByte_nr (g : GcmCtx) (b : Byte) : (gcmAadByte g b).nr = g.nr := by
  unfold gcmAadByte
  dsimp only
  split <;> rfl

@[simp] theorem gcmAad_nr (g : GcmCtx) (s : Bytes) : (s.foldl gcmAadByte g).nr = g.nr := by
  induction s generalizing g with
  | nil => rfl
  | cons b s ih => simp [ih]

@[simp] theorem gcmEnterCipher_nr (g : GcmCtx) : (gcmEnterCipher g).nr = g.nr := by
  unfold gcmEnterCipher
  split
  · obtain ⟨y, hy⟩ := ghashFlush_fields g g.aadLen.toNat
    rw [hy]
  · rfl

@[simp] theorem gcmCryptByte_nr (g : GcmCtx) (b : Byte) (enc : Bool) :
    (gcmCryptByte g b enc).2.nr = g.nr := by
  have hks : (gcmKeystream g).2.nr = g.nr := by unfold gcmKeystream; split <;> rfl
  unfold gcmCryptByte
  dsimp only
  split <;> exact hks

@[simp] theorem gcmTag_nr (g : GcmCtx) : (gcmTag g).2.nr = g.nr := by
  obtain ⟨y, hy⟩ := gcmTag_fields g
  rw [hy]

/-- A live context's command: the phase does not go back, the key stays. -/
theorem gcm_forward {g g' : GcmCtx} (hp : g.phase ≠ .done) (hnr : g'.nr = g.nr)
    (hphase : g.phase.code ≤ g'.phase.code) (hg' : g'.wf) : Forward (.gcm g) (.gcm g') where
  live := by simp
  move := ⟨hphase, fun h => absurd h hp⟩
  wf := hg'
  size := by simp [Slot.size, hnr]

/-- No phase of a live context is after CIPHER (R28). -/
theorem GcmPhase.code_le_cipher : ∀ {p : GcmPhase}, p ≠ .done → p.code ≤ GcmPhase.cipher.code
  | .init, _ | .aad, _ | .cipher, _ => by decide
  | .done, h => absurd rfl h

/-- No phase is after DONE (R28). -/
theorem GcmPhase.code_le_done (p : GcmPhase) : p.code ≤ GcmPhase.done.code := by cases p <;> decide

theorem gcmAad_forward {g : GcmCtx} (hp : g.phase = .aad) (s : Bytes) (hg : g.wf) :
    Forward (.gcm g) (.gcm (s.foldl gcmAadByte g)) := by
  obtain ⟨hwf, hphase⟩ := gcmAad_wf hg hp s
  exact gcm_forward (by simp [hp]) (gcmAad_nr g s) (by simp [hp, hphase]) hwf

theorem gcmTag_forward {g : GcmCtx} (hp : g.phase ≠ .done) (hg : g.wf) :
    Forward (.gcm g) (.gcm (gcmTag g).2) := by
  obtain ⟨hwf, hphase⟩ := gcmTag_wf hg
  exact gcm_forward hp (gcmTag_nr g) (hphase ▸ g.phase.code_le_done) hwf

/-- The byte loop of a cipher command uses the master port alone (R232, R233). -/
theorem gcmCryptFold_busOnly (enc : Bool) (input out : Nat) (ks : List Nat) (gs : GcmCtx × State) :
    BusOnly gs.2 (ks.foldl (gcmCryptStep enc input out) gs).2 := by
  induction ks generalizing gs with
  | nil => exact .refl _
  | cons k ks ih =>
    have hstep : BusOnly gs.2 (gcmCryptStep enc input out gs k).2 :=
      (BusOnly.afterRead _ _ _).trans (.memWrite _ _ _)
    exact hstep.trans (ih _)

/-- The byte loop of a cipher command keeps a context in CIPHER well formed, under its key (R216). -/
theorem gcmCryptFold_wf (enc : Bool) (input out : Nat) (ks : List Nat) {gs : GcmCtx × State}
    (hg : gs.1.wf) (hp : gs.1.phase = .cipher) :
    (ks.foldl (gcmCryptStep enc input out) gs).1.wf ∧
      (ks.foldl (gcmCryptStep enc input out) gs).1.phase = .cipher ∧
      (ks.foldl (gcmCryptStep enc input out) gs).1.nr = gs.1.nr := by
  induction ks generalizing gs with
  | nil => exact ⟨hg, hp, rfl⟩
  | cons k ks ih =>
    obtain ⟨hwf, hphase⟩ := gcmCryptByte_wf hg hp (gs.2.mem.read (gs.2.wrap (input + k))) enc
    obtain ⟨hwf', hphase', hnr⟩ := ih (gs := gcmCryptStep enc input out gs k) hwf hphase
    exact ⟨hwf', hphase', hnr.trans (gcmCryptByte_nr _ _ _)⟩

theorem gcmCrypt_forward {g : GcmCtx} (hp : g.phase ≠ .done) (enc : Bool) (input out : Nat)
    (ks : List Nat) (s : State) (hg : g.wf) :
    Forward (.gcm g) (.gcm (ks.foldl (gcmCryptStep enc input out) (gcmEnterCipher g, s)).1) := by
  obtain ⟨hwf, hphase⟩ := gcmEnterCipher_wf hg hp
  obtain ⟨hwf', hphase', hnr⟩ :=
    gcmCryptFold_wf enc input out ks (gs := (gcmEnterCipher g, s)) hwf hphase
  exact gcm_forward hp (hnr.trans (gcmEnterCipher_nr g)) (hphase' ▸ GcmPhase.code_le_cipher hp) hwf'

theorem gcmInitCtx_fresh {t : Byte} {key iv : Bytes} (hk : key.length ∈ aesKeyLens)
    (ht : t ∈ tagLenLegal) : Fresh (.gcm (gcmInitCtx t key iv)) := ⟨rfl, gcmInitCtx_wf hk ht⟩

theorem gcmInitCtx_size {t : Byte} {key iv : Bytes} (hk : key.length ∈ aesKeyLens) (ht : t ∈ tagLenLegal) :
    Slot.size (.gcm (gcmInitCtx t key iv)) = sizeGcm (roundsOf key.length) := by
  have hnr : (gcmInitCtx t key iv).nr.toNat = _ := (gcmInitCtx_wf hk ht).rounds
  have hlen : (gcmInitCtx t key iv).keyLen.toNat = key.length := by
    have hlt : ∀ n ∈ aesKeyLens, n < 256 := by decide
    simpa [gcmInitCtx] using hlt _ hk
  rw [Slot.size, hnr, hlen]

end Sys2Proof.Machine
end

section
/-! What each command does to the state, command by command, and the statements that follow from it at once. -/

namespace Sys2Proof.Machine

open Sys2Proof.Spec

/-! ## The four ways a command moves the context table and the pool -/

/-- How the command `i` takes the table, the pool and `STATUS` from `s` to `t`: it leaves both, it fills the
least FREE slot (R100), it takes one context forward (R30), or it releases one (R101). -/
inductive TableMove (i : Instr) (s t : State) : Prop
  | kept (hctx : t.ctx = s.ctx) (hpool : t.poolFree = s.poolFree)
      (hstatus : ∃ code, t.status = statusWord code noHandle)
  | created (h : Nat) (x : Slot) (hi : creates i = true) (hfree : s.freeSlot? = some h)
      (hroom : x.size ≤ s.poolFree.toNat) (hx : Fresh x) (hctx : t.ctx = s.ctx.set h x)
      (hpool : t.poolFree = s.poolFree - BitVec.ofNat 16 x.size)
      (hstatus : t.status = statusWord .ok (BitVec.ofNat 8 h))
  | advanced (h : Nat) (a b : Slot) (ha : s.ctx[h]? = some a) (hab : a.wf → Forward a b)
      (hctx : t.ctx = s.ctx.set h b) (hpool : t.poolFree = s.poolFree)
      (hstatus : ∃ code, t.status = statusWord code noHandle)
  | released (h : Byte) (a : Slot) (hi : i = .ctxRelease h) (ha : s.ctx[h.toNat]? = some a)
      (hctx : t.ctx = s.ctx.set h.toNat .free) (hpool : t.poolFree = s.poolFree + BitVec.ofNat 16 a.size)
      (hstatus : ∃ code, t.status = statusWord code noHandle)

/-- The result of the command `i` from `s` is a next state, in the frame and by one of the four moves. -/
def Ends (i : Instr) (s : State) (r : Result) : Prop := ∃ t, r = .next t ∧ Frame s t ∧ TableMove i s t

section
variable {i : Instr} {s u : State}

theorem BusOnly.ends (hu : BusOnly s u) (code : StatusCode) :
    Ends i s (.next (u.withStatus code noHandle)) :=
  ⟨_, rfl, hu.toFrame.trans (.withStatus ..), .kept hu.ctx hu.poolFree ⟨code, rfl⟩⟩

theorem fail_ends (code : StatusCode) : Ends i s (fail code s) := (BusOnly.refl s).ends code

theorem BusOnly.ends_advanced (hu : BusOnly s u) {h : Byte} {a b : Slot} (ha : s.slotAt h = some a)
    (hab : a.wf → Forward a b) (code : StatusCode) :
    Ends i s (.next ((u.setSlot h.toNat b).withStatus code noHandle)) := by
  refine ⟨_, rfl, hu.toFrame.trans ((Frame.setSlot ..).trans (.withStatus ..)), ?_⟩
  exact .advanced h.toNat a b ha hab (by simp [hu.ctx]) hu.poolFree ⟨code, rfl⟩

/-- A creating command takes the pool bytes, uses the master port and sets the slot. -/
theorem BusOnly.ends_created {x : Slot} {size h : Nat}
    (hu : BusOnly { s with poolFree := s.poolFree - BitVec.ofNat 16 size } u) (hi : creates i = true)
    (hfree : s.freeSlot? = some h) (hroom : size ≤ s.poolFree.toNat) (hx : Fresh x)
    (hsize : x.size = size) : Ends i s (okHandle h (u.setSlot h x)) := by
  subst hsize
  refine ⟨_, rfl, (Frame.poolFree ..).trans (hu.toFrame.trans ((Frame.setSlot ..).trans (.withStatus ..))), ?_⟩
  exact .created h x hi hfree hroom hx (by simp [hu.ctx]) hu.poolFree rfl

end

/-! ## The commands -/

section
variable (s : State)

theorem execHashCreate_ends (alg : Byte) : Ends (.hashCreate alg) s (execHashCreate alg s) := by
  refine withAlg_elim (fail_ends _) fun d hd => ?_
  refine withAlloc_elim (fail_ends _) fun h hfree hroom => ?_
  obtain ⟨-, rfl⟩ := lookupAlg_some hd
  exact (BusOnly.refl _).ends_created rfl hfree hroom hashInit_fresh rfl

theorem execHashUpdate_ends (h : Byte) (data len : Word) :
    Ends (.hashUpdate h data len) s (execHashUpdate h data len s) := by
  refine requireAddrs_elim (fail_ends _) fun _ => ?_
  refine withHash_elim (fail_ends _) fun c hc => ?_
  cases c with
  | final => exact fail_ends _
  | active c =>
    refine withAlg_elim (fail_ends _) fun d hd => ?_
    exact (BusOnly.afterRead ..).ends_advanced hc (hashUpdate_forward hd _) _

theorem execHashDigest_ends (h : Byte) (out : Word) :
    Ends (.hashDigest h out) s (execHashDigest h out s) := by
  refine requireAddrs_elim (fail_ends _) fun _ => ?_
  refine withHash_elim (fail_ends _) fun c hc => ?_
  cases c with
  | final => exact fail_ends _
  | active c =>
    refine withAlg_elim (fail_ends _) fun d _ => ?_
    dsimp only
    rw [State.memWrite_setSlot]
    exact (BusOnly.memWrite ..).ends_advanced hc hashDigest_forward _

theorem execCtxRelease_ends (h : Byte) : Ends (.ctxRelease h) s (execCtxRelease h s) := by
  refine withSlot_elim (fail_ends _) fun a ha _ => ?_
  exact ⟨_, rfl, (Frame.release ..).trans (.withStatus ..), .released h a rfl ha rfl rfl ⟨_, rfl⟩⟩

theorem execHmacInit_ends (alg : Byte) (key keyLen : Word) :
    Ends (.hmacInit alg key keyLen) s (execHmacInit alg key keyLen s) := by
  refine requireAddrs_elim (fail_ends _) fun _ => ?_
  refine withAlg_elim (fail_ends _) fun d hd => ?_
  refine withAlloc_elim (fail_ends _) fun h hfree hroom => ?_
  obtain ⟨-, rfl⟩ := lookupAlg_some hd
  exact (BusOnly.afterRead ..).ends_created rfl hfree hroom (hmacInit_fresh _) rfl

theorem execHmacUpdate_ends (h : Byte) (data len : Word) :
    Ends (.hmacUpdate h data len) s (execHmacUpdate h data len s) := by
  refine requireAddrs_elim (fail_ends _) fun _ => ?_
  refine withHmac_elim (fail_ends _) fun c hc => ?_
  cases c with
  | final => exact fail_ends _
  | active alg inner tpl =>
    refine withAlg_elim (fail_ends _) fun d hd => ?_
    exact (BusOnly.afterRead ..).ends_advanced hc (hmacUpdate_forward hd _) _

theorem execHmacFinal_ends (h : Byte) (out : Word) :
    Ends (.hmacFinal h out) s (execHmacFinal h out s) := by
  refine requireAddrs_elim (fail_ends _) fun _ => ?_
  refine withHmac_elim (fail_ends _) fun c hc => ?_
  cases c with
  | final => exact fail_ends _
  | active alg inner tpl =>
    refine withAlg_elim (fail_ends _) fun d hd => ?_
    dsimp only
    rw [State.memWrite_setSlot]
    exact (BusOnly.memWrite ..).ends_advanced hc (fun _ => hmacFinal_forward hd) _

/-- The output blocks are stored through the master port (R171). -/
theorem pbkdf2Fold_busOnly (d : HashAlg) (x : Pbkdf2Scratch) (iter out outLen : Nat) (ks : List Nat) :
    BusOnly s (ks.foldl (pbkdf2WriteBlock d x iter out outLen) s) := by
  induction ks generalizing s with
  | nil => exact .refl s
  | cons k ks ih => exact (BusOnly.memWrite ..).trans (ih _)

theorem execPbkdf2Derive_ends (alg : Byte) (pw pwLen salt saltLen out outLen iter : Word) :
    Ends (.pbkdf2Derive alg pw pwLen salt saltLen out outLen iter) s
      (execPbkdf2Derive alg pw pwLen salt saltLen out outLen iter s) := by
  refine requireAddrs_elim (fail_ends _) fun _ => ?_
  refine withAlg_elim (fail_ends _) fun d _ => ?_
  refine requireArg_elim (fail_ends _) fun _ => ?_
  split
  · exact (BusOnly.refl s).ends _
  split
  · exact fail_ends _
  · have hreads := (BusOnly.afterRead s pw.toNat pwLen.toNat).trans (.afterRead _ salt.toNat saltLen.toNat)
    exact (hreads.trans (pbkdf2Fold_busOnly ..)).ends _

theorem execGcmInit_ends (cipher tagLen : Byte) (key keyLen iv ivLen : Word) :
    Ends (.gcmInit cipher tagLen key keyLen iv ivLen) s
      (execGcmInit cipher tagLen key keyLen iv ivLen s) := by
  refine requireAddrs_elim (fail_ends _) fun _ => ?_
  split
  · exact fail_ends _
  refine requireArg_elim (fail_ends _) fun hkey => ?_
  refine requireArg_elim (fail_ends _) fun _ => ?_
  refine requireArg_elim (fail_ends _) fun htag => ?_
  refine withAlloc_elim (fail_ends _) fun h hfree hroom => ?_
  have htag' : tagLenOf tagLen ∈ tagLenLegal := by simpa using htag
  have hkey' (t : State) : (t.bytesAt key.toNat keyLen.toNat).length ∈ aesKeyLens := by
    simpa using hkey
  refine ((BusOnly.afterRead ..).trans (.afterRead ..)).ends_created rfl hfree hroom
    (gcmInitCtx_fresh (hkey' _) htag') ?size
  rw [gcmInitCtx_size (hkey' _) htag', State.bytesAt_length]

theorem execGcmAad_ends (h : Byte) (data len : Word) :
    Ends (.gcmAad h data len) s (execGcmAad h data len s) := by
  refine requireAddrs_elim (fail_ends _) fun _ => ?_
  refine withGcm_elim (fail_ends _) fun g hg => ?_
  split
  · exact fail_ends _
  · rename_i hp
    exact (BusOnly.afterRead ..).ends_advanced hg (gcmAad_forward (not_not.1 hp) _) _

theorem gcmCrypt_ends (i : Instr) (enc : Bool) (h : Byte) (input len out : Word) :
    Ends i s (gcmCrypt enc h input len out s) := by
  refine requireAddrs_elim (fail_ends _) fun _ => ?_
  refine withGcm_elim (fail_ends _) fun g hg => ?_
  split
  · exact fail_ends _
  · rename_i hp
    have hbus := gcmCryptFold_busOnly enc input.toNat out.toNat (List.range len.toNat) (gcmEnterCipher g, s)
    exact hbus.ends_advanced hg (gcmCrypt_forward hp _ _ _ _ _) _

theorem execGcmDigest_ends (h : Byte) (tag : Word) :
    Ends (.gcmDigest h tag) s (execGcmDigest h tag s) := by
  refine requireAddrs_elim (fail_ends _) fun _ => ?_
  refine withGcm_elim (fail_ends _) fun g hg => ?_
  split
  · exact fail_ends _
  · rename_i hp
    dsimp only
    rw [State.memWrite_setSlot]
    exact (BusOnly.memWrite ..).ends_advanced hg (gcmTag_forward hp) _

theorem execGcmVerify_ends (h : Byte) (tag : Word) :
    Ends (.gcmVerify h tag) s (execGcmVerify h tag s) := by
  refine requireAddrs_elim (fail_ends _) fun _ => ?_
  refine withGcm_elim (fail_ends _) fun g hg => ?_
  split
  · exact fail_ends _
  · rename_i hp
    have hends : ∀ code, Ends (.gcmVerify h tag) s (.next ((((s.afterRead tag.toNat g.tagLen.toNat).setSlot
        h.toNat (.gcm (gcmTag g).2))).withStatus code noHandle)) :=
      (BusOnly.afterRead ..).ends_advanced hg (gcmTag_forward hp)
    dsimp only [memRead]
    rw [State.afterRead_setSlot]
    split <;> exact hends _

/-- Every command answers a next state, leaves the frame, and moves the table and the pool in one of four
ways. -/
theorem exec_ends (i : Instr) : Ends i s (exec i s) := by
  cases i with
  | hashCreate alg => exact execHashCreate_ends s alg
  | hashUpdate h data len => exact execHashUpdate_ends s h data len
  | hashDigest h out => exact execHashDigest_ends s h out
  | ctxRelease h => exact execCtxRelease_ends s h
  | hmacInit alg key keyLen => exact execHmacInit_ends s alg key keyLen
  | hmacUpdate h data len => exact execHmacUpdate_ends s h data len
  | hmacFinal h out => exact execHmacFinal_ends s h out
  | pbkdf2Derive alg pw pwLen salt saltLen out outLen iter =>
    exact execPbkdf2Derive_ends s alg pw pwLen salt saltLen out outLen iter
  | gcmInit cipher tagLen key keyLen iv ivLen => exact execGcmInit_ends s cipher tagLen key keyLen iv ivLen
  | gcmAad h data len => exact execGcmAad_ends s h data len
  | gcmEncrypt h input len out => exact gcmCrypt_ends s _ true h input len out
  | gcmDecrypt h input len out => exact gcmCrypt_ends s _ false h input len out
  | gcmDigest h tag => exact execGcmDigest_ends s h tag
  | gcmVerify h tag => exact execGcmVerify_ends s h tag
  | illegal opc => exact fail_ends _

end

theorem exec_next {i : Instr} {s t : State} (h : exec i s = .next t) : Frame s t ∧ TableMove i s t := by
  obtain ⟨t', ht', hmoves⟩ := exec_ends s i
  obtain rfl : t = t' := Host.Outcome.next.inj (h.symm.trans ht')
  exact hmoves

/-- Settles O15: the frame part of `exec_ends`. -/
theorem everyCommandEndsAndKeepsTheWindow : Obligations.EveryCommandEndsAndKeepsTheWindow := by
  intro i s
  obtain ⟨t, ht, hframe, -⟩ := exec_ends s i
  exact ⟨t, ht, hframe.w, hframe.cfg, hframe.host, hframe.readData⟩

/-- Settles O26: of the four moves only creation and release touch the pool. -/
theorem poolMovesOnlyByAllocationAndRelease : Obligations.PoolMovesOnlyByAllocationAndRelease := by
  intro i s t hcreates hrelease ht
  obtain ⟨-, hmove⟩ := exec_next ht
  cases hmove with
  | kept _ hpool _ => exact hpool
  | created _ _ hi => simp [hcreates] at hi
  | advanced _ _ _ _ _ _ hpool _ => exact hpool
  | released h _ hi => exact absurd hi (hrelease h)

end Sys2Proof.Machine
end

section
/-! The phases of a context (R30), and the invariant at reset and along every step. -/

namespace Sys2Proof.Machine

open Sys2Proof.Spec

/-! ## What becomes of one slot (R30) -/

/-- `STATUS.CODE` is the code the status word was made with (R23). -/
@[simp] theorem statusWord_code (code : StatusCode) (hnd : Byte) :
    (statusWord code hnd).extractLsb' 0 8 = code.code := by
  unfold statusWord
  ext i hi
  simp only [BitVec.getElem_extractLsb', BitVec.getLsbD_append]
  simp [hi]

theorem getElem?_set_cases {ctx : List Slot} {h : Nat} {a : Slot} (ha : ctx[h]? = some a) (k : Nat)
    (b : Slot) : (k = h ∧ (ctx.set k b)[h]? = some b) ∨ (ctx.set k b)[h]? = some a := by
  by_cases hk : k = h
  · subst hk
    obtain ⟨hlt, -⟩ := List.getElem?_eq_some_iff.1 ha
    exact .inl ⟨rfl, List.getElem?_set_self hlt⟩
  · exact .inr ((List.getElem?_set_ne hk).trans ha)

/-- The move of the table, seen at one slot. -/
theorem TableMove.slot {i : Instr} {s t : State} (hm : TableMove i s t) {h : Nat} {a : Slot}
    (ha : s.ctx[h]? = some a) : ∃ b, t.ctx[h]? = some b ∧ (b = a ∨
      (a = .free ∧ Fresh b ∧ creates i = true ∧ t.code = 0) ∨ (a.wf → Forward a b) ∨
      (b = .free ∧ ∃ hb, i = .ctxRelease hb ∧ hb.toNat = h)) := by
  cases hm with
  | kept hctx => exact ⟨a, hctx ▸ ha, .inl rfl⟩
  | created k x hi hfree _ hx hctx _ hstatus =>
    rw [hctx]
    rcases getElem?_set_cases ha k x with ⟨rfl, hnew⟩ | hold
    · have hfree' : a = .free := Option.some.inj (ha.symm.trans (freeSlot?_spec hfree).1)
      have hcode : t.code = 0 := by rw [State.code, hstatus, statusWord_code]; rfl
      exact ⟨x, hnew, .inr (.inl ⟨hfree', hx, hi, hcode⟩)⟩
    · exact ⟨a, hold, .inl rfl⟩
  | advanced k a' b ha' hab hctx =>
    rw [hctx]
    rcases getElem?_set_cases ha k b with ⟨rfl, hnew⟩ | hold
    · obtain rfl : a' = a := Option.some.inj (ha'.symm.trans ha)
      exact ⟨b, hnew, .inr (.inr (.inl hab))⟩
    · exact ⟨a, hold, .inl rfl⟩
  | released hb a' hi _ hctx =>
    rw [hctx]
    rcases getElem?_set_cases ha hb.toNat .free with ⟨hk, hnew⟩ | hold
    · exact ⟨.free, hnew, .inr (.inr (.inr ⟨rfl, hb, hi, hk⟩))⟩
    · exact ⟨a, hold, .inl rfl⟩

/-- Settles O21: each of the four things that can become of a slot is a legal move. -/
theorem phasesMoveForward : Obligations.PhasesMoveForward := by
  intro i s t hs ht h a ha
  obtain ⟨-, hmove⟩ := exec_next ht
  obtain ⟨b, hb, hcases⟩ := hmove.slot ha
  refine ⟨b, hb, ?_⟩
  rcases hcases with rfl | ⟨rfl, hx, hcreates, hcode⟩ | hab | ⟨rfl, hrelease⟩
  · exact ⟨.inl (mayMove_refl b), fun hfree hlive => absurd hfree hlive⟩
  · exact ⟨.inl hx.move, fun _ _ => ⟨hcreates, hcode⟩⟩
  · have hforward := hab (hs.contexts a (List.mem_of_getElem? ha))
    exact ⟨.inl hforward.move, fun hfree => absurd hfree hforward.live⟩
  · exact ⟨.inr ⟨rfl, hrelease⟩, fun _ hlive => absurd rfl hlive⟩

/-! ## The pool counter (R25) -/

@[simp] theorem Slot.size_free : Slot.size .free = 0 := rfl

/-- Replacing a context changes what the contexts hold by the difference of the sizes. -/
theorem poolUsed_set {ctx : List Slot} {h : Nat} {a : Slot} (ha : ctx[h]? = some a) (b : Slot) :
    poolUsed (ctx.set h b) + a.size = poolUsed ctx + b.size := by
  induction ctx generalizing h with
  | nil => simp at ha
  | cons x ctx ih =>
    cases h with
    | zero =>
      obtain rfl : x = a := by simpa using ha
      simp [poolUsed]
      omega
    | succ h =>
      have := ih (h := h) (by simpa using ha)
      simp [poolUsed] at this ⊢
      omega

theorem poolUsed_replicate_free (n : Nat) : poolUsed (List.replicate n .free) = 0 := by
  simp [poolUsed]

theorem toNat_sub_ofNat16 {p : BitVec 16} {n : Nat} (h : n ≤ p.toNat) :
    (p - BitVec.ofNat 16 n).toNat + n = p.toNat := by
  have := p.isLt
  rw [BitVec.toNat_sub, BitVec.toNat_ofNat]
  omega

theorem toNat_add_ofNat16 {p : BitVec 16} {n : Nat} (h : p.toNat + n < 2 ^ 16) :
    (p + BitVec.ofNat 16 n).toNat = p.toNat + n := by
  rw [BitVec.toNat_add, BitVec.toNat_ofNat]
  omega

theorem Params.legal_iff {p : Params} : p.legal = true ↔
    1 ≤ p.nCtx ∧ p.nCtx ≤ 255 ∧ p.poolBytes ≤ 65535 ∧ 1 ≤ p.addrBits ∧ p.addrBits ≤ 32 := by
  simp [Params.legal, and_assoc]

/-! ## The invariant over a command -/

section
variable {i : Instr} {s t : State}

/-- The status part of the invariant where the command returned no handle (R23). -/
theorem status_noHandle {n : Nat} (h : ∃ code, t.status = statusWord code noHandle) :
    ∃ code hnd, t.status = statusWord code hnd ∧ (hnd = noHandle ∨ hnd.toNat < n) := by
  obtain ⟨code, hcode⟩ := h
  exact ⟨code, noHandle, hcode, .inl rfl⟩

/-- A frame keeps the invariant when the table, the pool and `STATUS` still agree. -/
theorem Inv.of_frame (hs : Inv s) (hf : Frame s t) (htable : t.ctx.length = s.ctx.length)
    (hpool : t.poolFree.toNat + poolUsed t.ctx = s.poolFree.toNat + poolUsed s.ctx)
    (hctx : ∀ slot ∈ t.ctx, slot.wf)
    (hstatus : ∃ code hnd, t.status = statusWord code hnd ∧ (hnd = noHandle ∨ hnd.toNat < s.cfg.nCtx)) :
    Inv t where
  params := hf.cfg ▸ hs.params
  table := by rw [htable, hs.table, hf.cfg]
  pool := by rw [hpool, hs.pool, hf.cfg]
  contexts := hctx
  status := hf.cfg ▸ hstatus
  memory := hf.memory hs.memory
  memoryBelow := by rw [hf.cfg]; exact hf.memoryBelow hs.memoryBelow
  history := fun a ha => by
    rw [hf.cfg]
    exact (hf.history a ha).elim (hs.history a) id

/-- A frame keeps the invariant when one slot is replaced and the pool counter makes good its size. -/
theorem Inv.of_set (hs : Inv s) (hf : Frame s t) {h : Nat} {a b : Slot} (ha : s.ctx[h]? = some a)
    (hb : b.wf) (hctx : t.ctx = s.ctx.set h b) (hpool : t.poolFree.toNat + b.size = s.poolFree.toNat + a.size)
    (hstatus : ∃ code hnd, t.status = statusWord code hnd ∧ (hnd = noHandle ∨ hnd.toNat < s.cfg.nCtx)) :
    Inv t := by
  refine hs.of_frame hf (by simp [hctx]) ?pool ?contexts hstatus
  case pool =>
    have := poolUsed_set ha b
    rw [hctx]
    omega
  case contexts =>
    intro slot hslot
    rw [hctx] at hslot
    rcases List.mem_or_eq_of_mem_set hslot with hold | rfl
    · exact hs.contexts slot hold
    · exact hb

/-- A handle of a legal table, as `STATUS.HND` holds it (R6, R23). -/
theorem Inv.handle_lt (hs : Inv s) {h : Nat} (hh : s.freeSlot? = some h) :
    (BitVec.ofNat 8 h : Byte).toNat < s.cfg.nCtx := by
  have hlt := hs.table ▸ freeSlot?_lt hh
  exact (BitVec.toNat_ofNat h 8 ▸ Nat.mod_le h _).trans_lt hlt

/-- A released context's bytes fit in the counter (R6, R25). -/
theorem Inv.release_lt (hs : Inv s) {h : Nat} {a : Slot} (ha : s.ctx[h]? = some a) :
    s.poolFree.toNat + a.size < 2 ^ 16 := by
  obtain ⟨-, -, hbytes, -⟩ := Params.legal_iff.1 hs.params
  have hused := poolUsed_set ha .free
  have hsum := hs.pool
  rw [Slot.size_free] at hused
  omega

/-- A frame with one of the four moves keeps the invariant. -/
theorem Inv.of_move (hs : Inv s) (hf : Frame s t) (hm : TableMove i s t) : Inv t := by
  cases hm with
  | kept hctx hpool hstatus =>
    exact hs.of_frame hf (by rw [hctx]) (by rw [hctx, hpool]) (hctx ▸ hs.contexts) (status_noHandle hstatus)
  | created h x _ hfree hroom hx hctx hpool hstatus =>
    have hsum : t.poolFree.toNat + x.size = s.poolFree.toNat := by rw [hpool, toNat_sub_ofNat16 hroom]
    exact hs.of_set hf (freeSlot?_spec hfree).1 hx.wf hctx hsum
      ⟨_, _, hstatus, .inr (hs.handle_lt hfree)⟩
  | advanced h a b ha hab hctx hpool hstatus =>
    have hforward := hab (hs.contexts a (List.mem_of_getElem? ha))
    exact hs.of_set hf ha hforward.wf hctx (by rw [hpool, hforward.size]) (status_noHandle hstatus)
  | released h a _ ha hctx hpool hstatus =>
    have hsum : t.poolFree.toNat = s.poolFree.toNat + a.size := by
      rw [hpool, toNat_add_ofNat16 (hs.release_lt ha)]
    exact hs.of_set hf ha (b := .free) trivial hctx hsum (status_noHandle hstatus)

theorem Inv.exec (hs : Inv s) (h : exec i s = .next t) : Inv t := by
  obtain ⟨hframe, hmove⟩ := exec_next h
  exact hs.of_move hframe hmove

/-! ## The invariant over a host access -/

/-- The invariant does not speak of the window and the host's side, and an empty history meets it. -/
theorem Inv.of_log_eq_or_nil (hs : Inv s) (hc : t.cfg = s.cfg) (hst : t.status = s.status)
    (hp : t.poolFree = s.poolFree) (hx : t.ctx = s.ctx) (hm : t.mem = s.mem)
    (hl : t.log = s.log ∨ t.log = []) : Inv t where
  params := hc ▸ hs.params
  table := by rw [hx, hs.table, hc]
  pool := by rw [hx, hp, hs.pool, hc]
  contexts := hx ▸ hs.contexts
  status := by rw [hst, hc]; exact hs.status
  memory := hm ▸ hs.memory
  memoryBelow := by rw [hm, hc]; exact hs.memoryBelow
  history := by
    rw [hc]
    rcases hl with hl | hl
    · exact hl ▸ hs.history
    · simp [hl]

theorem Inv.withStatus (hs : Inv s) (code : StatusCode) : Inv (s.withStatus code noHandle) :=
  { hs with status := ⟨code, noHandle, rfl, .inl rfl⟩ }

theorem Inv.doorbell (hs : Inv s) (h : doorbell s = .next t) : Inv t := by
  have hs' : Inv { s with log := [] } := hs.of_log_eq_or_nil rfl rfl rfl rfl rfl (.inr rfl)
  unfold Machine.doorbell at h
  dsimp only at h
  split at h
  · exact hs'.exec h
  · cases h
    exact hs'.withStatus .invalidArgument

theorem Inv.windowWrite (hs : Inv s) (offset : Byte) (v : Word) : Inv (windowWrite s offset v) := by
  unfold Machine.windowWrite
  split
  · exact hs.of_log_eq_or_nil rfl rfl rfl rfl rfl (.inl rfl)
  · exact hs

theorem Inv.hostWindowRead (hs : Inv s) {width : AccessWidth} {offset : Byte}
    (h : hostWindowRead width offset s = .next t) : Inv t := by
  unfold Machine.hostWindowRead at h
  split at h
  · cases h
    exact hs.of_log_eq_or_nil rfl rfl rfl rfl rfl (.inl rfl)
  · cases h

theorem Inv.hostWindowWrite (hs : Inv s) {width : AccessWidth} {offset : Byte} {v : Word}
    (h : hostWindowWrite width offset v s = .next t) : Inv t := by
  unfold Machine.hostWindowWrite at h
  split at h
  · split at h
    · exact hs.doorbell h
    · cases h
      exact hs.windowWrite offset v
  · cases h

/-- An access at an address of the host's space that answers a next state is the window's (R58, R80). -/
theorem atHostAddress_next {addr : Nat} {k : Byte → Result} (h : atHostAddress s addr k = .next t) :
    ∃ offset, k offset = .next t := by
  unfold atHostAddress at h
  split at h
  · exact ⟨_, h⟩
  · cases h

theorem Inv.memWrite (hs : Inv s) {a : Word} (ha : s.addrOk a = true) (v : Byte) :
    Inv { s with mem := s.mem.write a.toNat v } :=
  { hs with
    memory := Memory.write_wf hs.memory _ _
    memoryBelow := Memory.write_below hs.memoryBelow (by simpa [State.addrOk] using ha) }

/-- The reset input makes every slot and the whole pool free, whatever the core's state was (R34, R271). -/
theorem resetCore_inv (hparams : s.cfg.legal = true) (hmem : s.mem.wf = true)
    (hbelow : s.mem.below (2 ^ s.cfg.addrBits) = true) : Inv (resetCore s) where
  params := hparams
  table := by simp
  pool := by
    obtain ⟨-, -, hbytes, -⟩ := Params.legal_iff.1 hparams
    simp only [resetCore_poolFree, resetCore_ctx, poolUsed_replicate_free, resetCore_cfg, BitVec.toNat_ofNat]
    omega
  contexts := by
    intro slot hslot
    rw [resetCore_ctx] at hslot
    obtain rfl := List.eq_of_mem_replicate hslot
    trivial
  status := ⟨.ok, noHandle, rfl, .inl rfl⟩
  memory := hmem
  memoryBelow := hbelow
  history := by simp

theorem Inv.hostAccess (hs : Inv s) {a : HostAccess} (h : hostAccess a s = .next t) : Inv t := by
  cases a with
  | windowRead width offset => exact hs.hostWindowRead h
  | windowWrite width offset value => exact hs.hostWindowWrite h
  | busRead width addr =>
    obtain ⟨offset, hoffset⟩ := atHostAddress_next h
    exact hs.hostWindowRead hoffset
  | busWrite width addr value =>
    obtain ⟨offset, hoffset⟩ := atHostAddress_next h
    exact hs.hostWindowWrite hoffset
  | memRead addr =>
    simp only [Machine.hostAccess] at h
    split at h
    · cases h
      exact hs.of_log_eq_or_nil rfl rfl rfl rfl rfl (.inl rfl)
    · cases h
  | memWrite addr value =>
    simp only [Machine.hostAccess] at h
    split at h
    · cases h
      exact hs.memWrite ‹_› value
    · cases h
  | reset =>
    cases h
    exact resetCore_inv hs.params hs.memory hs.memoryBelow

end

/-- Settles O19: a step is idle or one host access, and every access keeps the invariant. -/
theorem invariantKeptByEveryStep : Obligations.InvariantKeptByEveryStep := by
  intro s t hs h
  unfold step at h
  split at h
  · cases h
    exact hs
  · rename_i a rest _
    have hs' : Inv { s with host := rest } := hs.of_log_eq_or_nil rfl rfl rfl rfl rfl (.inl rfl)
    exact hs'.hostAccess h

/-- Settles O20: `State.reset` is what the reset input makes of it. -/
theorem invariantAtReset : Obligations.InvariantAtReset :=
  resetCore_inv (s := State.reset) rfl reset_mem_wf rfl

end Sys2Proof.Machine
end

section
/-! Issuing a command: the eight window words and the doorbell (R21, R67, R81, R82). -/

namespace Sys2Proof

/-! ## Decoding an encoding -/

/-- Decoding by a row of the table whose marked fields are zero (R73, R75). -/
theorem decode_of_row {d : Descriptor} {r : OpRow} (hrow : opTable.find? (·.opc == d.opc) = some r)
    (hzero : r.reservedZero d = true) : decode d = .ok (r.build d) := by
  simp [decode, hrow, hzero]

/-- The table's rows are the fourteen commands (R73). -/
theorem opTable_opc : opTable.map (·.opc) = legalOpcodes := rfl

theorem decode_of_illegal {d : Descriptor} (h : d.opc ∉ legalOpcodes) : decode d = .ok (.illegal d.opc) := by
  have hnone : opTable.find? (·.opc == d.opc) = none := by
    rw [List.find?_eq_none]
    intro r hr heq
    exact h (opTable_opc ▸ List.mem_map.2 ⟨r, hr, by simpa using heq⟩)
  simp [decode, hnone]

/-- A command's encoding decodes to it (R71, R73, R74), whatever its addresses are. -/
theorem decode_encode {i : Instr} (h : i.opcodeFits = true) : decode (encode i) = .ok i := by
  cases i
  case illegal opc =>
    have hopc : (encode (.illegal opc)).opc = opc := Laws.OpcodeOfEncoding.illegal opc
    have hout : opc ∉ legalOpcodes := by simpa [Instr.opcodeFits] using h
    rw [decode_of_illegal (hopc.symm ▸ hout), hopc]
  all_goals
    refine (decode_of_row (by rw [encode, Descriptor.opc, header_opc]; rfl) ?zero).trans ?build
    case zero =>
      simp [OpRow.reservedZero, encode, Descriptor.operands, Descriptor.hnd, Descriptor.alg, Descriptor.aux]
    case build => simp [encode, Descriptor.hnd, Descriptor.alg, Descriptor.aux]

end Sys2Proof

namespace Sys2Proof.Machine

/-! ## Runs one after another -/

theorem run_succ_of_next {M : Host.Core} {s t : M.State} (h : M.step s = .next t) (n : Nat) :
    M.run (n + 1) s = M.run n t := by
  simp [Host.Core.run, h]

theorem run_one (M : Host.Core) (s : M.State) : M.run 1 s = M.step s := by
  cases h : M.step s <;> simp [Host.Core.run, h]

/-! ## The eight window writes -/

/-- The writes that put a descriptor in the window, each the offset of a command word and the word (R81). -/
def windowWords (d : Descriptor) : List (Byte × Word) :=
  [(0x00, d.w0), (0x04, d.w1), (0x08, d.w2), (0x0C, d.w3), (0x10, d.w4), (0x14, d.w5), (0x18, d.w6),
    (0x1C, d.w7)]

/-- The host's write of a word at an offset of the window. -/
def wordWrite (p : Byte × Word) : HostAccess := .windowWrite .word p.1 p.2

theorem issue_eq (d : Descriptor) : issue d = (windowWords d).map wordWrite ++ [ringDoorbell] := rfl

/-- A command word's offset is written as the window defines it, and is not `DOORBELL` (R81, R82). -/
theorem windowWords_offsets (d : Descriptor) :
    ∀ p ∈ windowWords d, windowDefined .word p.1 = true ∧ p.1 ≠ doorbellOffset := by
  simp [windowWords, windowDefined, doorbellOffset]

/-- The eight writes leave the descriptor in the window, whatever it held (R81). -/
theorem foldl_windowWords (s : State) (d : Descriptor) :
    (windowWords d).foldl (fun s p => windowWrite s p.1 p.2) s = { s with w := d } := by
  simp [windowWords, windowWrite, setW]

theorem windowWrite_host (s : State) (offset : Byte) (v : Word) (host : List HostAccess) :
    windowWrite { s with host := host } offset v = { windowWrite s offset v with host := host } := by
  unfold windowWrite
  split <;> rfl

theorem step_wordWrite {p : Byte × Word} (hp : windowDefined .word p.1 = true ∧ p.1 ≠ doorbellOffset)
    (s : State) (rest : List HostAccess) :
    step { s with host := wordWrite p :: rest } = .next { windowWrite s p.1 p.2 with host := rest } := by
  obtain ⟨hdef, hne⟩ := hp
  rw [step_host_cons, ← windowWrite_host]
  simp [wordWrite, hostAccess, hostWindowWrite, hdef, hne]

/-- Window writes other than to `DOORBELL` take as many steps as there are, then the run goes on. -/
theorem run_wordWrites {ps : List (Byte × Word)}
    (hps : ∀ p ∈ ps, windowDefined .word p.1 = true ∧ p.1 ≠ doorbellOffset) (n : Nat) (s : State)
    (rest : List HostAccess) :
    core.run (n + ps.length) ({ s with host := ps.map wordWrite ++ rest } : State) =
      core.run n ({ ps.foldl (fun s p => windowWrite s p.1 p.2) s with host := rest } : State) := by
  induction ps generalizing s with
  | nil => rfl
  | cons p ps ih =>
    obtain ⟨hp, hps⟩ := List.forall_mem_cons.1 hps
    exact (run_succ_of_next (step_wordWrite hp s (ps.map wordWrite ++ rest)) _).trans (ih hps _)

/-! ## The doorbell -/

/-- A write to `DOORBELL` runs the command the window spells (R82, R103). -/
theorem step_ringDoorbell {s : State} {i : Instr} (hw : decode s.w = .ok i) (rest : List HostAccess) :
    step { s with host := ringDoorbell :: rest } = exec i { s with host := rest, log := [] } := by
  rw [step_host_cons]
  change doorbell { s with host := rest } = _
  simp only [doorbell, hw]

/-- Settles O6: eight steps fill the window, and the ninth runs what it spells. -/
theorem issuedCommandRuns : Obligations.IssuedCommandRuns := by
  intro s p i rest hwf hhost
  obtain ⟨hfits, -⟩ : i.opcodeFits = true ∧ i.addressesFit p = true := by
    simpa [Instr.wellFormed] using hwf
  have hs : s = { s with host := (windowWords (encode i)).map wordWrite ++ (ringDoorbell :: rest) } := by
    rw [issue_eq, List.append_assoc] at hhost
    exact congrArg (fun host => ({ s with host := host } : State)) hhost
  have hwords := run_wordWrites (windowWords_offsets (encode i)) 1 s (ringDoorbell :: rest)
  rw [← hs, foldl_windowWords] at hwords
  have hring := step_ringDoorbell (s := { s with w := encode i }) (decode_encode hfits) rest
  exact hwords.trans ((run_one core _).trans hring)

end Sys2Proof.Machine
end

section
/-! The host's side of the memory family (20_memory): reads of the register window and what a window access
must be, the host's own accesses to memory, and the doorbell. -/

namespace Sys2Proof.Machine

open Sys2Proof.Spec

/-- A step makes the first of the host's pending accesses (R22, R67). -/
theorem step_of_host {s : State} {a : HostAccess} {rest : List HostAccess} (h : s.host = a :: rest) :
    step s = hostAccess a { s with host := rest } := by
  simp only [step, h]

/-! ## Which window accesses are defined (R56, R87) -/

/-- A window access is defined when it is a whole word at a word-aligned offset. -/
theorem windowDefined_iff {width : AccessWidth} {off : Byte} :
    windowDefined width off = true ↔ width = .word ∧ off.toNat % 4 = 0 := by
  have halign : off.extractLsb' 0 2 = 0 ↔ off.toNat % 4 = 0 := by
    rw [← BitVec.toNat_inj]
    simp [BitVec.extractLsb'_toNat]
  rw [windowDefined, Bool.and_eq_true, decide_eq_true_iff, beq_iff_eq, halign]

theorem hostAccess_windowRead {width : AccessWidth} {off : Byte} (h : windowDefined width off = true)
    (s : State) :
    hostAccess (.windowRead width off) s = .next { s with readData := some (windowRead s off) } :=
  if_pos h

/-- Settles O10: neither a read nor a write gets past the check of width and offset. -/
theorem undefinedWindowAccessIsRefused : Obligations.UndefinedWindowAccessIsRefused := by
  intro s width off v rest hundefined hhost
  have hdef : ¬ windowDefined width off = true := by
    rw [windowDefined_iff]
    tauto
  rcases hhost with hhost | hhost
  · exact (step_of_host hhost).trans (if_neg hdef)
  · exact (step_of_host hhost).trans (if_neg hdef)

/-! ## What the window reads as (R80 to R87) -/

theorem getW_eq_wordAt (d : Descriptor) : ∀ i < 8, getW d i = wordAt d i := by
  intro i hi
  interval_cases i <;> rfl

/-- The offsets below `0x20` hold the command window (R81). -/
theorem windowRead_command (s : State) {off : Byte} {i : Nat} (hi : i < 8) (hoff : off.toNat = 4 * i) :
    windowRead s off = wordAt s.w i := by
  have hlt : off < 0x20 := by
    rw [BitVec.lt_def, hoff]
    change 4 * i < 32
    omega
  have hdiv : off.toNat / 4 = i := by omega
  rw [windowRead, if_pos hlt, hdiv, getW_eq_wordAt _ i hi]

/-- The reserved offsets read as 0 (R86). -/
theorem windowRead_reserved (s : State) {off : Byte} (hoff : 0x34 ≤ off.toNat) : windowRead s off = 0 := by
  have hne : ∀ k : Byte, k.toNat < 0x34 → off ≠ k := by
    rintro k hk rfl
    omega
  have hlt : ¬ off < 0x20 := by
    rw [BitVec.lt_def]
    change ¬ off.toNat < 32
    omega
  rw [windowRead, if_neg hlt, if_neg (hne 0x24 (by decide)), if_neg (hne 0x28 (by decide)),
    if_neg (hne 0x2C (by decide)), if_neg (hne 0x30 (by decide))]

/-- The fields of `CORE_CFG`, for parameters in R6's ranges (R84). -/
theorem coreCfg_toNat {p : Params} (h : p.legal = true) :
    (coreCfg p).toNat = p.nCtx + 2 ^ 8 * 1 + 2 ^ 16 * p.poolBytes := by
  obtain ⟨-, hctx, hpool, -⟩ := Params.legal_iff.1 h
  have hor : ∀ a b i : Nat, b < 2 ^ i → a <<< i ||| b = 2 ^ i * a + b := fun a b i hb => by
    rw [Nat.shiftLeft_eq, Nat.mul_comm, Nat.two_pow_add_eq_or_of_lt hb]
  have hctx' : p.nCtx % 2 ^ 8 = p.nCtx := Nat.mod_eq_of_lt (by omega)
  have hpool' : p.poolBytes % 2 ^ 16 = p.poolBytes := Nat.mod_eq_of_lt (by omega)
  have halg : nAlg % 2 ^ 8 = 1 := rfl
  rw [coreCfg, BitVec.toNat_append, BitVec.toNat_append, BitVec.toNat_ofNat, BitVec.toNat_ofNat,
    BitVec.toNat_ofNat, hctx', hpool', halg, hor _ _ _ (by omega), hor _ _ _ (by omega)]
  omega

/-- Settles O8: the value is `windowRead`'s, which each register's lemma names. -/
theorem windowReadsReturnTheRegisters : Obligations.WindowReadsReturnTheRegisters := by
  intro s off rest hlegal hhost halign
  have hdef : windowDefined .word off = true := windowDefined_iff.2 ⟨rfl, halign⟩
  refine ⟨windowRead s off, (step_of_host hhost).trans (hostAccess_windowRead hdef _),
    fun i hi hoff => windowRead_command s hi hoff, ?doorbell, ?status, ?poolFree, ?coreId, ?coreCfg,
    windowRead_reserved s⟩
  case doorbell => rintro rfl; rfl
  case status => rintro rfl; rfl
  case poolFree =>
    rintro rfl
    exact BitVec.toNat_setWidth_of_le (w := 16) (w' := 32) (by decide)
  case coreId => rintro rfl; rfl
  case coreCfg =>
    rintro rfl
    exact coreCfg_toNat hlegal

/-! ## The host's accesses to memory (R50, R51, R64) -/

section
variable {s : State} {a : Word}

theorem addrOk_iff : s.addrOk a = true ↔ a.toNat < 2 ^ s.cfg.addrBits := by
  simp [State.addrOk]

theorem hostAccess_memRead (h : s.addrOk a = true) : hostAccess (.memRead a) s =
    .next { s with readData := some ((s.mem.read a.toNat).setWidth 32) } := if_pos h

theorem hostAccess_memWrite (h : s.addrOk a = true) (b : Byte) :
    hostAccess (.memWrite a b) s = .next { s with mem := s.mem.write a.toNat b } := if_pos h

theorem hostAccess_memRead_outside (h : ¬ s.addrOk a = true) :
    hostAccess (.memRead a) s = .fault .hostAddressOutsideMem := if_neg h

theorem hostAccess_memWrite_outside (h : ¬ s.addrOk a = true) (b : Byte) :
    hostAccess (.memWrite a b) s = .fault .hostAddressOutsideMem := if_neg h

end

/-- Settles O11: the write is `Memory.write`, whose rule says what every address reads afterwards. -/
theorem hostMemoryAccesses : Obligations.HostMemoryAccesses := by
  intro s a b rest hwf hhost
  refine ⟨fun hin => ?inside, fun hout => ?outside⟩
  case inside =>
    have hok : s.addrOk a = true := addrOk_iff.2 hin
    refine ⟨s.mem.write a.toNat b,
      (step_of_host hhost).trans (hostAccess_memWrite (s := { s with host := rest }) hok b),
      Memory.write_wf hwf _ _, fun x => Memory.read_write hwf _ _ _, ?readBack⟩
    case readBack =>
      have hread := hostAccess_memRead (s := { s with host := rest, mem := s.mem.write a.toNat b }) hok
      rw [Memory.read_write_same hwf] at hread
      exact (step_of_host rfl).trans hread
  case outside =>
    have hbad : ¬ s.addrOk a = true := by
      rw [addrOk_iff]
      omega
    exact ⟨(step_of_host hhost).trans (hostAccess_memWrite_outside (s := { s with host := rest }) hbad b),
      (step_of_host rfl).trans (hostAccess_memRead_outside (s := { s with host := rest }) hbad)⟩

/-! ## The doorbell (R67, R72, R82, R103) -/

/-- The value written to `DOORBELL` is ignored (R82). -/
theorem hostAccess_doorbell (v : Word) (s : State) :
    hostAccess (.windowWrite .word 0x20 v) s = hostAccess ringDoorbell s := rfl

/-- Settles O5: a doorbell write of any value is the one `step_ringDoorbell` speaks of. -/
theorem doorbellRunsTheDecodedCommand : Obligations.DoorbellRunsTheDecodedCommand := by
  refine ⟨fun s v rest i hhost hw => ?anyValue, fun s nbits w i hw => ?fetchWord⟩
  case anyValue =>
    rw [step_of_host hhost, hostAccess_doorbell, ← step_host_cons]
    exact step_ringDoorbell hw rest
  case fetchWord =>
    have hdecode : decode (.ofTableWord nbits w) = .ok i := by
      rw [decodeTableWord] at hw
      cases hd : decode (.ofTableWord nbits w) with
      | error e => simp [hd, Except.toOption] at hw
      | ok j => simpa [hd, Except.toOption] using hw
    exact step_ringDoorbell (s := { s with w := .ofTableWord nbits w }) hdecode s.host

end Sys2Proof.Machine
end

section
/-! What each command does to memory and to the access history (20_memory R52, R53, R61), and the statements
that follow from it: what is stored, what is not, and R61's table. -/

namespace Sys2Proof.Machine

open Sys2Proof.Spec

/-! ## Buffers and the accesses to them (R52, R53, R59) -/

theorem mem_bufferAddrs {p : Params} {addr n a : Nat} :
    a ∈ bufferAddrs p addr n ↔ ∃ k < n, (addr + k) % 2 ^ p.addrBits = a := by
  simp [bufferAddrs]

theorem bufferAddrs_mono {p : Params} {addr m n a : Nat} (hmn : m ≤ n) (ha : a ∈ bufferAddrs p addr m) :
    a ∈ bufferAddrs p addr n := by
  obtain ⟨k, hk, rfl⟩ := mem_bufferAddrs.1 ha
  exact mem_bufferAddrs.2 ⟨k, hk.trans_le hmn, rfl⟩

/-- A buffer is its first `m` bytes and, behind them, the rest. -/
theorem bufferAddrs_add (p : Params) (addr m n : Nat) :
    bufferAddrs p addr (m + n) = bufferAddrs p addr m ++ bufferAddrs p (addr + m) n := by
  simp [bufferAddrs, List.range_add, Nat.add_assoc]

@[simp] theorem write_notMem_reads (s : State) (addr n a : Nat) : .write a ∉ reads s addr n := by
  simp [reads]

@[simp] theorem write_mem_writes {s : State} {addr n a : Nat} :
    .write a ∈ writes s addr n ↔ a ∈ bufferAddrs s.cfg addr n := by
  simp [writes]

/-! ## The trace of the master port -/

/-- `t` is `s` after the accesses `as`: they are added to the history, a byte that none of them writes reads as
before, and memory did not move if none of them is a write. -/
structure Trace (s t : State) (as : List BusAccess) : Prop where
  cfg : t.cfg = s.cfg
  log : t.log = s.log ++ as
  read : ∀ a, .write a ∉ as → t.mem.read a = s.mem.read a
  mem : (∀ a, .write a ∉ as) → t.mem = s.mem

namespace Trace

variable {s t u : State} {as bs : List BusAccess}

protected theorem refl (s : State) : Trace s s [] := ⟨rfl, by simp, fun _ _ => rfl, fun _ => rfl⟩

protected theorem trans (h₁ : Trace s t as) (h₂ : Trace t u bs) : Trace s u (as ++ bs) where
  cfg := h₂.cfg.trans h₁.cfg
  log := by rw [h₂.log, h₁.log, List.append_assoc]
  read := fun a ha => by
    obtain ⟨has, hbs⟩ := not_or.1 (mt List.mem_append.2 ha)
    exact (h₂.read a hbs).trans (h₁.read a has)
  mem := fun h => (h₂.mem fun a ha => h a (List.mem_append_right as ha)).trans
    (h₁.mem fun a ha => h a (List.mem_append_left bs ha))

theorem afterRead (s : State) (addr n : Nat) : Trace s (s.afterRead addr n) (reads s addr n) :=
  ⟨rfl, rfl, fun _ _ => rfl, fun _ => rfl⟩

theorem memWrite (s : State) (addr : Nat) (v : Bytes) :
    Trace s (s.memWrite addr v) (writes s addr v.length) where
  cfg := rfl
  log := rfl
  read := fun _ ha => State.memWrite_read_of_notMem s fun hmem => ha (write_mem_writes.2 hmem)
  mem := fun h => by
    have hnil : v = [] := by
      by_contra hne
      exact h _ (write_mem_writes.2 (mem_bufferAddrs.2 ⟨0, List.length_pos_iff.2 hne, rfl⟩))
    subst hnil
    rfl

/-- The table, the pool and `STATUS` are no part of a trace. -/
theorem setSlot (h : Trace s t as) (k : Nat) (x : Slot) : Trace s (t.setSlot k x) as :=
  ⟨h.cfg, h.log, h.read, h.mem⟩

theorem release (h : Trace s t as) (k : Nat) (x : Slot) : Trace s (t.release k x) as :=
  ⟨h.cfg, h.log, h.read, h.mem⟩

theorem withStatus (h : Trace s t as) (code : StatusCode) (hnd : Byte) :
    Trace s (t.withStatus code hnd) as := ⟨h.cfg, h.log, h.read, h.mem⟩

theorem of_poolFree {p : BitVec 16} (h : Trace { s with poolFree := p } t as) : Trace s t as :=
  ⟨h.cfg, h.log, h.read, h.mem⟩

/-- A loop makes the accesses of its rounds one after another. `proj` is the machine's part of the loop's
state. -/
theorem foldl {σ : Type} {proj : σ → State} {f : σ → Nat → σ} {as : Nat → List BusAccess} {p : Params}
    (hstep : ∀ x k, (proj x).cfg = p → Trace (proj x) (proj (f x k)) (as k)) (ks : List Nat) {x : σ}
    (hx : (proj x).cfg = p) : Trace (proj x) (proj (ks.foldl f x)) (ks.flatMap as) := by
  induction ks generalizing x with
  | nil => exact .refl _
  | cons k ks ih =>
    have hk := hstep x k hx
    exact hk.trans (ih (hk.cfg.trans hx))

end Trace

/-! ## What a command makes of memory and the history -/

/-- How the command `i` takes memory and the access history from `s` to `t`: it fails and leaves both, or it
ends OK or AuthenticationFailed with accesses that store in its output range alone and, under the invariant,
are those of R61's table. -/
inductive Performs (i : Instr) (s t : State) : Prop
  | failed (hcode : t.code ≠ 0 ∧ t.code ≠ 5) (hmem : t.mem = s.mem) (hlog : t.log = s.log)
  | done (as : List BusAccess) (hcode : t.code = 0 ∨ t.code = 5) (htrace : Trace s t as)
      (hrange : ∀ a, .write a ∈ as → a ∈ storedRange i s) (htable : Inv s → as = accesses i s)

/-- The result of the command `i` from `s` is a next state with the accesses `Performs` describes. -/
def EndsPerforming (i : Instr) (s : State) (r : Result) : Prop := ∃ t, r = .next t ∧ Performs i s t

@[simp] theorem State.withStatus_code (s : State) (code : StatusCode) (hnd : Byte) :
    (s.withStatus code hnd).code = code.code := statusWord_code code hnd

section
variable {i : Instr} {s u : State} {as : List BusAccess} {code : StatusCode}

theorem fail_accesses (hcode : code.code ≠ 0 ∧ code.code ≠ 5 := by decide) : EndsPerforming i s (fail code s) :=
  ⟨_, rfl, .failed (by simpa using hcode) rfl rfl⟩

theorem Trace.accesses (htrace : Trace s u as) (hrange : ∀ a, .write a ∈ as → a ∈ storedRange i s)
    (htable : Inv s → as = Spec.accesses i s) {hnd : Byte}
    (hcode : code.code = 0 ∨ code.code = 5 := by decide) :
    EndsPerforming i s (.next (u.withStatus code hnd)) :=
  ⟨_, rfl, .done as (by simpa using hcode) (htrace.withStatus ..) hrange htable⟩

/-- A command that stores `v` and replaces its context. That `v` fills the output range of `n` bytes may lean on
the invariant, that it stays inside may not. -/
theorem memWrite_accesses {addr n h : Nat} {v : Bytes} {x : Slot} (hle : v.length ≤ n)
    (hlen : Inv s → v.length = n) (hrange : storedRange i s = bufferAddrs s.cfg addr n)
    (htable : accesses i s = writes s addr n) : EndsPerforming i s (ok ((s.setSlot h x).memWrite addr v)) := by
  rw [State.memWrite_setSlot]
  refine ((Trace.memWrite s addr v).setSlot h x).accesses (fun a ha => ?_) fun hs => ?_
  · rw [hrange]
    exact bufferAddrs_mono hle (write_mem_writes.1 ha)
  · rw [htable, hlen hs]

end

/-! ## How many bytes the commands store -/

/-- A well-formed context's digest has 32 bytes (R121, R126). -/
theorem hashFinish_length {c : HashLive} (hc : c.wf) : (hashFinish sha256 c).length = 32 := by
  obtain ⟨d, hd, -, hblock, hstate, hbuf⟩ := hc
  obtain ⟨-, rfl⟩ := lookupAlg_some hd
  rw [hashFinish_eq (BitVec.eq_of_toNat_eq hblock) hbuf]
  exact finishFrom_length hstate _ _

theorem prfFinish_length (c : HashLive) {ostate : List Word} (h : ostate.length = 8) :
    (prfFinish sha256 c ostate).length = 32 :=
  hashFinish_length (hashUpdate_wf rfl (hmacInner_wf h) _)

theorem pbkdf2Loop_length {tpl : PrfTemplate} (h : tpl.ostate.length = 8) (n : Nat) (u : Bytes) {t : Bytes}
    (ht : t.length = 32) : (pbkdf2Loop sha256 tpl n u t).length = 32 := by
  induction n generalizing u t with
  | zero => exact ht
  | succ n ih => exact ih _ (by simp [xorBytes, ht, prfFinish_length _ h])

theorem pbkdf2Block_length {x : Pbkdf2Scratch} (h : x.tpl.ostate.length = 8) (iter i : Nat) :
    (pbkdf2Block sha256 x iter i).length = 32 :=
  pbkdf2Loop_length h _ _ (prfFinish_length _ h)

/-- The tag is cut to `tag_len` bytes, whatever the context (R217). -/
theorem gcmTag_length_le (g : GcmCtx) : (gcmTag g).1.length ≤ g.tagLen.toNat := by
  have htag : ∀ n, (ghashFlush g n).tagLen = g.tagLen := fun n => by
    obtain ⟨y, hy⟩ := ghashFlush_fields g n
    rw [hy]
  unfold gcmTag
  dsimp only [ghashBlock]
  split <;> exact (List.length_take_le _ _).trans_eq (by rw [htag])

/-- Output blocks of 32 bytes, the last one truncated, are the output buffer (R170, R171). -/
theorem bufferAddrs_blocks (p : Params) (addr len n : Nat) :
    (List.range n).flatMap (fun k => bufferAddrs p (addr + k * 32) (min 32 (len - k * 32))) =
      bufferAddrs p addr (min (n * 32) len) := by
  induction n with
  | zero => simp [bufferAddrs]
  | succ n ih =>
    rw [List.range_succ, List.flatMap_append, ih, List.flatMap_singleton]
    rcases Nat.le_total (n * 32) len with hle | hge
    · have hlast : min ((n + 1) * 32) len = n * 32 + min 32 (len - n * 32) := by omega
      rw [hlast, bufferAddrs_add, Nat.min_eq_left hle]
    · have hlast : min 32 (len - n * 32) = 0 := by omega
      have hall : min ((n + 1) * 32) len = min (n * 32) len := by omega
      rw [hlast, hall]
      simp [bufferAddrs]

theorem writes_blocks (s : State) (addr len : Nat) :
    (List.range (pbkdf2BlockCount sha256 len)).flatMap
        (fun k => writes s (addr + k * 32) (min 32 (len - k * 32))) = writes s addr len := by
  have hcount : min (pbkdf2BlockCount sha256 len * 32) len = len := by
    have : pbkdf2BlockCount sha256 len = (len + 32 - 1) / 32 := rfl
    omega
  have hblocks := congrArg (List.map BusAccess.write)
    (bufferAddrs_blocks s.cfg addr len (pbkdf2BlockCount sha256 len))
  rwa [hcount, List.map_flatMap] at hblocks

/-! ## The loops of the master port -/

/-- Each round of a cipher command reads one byte and writes one (R61, R232, R233). -/
theorem gcmCryptFold_trace (enc : Bool) (input out : Nat) (ks : List Nat) (g : GcmCtx) (s : State) :
    Trace s (ks.foldl (gcmCryptStep enc input out) (g, s)).2
      (ks.flatMap fun k => reads s (input + k) 1 ++ writes s (out + k) 1) := by
  refine Trace.foldl (proj := Prod.snd) (x := (g, s)) (fun x k hx => ?_) ks rfl
  have hround : Trace x.2 (gcmCryptStep enc input out x k).2
      (reads x.2 (input + k) 1 ++ writes x.2 (out + k) 1) := (Trace.afterRead ..).trans (.memWrite ..)
  simpa only [reads, writes, hx] using hround

/-- The blocks of a derivation fill the output buffer (R171). -/
theorem pbkdf2Fold_trace {x : Pbkdf2Scratch} (hx : x.tpl.ostate.length = 8) (iter out outLen : Nat)
    (s : State) :
    Trace s ((List.range (pbkdf2BlockCount sha256 outLen)).foldl
      (pbkdf2WriteBlock sha256 x iter out outLen) s) (writes s out outLen) := by
  rw [← writes_blocks]
  refine Trace.foldl (proj := id) (x := s) (fun t k ht => ?_) _ rfl
  have hlen : ((pbkdf2Block sha256 x iter (k + 1)).take (min 32 (outLen - k * 32))).length =
      min 32 (outLen - k * 32) := by
    rw [List.length_take, pbkdf2Block_length hx]
    omega
  have hround : Trace t (pbkdf2WriteBlock sha256 x iter out outLen t k)
      (writes t (out + k * 32) (min 32 (outLen - k * 32))) := by
    rw [← hlen]
    exact .memWrite ..
  simp only [id_eq] at ht ⊢
  simpa only [writes, ht] using hround

/-! ## The commands -/

section
variable (s : State)

theorem execHashCreate_accesses (alg : Byte) : EndsPerforming (.hashCreate alg) s (execHashCreate alg s) := by
  refine withAlg_elim fail_accesses fun d _ => ?_
  refine withAlloc_elim fail_accesses fun h _ _ => ?_
  exact ((Trace.refl _).of_poolFree.setSlot ..).accesses (by simp) fun _ => rfl

theorem execHashUpdate_accesses (h : Byte) (data len : Word) :
    EndsPerforming (.hashUpdate h data len) s (execHashUpdate h data len s) := by
  refine requireAddrs_elim fail_accesses fun _ => ?_
  refine withHash_elim fail_accesses fun c _ => ?_
  cases c with
  | final => exact fail_accesses
  | active c =>
    refine withAlg_elim fail_accesses fun d _ => ?_
    exact ((Trace.afterRead ..).setSlot ..).accesses (by simp) fun _ => rfl

theorem execHashDigest_accesses (h : Byte) (out : Word) :
    EndsPerforming (.hashDigest h out) s (execHashDigest h out s) := by
  refine requireAddrs_elim fail_accesses fun _ => ?_
  refine withHash_elim fail_accesses fun c hc => ?_
  cases c with
  | final => exact fail_accesses
  | active c =>
    refine withAlg_elim fail_accesses fun d hd => ?_
    obtain ⟨-, rfl⟩ := lookupAlg_some hd
    have hlenAt : digestLenAt s h = c.digestLen.toNat := by
      rw [digestLenAt, show s.ctx[h.toNat]? = _ from hc]
    refine memWrite_accesses (List.length_take_le _ _) (fun hs => ?_) (by rw [storedRange, hlenAt])
      (by rw [accesses, hlenAt])
    have hwf : c.wf := hs.contexts _ (List.mem_of_getElem? hc)
    have hdigest : c.digestLen.toNat = 32 := by
      obtain ⟨d, hd', hlen, -⟩ := hwf
      obtain ⟨-, rfl⟩ := lookupAlg_some hd'
      exact hlen
    rw [List.length_take, hashFinish_length hwf, hdigest]
    rfl

theorem execCtxRelease_accesses (h : Byte) : EndsPerforming (.ctxRelease h) s (execCtxRelease h s) := by
  refine withSlot_elim fail_accesses fun a _ _ => ?_
  exact ((Trace.refl s).release ..).accesses (by simp) fun _ => rfl

theorem execHmacInit_accesses (alg : Byte) (key keyLen : Word) :
    EndsPerforming (.hmacInit alg key keyLen) s (execHmacInit alg key keyLen s) := by
  refine requireAddrs_elim fail_accesses fun _ => ?_
  refine withAlg_elim fail_accesses fun d _ => ?_
  refine withAlloc_elim fail_accesses fun h _ _ => ?_
  exact ((Trace.afterRead ..).of_poolFree.setSlot ..).accesses (by simp) fun _ => rfl

theorem execHmacUpdate_accesses (h : Byte) (data len : Word) :
    EndsPerforming (.hmacUpdate h data len) s (execHmacUpdate h data len s) := by
  refine requireAddrs_elim fail_accesses fun _ => ?_
  refine withHmac_elim fail_accesses fun c _ => ?_
  cases c with
  | final => exact fail_accesses
  | active alg inner tpl =>
    refine withAlg_elim fail_accesses fun d _ => ?_
    exact ((Trace.afterRead ..).setSlot ..).accesses (by simp) fun _ => rfl

theorem execHmacFinal_accesses (h : Byte) (out : Word) :
    EndsPerforming (.hmacFinal h out) s (execHmacFinal h out s) := by
  refine requireAddrs_elim fail_accesses fun _ => ?_
  refine withHmac_elim fail_accesses fun c hc => ?_
  cases c with
  | final => exact fail_accesses
  | active alg inner tpl =>
    refine withAlg_elim fail_accesses fun d hd => ?_
    obtain ⟨-, rfl⟩ := lookupAlg_some hd
    refine memWrite_accesses (List.length_take_le _ _) (fun hs => ?_) rfl rfl
    obtain ⟨-, -, d, hd', -, hostate⟩ := hs.contexts _ (List.mem_of_getElem? hc)
    obtain ⟨-, rfl⟩ := lookupAlg_some hd'
    rw [List.length_take, prfFinish_length _ hostate]
    rfl

theorem execPbkdf2Derive_accesses (alg : Byte) (pw pwLen salt saltLen out outLen iter : Word) :
    EndsPerforming (.pbkdf2Derive alg pw pwLen salt saltLen out outLen iter) s
      (execPbkdf2Derive alg pw pwLen salt saltLen out outLen iter s) := by
  refine requireAddrs_elim fail_accesses fun _ => ?_
  refine withAlg_elim fail_accesses fun d hd => ?_
  refine requireArg_elim fail_accesses fun _ => ?_
  obtain ⟨-, rfl⟩ := lookupAlg_some hd
  split
  · rename_i hzero
    exact (Trace.refl s).accesses (by simp) fun _ => by rw [accesses, if_pos hzero]
  split
  · exact fail_accesses
  · rename_i hne _
    have hreads := (Trace.afterRead s pw.toNat pwLen.toNat).trans (.afterRead _ salt.toNat saltLen.toNat)
    refine (hreads.trans (pbkdf2Fold_trace (hmacTemplate_lengths _).2 ..)).accesses (fun a ha => ?_)
      fun _ => by rw [accesses, if_neg hne]; rfl
    simpa [storedRange] using ha

theorem execGcmInit_accesses (cipher tagLen : Byte) (key keyLen iv ivLen : Word) :
    EndsPerforming (.gcmInit cipher tagLen key keyLen iv ivLen) s
      (execGcmInit cipher tagLen key keyLen iv ivLen s) := by
  refine requireAddrs_elim fail_accesses fun _ => ?_
  split
  · exact fail_accesses
  refine requireArg_elim fail_accesses fun _ => ?_
  refine requireArg_elim fail_accesses fun _ => ?_
  refine requireArg_elim fail_accesses fun _ => ?_
  refine withAlloc_elim fail_accesses fun h _ _ => ?_
  exact (((Trace.afterRead ..).trans (.afterRead ..)).of_poolFree.setSlot ..).accesses (by simp) fun _ => rfl

theorem execGcmAad_accesses (h : Byte) (data len : Word) :
    EndsPerforming (.gcmAad h data len) s (execGcmAad h data len s) := by
  refine requireAddrs_elim fail_accesses fun _ => ?_
  refine withGcm_elim fail_accesses fun g _ => ?_
  split
  · exact fail_accesses
  · exact ((Trace.afterRead ..).setSlot ..).accesses (by simp) fun _ => rfl

/-- Both cipher commands make the accesses of their common row, output byte `k` in the output range. -/
theorem gcmCrypt_accesses {i : Instr} (enc : Bool) (h : Byte) (input len out : Word)
    (hrange : storedRange i s = bufferAddrs s.cfg out.toNat len.toNat)
    (htable : accesses i s = (List.range len.toNat).flatMap fun k =>
      reads s (input.toNat + k) 1 ++ writes s (out.toNat + k) 1) :
    EndsPerforming i s (gcmCrypt enc h input len out s) := by
  refine requireAddrs_elim fail_accesses fun _ => ?_
  refine withGcm_elim fail_accesses fun g _ => ?_
  split
  · exact fail_accesses
  · refine ((gcmCryptFold_trace ..).setSlot ..).accesses (fun a ha => ?_) fun _ => htable.symm
    obtain ⟨k, hk, ha⟩ := List.mem_flatMap.1 ha
    have hbyte : a ∈ bufferAddrs s.cfg (out.toNat + k) 1 := by simpa using ha
    obtain ⟨j, hj, rfl⟩ := mem_bufferAddrs.1 hbyte
    obtain rfl : j = 0 := by omega
    rw [hrange]
    exact mem_bufferAddrs.2 ⟨k, List.mem_range.1 hk, rfl⟩

theorem execGcmDigest_accesses (h : Byte) (tag : Word) :
    EndsPerforming (.gcmDigest h tag) s (execGcmDigest h tag s) := by
  refine requireAddrs_elim fail_accesses fun _ => ?_
  refine withGcm_elim fail_accesses fun g hg => ?_
  split
  · exact fail_accesses
  · have hlenAt : tagLenAt s h = g.tagLen.toNat := by
      rw [tagLenAt, show s.ctx[h.toNat]? = _ from hg]
    exact memWrite_accesses (gcmTag_length_le g)
      (fun hs => gcmTag_length (hs.contexts _ (List.mem_of_getElem? hg)))
      (by rw [storedRange, hlenAt]) (by rw [accesses, hlenAt])

theorem execGcmVerify_accesses (h : Byte) (tag : Word) :
    EndsPerforming (.gcmVerify h tag) s (execGcmVerify h tag s) := by
  refine requireAddrs_elim fail_accesses fun _ => ?_
  refine withGcm_elim fail_accesses fun g hg => ?_
  split
  · exact fail_accesses
  · have htrace := (Trace.afterRead s tag.toNat g.tagLen.toNat).setSlot h.toNat (.gcm (gcmTag g).2)
    have htable : reads s tag.toNat g.tagLen.toNat = accesses (.gcmVerify h tag) s := by
      rw [accesses, tagLenAt, show s.ctx[h.toNat]? = _ from hg]
    dsimp only [memRead]
    rw [State.afterRead_setSlot]
    split
    · exact htrace.accesses (by simp) fun _ => htable
    · exact htrace.accesses (by simp) fun _ => htable

/-- Every command's accesses are those `Performs` describes. -/
theorem exec_accesses (i : Instr) : EndsPerforming i s (exec i s) := by
  cases i with
  | hashCreate alg => exact execHashCreate_accesses s alg
  | hashUpdate h data len => exact execHashUpdate_accesses s h data len
  | hashDigest h out => exact execHashDigest_accesses s h out
  | ctxRelease h => exact execCtxRelease_accesses s h
  | hmacInit alg key keyLen => exact execHmacInit_accesses s alg key keyLen
  | hmacUpdate h data len => exact execHmacUpdate_accesses s h data len
  | hmacFinal h out => exact execHmacFinal_accesses s h out
  | pbkdf2Derive alg pw pwLen salt saltLen out outLen iter =>
    exact execPbkdf2Derive_accesses s alg pw pwLen salt saltLen out outLen iter
  | gcmInit cipher tagLen key keyLen iv ivLen =>
    exact execGcmInit_accesses s cipher tagLen key keyLen iv ivLen
  | gcmAad h data len => exact execGcmAad_accesses s h data len
  | gcmEncrypt h input len out => exact gcmCrypt_accesses s true h input len out rfl rfl
  | gcmDecrypt h input len out => exact gcmCrypt_accesses s false h input len out rfl rfl
  | gcmDigest h tag => exact execGcmDigest_accesses s h tag
  | gcmVerify h tag => exact execGcmVerify_accesses s h tag
  | illegal opc => exact fail_accesses

end

theorem exec_performs {i : Instr} {s t : State} (h : exec i s = .next t) : Performs i s t := by
  obtain ⟨t', ht', hperforms⟩ := exec_accesses s i
  obtain rfl : t = t' := Host.Outcome.next.inj (h.symm.trans ht')
  exact hperforms

/-! ## The statements -/

theorem storedRange_of_storesNothing {i : Instr} (h : storesNothing i = true) (s : State) :
    storedRange i s = [] := by
  cases i <;> simp [storesNothing, storedRange] at h ⊢

/-- Settles O24: the accesses of a command with an empty output range hold no write. -/
theorem commandsThatStoreNothing : Obligations.CommandsThatStoreNothing := by
  intro i s t hi ht
  have hmem : t.mem = s.mem := by
    cases exec_performs ht with
    | failed _ hmem _ => exact hmem
    | done as _ htrace hrange _ =>
      refine htrace.mem fun a ha => ?_
      simpa [storedRange_of_storesNothing hi] using hrange a ha
  exact ⟨hmem, fun a => by rw [hmem]⟩

/-- Settles O25: a byte outside the output range is written by none of the command's accesses. -/
theorem onlyTheOutputRangeIsStored : Obligations.OnlyTheOutputRangeIsStored := by
  intro i s t ht a ha
  cases exec_performs ht with
  | failed _ hmem _ => rw [hmem]
  | done as _ htrace hrange _ => exact htrace.read a fun hwrite => ha (hrange a hwrite)

/-- Settles O27: a command that is done has the table's accesses behind it, one that failed has none. -/
theorem accessesFollowTheTable : Obligations.AccessesFollowTheTable := by
  intro i s t hs ht
  cases exec_performs ht with
  | failed hcode _ hlog =>
    obtain ⟨h0, h5⟩ := hcode
    exact ⟨fun h => (h.elim h0 h5).elim, fun _ _ => hlog⟩
  | done as hcode htrace _ htable =>
    refine ⟨fun _ => by rw [htrace.log, htable hs], fun h0 h5 => ?_⟩
    exact (hcode.elim h0 h5).elim

end Sys2Proof.Machine
end

section
/-! Splitting a cipher command's data (R216): two commands are one with the data concatenated, whatever the
overlap of the buffers (R60). -/

namespace Sys2Proof.Machine

/-! ## Commands one after another (R92) -/

theorem runCommands_single (i : Instr) (s : State) : runCommands [i] s = exec i s := by
  cases h : exec i s <;> simp [runCommands, h]

/-- A sequence goes on after a command that ends OK. -/
theorem runCommands_cons_ok {i : Instr} {s t : State} (h : exec i s = ok t) (is : List Instr) :
    runCommands (i :: is) s = runCommands is (t.withStatus .ok noHandle) := by
  rw [runCommands, h]
  exact if_pos (State.withStatus_code t .ok noHandle)

/-- A sequence stops at a command that fails. -/
theorem runCommands_cons_fail {i : Instr} {s : State} {code : StatusCode} (h : exec i s = fail code s)
    (hcode : code ≠ .ok) (is : List Instr) : runCommands (i :: is) s = fail code s := by
  have hne : code.code ≠ StatusCode.ok.code := by
    cases code <;> simp [StatusCode.code] at hcode ⊢
  rw [runCommands, h]
  exact if_neg (State.withStatus_code s code noHandle ▸ hne)

/-! ## Addresses modulo `2^ADDR_BITS` (R59) -/

theorem State.wrap_wrap_add (s : State) (a k : Nat) : s.wrap (s.wrap a + k) = s.wrap (a + k) :=
  Nat.mod_add_mod ..

section
variable {s t : State} (h : t.cfg = s.cfg) (a k : Nat)
include h

/-- A buffer may be given by an address that is not yet wrapped. -/
theorem State.byteAddrs_wrap_add (n : Nat) : t.byteAddrs (s.wrap a + k) n = t.byteAddrs (a + k) n := by
  simp only [State.byteAddrs, State.wrap, h, Nat.add_assoc, Nat.mod_add_mod]

theorem State.afterRead_wrap_add (n : Nat) : t.afterRead (s.wrap a + k) n = t.afterRead (a + k) n := by
  rw [State.afterRead, State.byteAddrs_wrap_add h]
  rfl

theorem State.memWrite_wrap_add (v : Bytes) : t.memWrite (s.wrap a + k) v = t.memWrite (a + k) v := by
  rw [State.memWrite, State.byteAddrs_wrap_add h]
  rfl

end

theorem State.wrap_congr {s t : State} (h : s.cfg = t.cfg) (a : Nat) : s.wrap a = t.wrap a := by
  simp only [State.wrap, h]

theorem State.addrOk_of_wrap {s : State} {a : Word} {b : Nat} (h : a.toNat = s.wrap b) :
    s.addrOk a = true :=
  addrOk_iff.2 (h ▸ Nat.mod_lt _ (Nat.two_pow_pos _))

/-! ## The loop of a cipher command -/

section
variable (enc : Bool) (input out : Nat)

/-- A round from buffers that begin `n` bytes further on is the round `n` further on. -/
theorem gcmCryptStep_wrap_add (n k : Nat) (gs : GcmCtx × State) :
    gcmCryptStep enc (gs.2.wrap (input + n)) (gs.2.wrap (out + n)) gs k =
      gcmCryptStep enc input out gs (n + k) := by
  simp only [gcmCryptStep, State.wrap_wrap_add, State.afterRead_wrap_add rfl,
    State.memWrite_wrap_add (State.afterRead_cfg ..), Nat.add_assoc]

theorem gcmCryptFold_cfg (ks : List Nat) (gs : GcmCtx × State) :
    (ks.foldl (gcmCryptStep enc input out) gs).2.cfg = gs.2.cfg :=
  (gcmCryptFold_busOnly enc input out ks gs).cfg

/-- The loop over buffers that begin `n` bytes further on is the loop's rounds from `n` on. -/
theorem gcmCryptFold_wrap_add (n : Nat) (ks : List Nat) (gs : GcmCtx × State) :
    ks.foldl (gcmCryptStep enc (gs.2.wrap (input + n)) (gs.2.wrap (out + n))) gs =
      (ks.map (n + ·)).foldl (gcmCryptStep enc input out) gs := by
  induction ks generalizing gs with
  | nil => rfl
  | cons k ks ih =>
    have hcfg : (gcmCryptStep enc input out gs (n + k)).2.cfg = gs.2.cfg :=
      gcmCryptFold_cfg enc input out [n + k] gs
    rw [List.foldl_cons, List.map_cons, List.foldl_cons, ← ih, gcmCryptStep_wrap_add,
      State.wrap_congr hcfg, State.wrap_congr hcfg]

/-- A loop of `m + n` rounds is `m` rounds and then `n` from buffers that begin behind them. -/
theorem gcmCryptFold_split (m n : Nat) (gs : GcmCtx × State) :
    (List.range (m + n)).foldl (gcmCryptStep enc input out) gs =
      (List.range n).foldl (gcmCryptStep enc (gs.2.wrap (input + m)) (gs.2.wrap (out + m)))
        ((List.range m).foldl (gcmCryptStep enc input out) gs) := by
  have hcfg := gcmCryptFold_cfg enc input out (List.range m) gs
  rw [List.range_add, List.foldl_append, ← gcmCryptFold_wrap_add, State.wrap_congr hcfg,
    State.wrap_congr hcfg]

/-- What a command that ends OK does to the state after its accesses: it puts its context back. -/
def putBack (h : Nat) (x : Slot) (s : State) : State := (s.setSlot h x).withStatus .ok noHandle

theorem putBack_putBack (h : Nat) (x y : Slot) (s : State) :
    putBack h y (putBack h x s) = putBack h y s := by
  simp [putBack, State.setSlot, State.withStatus]

/-- The loop works on its own copy of the context and does not see the table. -/
theorem gcmCryptFold_putBack (h : Nat) (x : Slot) (ks : List Nat) (gs : GcmCtx × State) :
    ks.foldl (gcmCryptStep enc input out) (gs.map id (putBack h x)) =
      (ks.foldl (gcmCryptStep enc input out) gs).map id (putBack h x) :=
  List.foldl_hom (Prod.map id (putBack h x)) fun _ _ => rfl

end

/-! ## Phases -/

@[simp] theorem gcmCryptByte_phase (g : GcmCtx) (b : Byte) (enc : Bool) :
    (gcmCryptByte g b enc).2.phase = g.phase := by
  have hks : (gcmKeystream g).2.phase = g.phase := by unfold gcmKeystream; split <;> rfl
  unfold gcmCryptByte
  dsimp only
  split <;> exact hks

theorem gcmCryptFold_phase (enc : Bool) (input out : Nat) (ks : List Nat) (gs : GcmCtx × State) :
    (ks.foldl (gcmCryptStep enc input out) gs).1.phase = gs.1.phase := by
  induction ks generalizing gs with
  | nil => rfl
  | cons k ks ih => exact (ih _).trans (gcmCryptByte_phase ..)

theorem gcmEnterCipher_of_ne_aad {g : GcmCtx} (h : g.phase ≠ .aad) : gcmEnterCipher g = g := if_neg h

theorem gcmEnterCipher_phase {g : GcmCtx} (h : g.phase ≠ .done) :
    (gcmEnterCipher g).phase ≠ .aad ∧ (gcmEnterCipher g).phase ≠ .done := by
  unfold gcmEnterCipher
  split
  · simp
  · exact ⟨‹_›, h⟩

/-! ## The two commands -/

/-- The loop of a cipher command of `len` bytes on the context `g`. -/
def gcmCryptRun (enc : Bool) (input len out : Nat) (g : GcmCtx) (s : State) : GcmCtx × State :=
  (List.range len).foldl (gcmCryptStep enc input out) (gcmEnterCipher g, s)

theorem gcmCrypt_pass {s : State} {h : Byte} {input out : Word} {g : GcmCtx}
    (hin : s.addrOk input = true) (hout : s.addrOk out = true) (hg : s.slotAt h = some (.gcm g))
    (hp : g.phase ≠ .done) (enc : Bool) (len : Word) :
    gcmCrypt enc h input len out s =
      ok ((gcmCryptRun enc input.toNat len.toNat out.toNat g s).2.setSlot h.toNat
        (.gcm (gcmCryptRun enc input.toNat len.toNat out.toNat g s).1)) := by
  rw [gcmCrypt, requireAddrs_pass (by simp [hin, hout]), withGcm_pass hg, if_neg hp]
  rfl

/-- The checks of a cipher command do not look at the length: it fails for every length, or for none. -/
theorem gcmCrypt_cases (enc : Bool) (h : Byte) (input out : Word) (s : State) :
    (∃ code, code ≠ .ok ∧ ∀ len, gcmCrypt enc h input len out s = fail code s) ∨
      (s.addrOk input = true ∧ s.addrOk out = true ∧
        ∃ g, s.slotAt h = some (.gcm g) ∧ g.phase ≠ .done) := by
  by_cases haddr : [input, out].all s.addrOk = true
  case neg =>
    exact .inl ⟨.invalidArgument, by decide, fun len => requireAddrs_fail (by simpa using haddr)⟩
  by_cases hslot : ∃ g, s.slotAt h = some (.gcm g)
  case neg =>
    refine .inl ⟨.invalidArgument, by decide, fun len => ?_⟩
    rw [gcmCrypt, requireAddrs_pass haddr]
    exact withGcm_elim (P := (· = fail .invalidArgument s)) rfl fun g hg => (hslot ⟨g, hg⟩).elim
  obtain ⟨g, hg⟩ := hslot
  by_cases hp : g.phase = .done
  case pos =>
    refine .inl ⟨.invalidState, by decide, fun len => ?_⟩
    rw [gcmCrypt, requireAddrs_pass haddr, withGcm_pass hg, if_pos hp]
  case neg =>
    obtain ⟨hin, hout⟩ : s.addrOk input = true ∧ s.addrOk out = true := by simpa using haddr
    exact .inr ⟨hin, hout, g, hg, hp⟩

/-- The second command goes on from what the first put back, and the two leave what one leaves. -/
theorem gcmCrypt_split {s : State} {h : Byte} {input input2 out out2 la lb lab : Word} {g : GcmCtx}
    (enc : Bool) (hg : s.slotAt h = some (.gcm g)) (hp : g.phase ≠ .done)
    (hin2 : input2.toNat = s.wrap (input.toNat + la.toNat))
    (hout2 : out2.toNat = s.wrap (out.toNat + la.toNat)) (hlab : lab.toNat = la.toNat + lb.toNat) :
    let r := gcmCryptRun enc input.toNat la.toNat out.toNat g s
    let r' := gcmCryptRun enc input.toNat lab.toNat out.toNat g s
    gcmCrypt enc h input2 lb out2 (putBack h.toNat (.gcm r.1) r.2) =
      ok (r'.2.setSlot h.toNat (.gcm r'.1)) := by
  intro r r'
  obtain ⟨haad, hdone⟩ := gcmEnterCipher_phase hp
  have hphase : r.1.phase = (gcmEnterCipher g).phase := gcmCryptFold_phase ..
  have hbus : BusOnly s r.2 := gcmCryptFold_busOnly enc _ _ _ (gcmEnterCipher g, s)
  have hslot : (putBack h.toNat (.gcm r.1) r.2).slotAt h = some (.gcm r.1) := by
    obtain ⟨hlt, -⟩ := List.getElem?_eq_some_iff.1 hg
    change (r.2.ctx.set h.toNat (.gcm r.1))[h.toNat]? = _
    rw [hbus.ctx]
    exact List.getElem?_set_self hlt
  have hcfg : (putBack h.toNat (.gcm r.1) r.2).cfg = s.cfg := hbus.cfg
  have hrun : gcmCryptRun enc input2.toNat lb.toNat out2.toNat r.1 (putBack h.toNat (.gcm r.1) r.2) =
      r'.map id (putBack h.toNat (.gcm r.1)) := by
    have hsplit : r' = (List.range lb.toNat).foldl (gcmCryptStep enc input2.toNat out2.toNat) r := by
      rw [hin2, hout2]
      exact (congrArg (gcmCryptRun enc input.toNat · out.toNat g s) hlab).trans (gcmCryptFold_split ..)
    rw [gcmCryptRun, gcmEnterCipher_of_ne_aad (hphase ▸ haad), hsplit]
    exact gcmCryptFold_putBack enc _ _ h.toNat (.gcm r.1) _ r
  rw [gcmCrypt_pass (State.addrOk_of_wrap (hin2.trans (State.wrap_congr hcfg.symm _)))
    (State.addrOk_of_wrap (hout2.trans (State.wrap_congr hcfg.symm _))) hslot (hphase ▸ hdone), hrun]
  exact congrArg Host.Outcome.next (putBack_putBack ..)

/-- Settles O48: where the first of the two fails so does the one, and else the loop's rounds are split. -/
theorem splitCipherIsTheSameAsWhole : Obligations.SplitCipherIsTheSameAsWhole := by
  intro s h input input2 out out2 la lb lab mk hmk hin2 hout2 hlab
  obtain ⟨enc, hexec⟩ : ∃ enc, ∀ h input len out s, exec (mk h input len out) s =
      gcmCrypt enc h input len out s := by
    rcases hmk with rfl | rfl
    · exact ⟨true, fun _ _ _ _ _ => rfl⟩
    · exact ⟨false, fun _ _ _ _ _ => rfl⟩
  rw [runCommands_single, hexec]
  rcases gcmCrypt_cases enc h input out s with ⟨code, hcode, hfail⟩ | ⟨hin, hout, g, hg, hp⟩
  · rw [runCommands_cons_fail ((hexec ..).trans (hfail la)) hcode, hfail]
  · rw [runCommands_cons_ok ((hexec ..).trans (gcmCrypt_pass hin hout hg hp enc la)), runCommands_single,
      hexec, gcmCrypt_pass hin hout hg hp enc lab]
    exact gcmCrypt_split enc hg hp hin2 hout2 hlab

end Sys2Proof.Machine
end

section
/-! The encoding family (30_encoding): a descriptor and the command it decodes to, the frame's static checks at
the doorbell, and writes of the register window. -/

namespace Sys2Proof

/-! ## Rows of the table and the descriptors they decode (R71, R73 to R75) -/

/-- The header word is made of its four fields (R71). -/
theorem header_fields (d : Descriptor) : header d.opc d.hnd d.alg d.aux = d.w0 := by
  unfold header Descriptor.opc Descriptor.hnd Descriptor.alg Descriptor.aux
  have join := @BitVec.extractLsb'_append_extractLsb'_eq_extractLsb' 32
  rw [join (start₁ := 16) (len₁ := 8) rfl, join (start₁ := 8) (len₁ := 8) rfl,
    join (start₁ := 0) (len₁ := 8) rfl]
  exact BitVec.extractLsb'_eq_self

/-- A legal opcode is decoded by its row of the table. -/
theorem decode_of_legal {d : Descriptor} (h : d.opc ∈ legalOpcodes) : ∃ r ∈ opTable, r.opc = d.opc ∧
    decode d = if r.reservedZero d then .ok (r.build d) else .error (.reservedField r.mnemonic) := by
  obtain ⟨r, hr, hopc⟩ := List.mem_map.1 (opTable_opc ▸ h)
  have hsome : (opTable.find? (·.opc == d.opc)).isSome := List.find?_isSome.2 ⟨r, hr, by simp [hopc]⟩
  obtain ⟨r', hfind⟩ := Option.isSome_iff_exists.1 hsome
  refine ⟨r', List.mem_of_find?_eq_some hfind, by simpa using List.find?_some hfind, ?_⟩
  simp only [decode, hfind]

/-- The descriptor with every field and word that the row marks `-` cleared. -/
def OpRow.keep (r : OpRow) (d : Descriptor) : Descriptor :=
  let word (n : Nat) (w : Word) : Word := if n ≤ r.words then w else 0
  ⟨header r.opc (if r.usesHnd then d.hnd else 0) (if r.usesAlg then d.alg else 0)
      (if r.usesAux then d.aux else 0),
    word 1 d.w1, word 2 d.w2, word 3 d.w3, word 4 d.w4, word 5 d.w5, word 6 d.w6, word 7 d.w7⟩

/-- Encoding what a row builds writes back every field and word the row does not mark `-`. -/
theorem OpRow.encode_build : ∀ r ∈ opTable, ∀ d, encode (r.build d) = r.keep d := by
  simp [opTable, OpRow.keep, encode]

theorem OpRow.reservedZero_iff {r : OpRow} {d : Descriptor} : r.reservedZero d = true ↔
    ((r.usesHnd = false → d.hnd = 0) ∧ (r.usesAlg = false → d.alg = 0) ∧ (r.usesAux = false → d.aux = 0)) ∧
      ∀ w ∈ d.operands.drop r.words, w = 0 := by
  simp only [reservedZero, Bool.and_eq_true, Bool.or_eq_true, beq_iff_eq, List.all_eq_true, and_assoc]
  cases r.usesHnd <;> cases r.usesAlg <;> cases r.usesAux <;> simp

/-- Where those are zero already, clearing them changes nothing. -/
theorem OpRow.keep_of_reservedZero {r : OpRow} {d : Descriptor} (hopc : r.opc = d.opc)
    (h : r.reservedZero d = true) : r.keep d = d := by
  obtain ⟨⟨hhnd, halg, haux⟩, hwords⟩ := OpRow.reservedZero_iff.1 h
  have hfield : ∀ {b : Bool} {x : Byte}, (b = false → x = 0) → (if b then x else 0) = x := by
    intro b x hx
    cases b <;> simp_all
  have hword : ∀ (n : Nat) (hn : n < 7), (if n + 1 ≤ r.words then d.operands[n] else 0) = d.operands[n] := by
    intro n hn
    split
    · rfl
    · refine (hwords _ ?_).symm
      exact List.mem_drop_iff_getElem.2 ⟨n - r.words, by simp [Descriptor.operands]; omega, by congr 1; omega⟩
  have hheader : header r.opc (if r.usesHnd then d.hnd else 0) (if r.usesAlg then d.alg else 0)
      (if r.usesAux then d.aux else 0) = d.w0 := by
    rw [hopc, hfield hhnd, hfield halg, hfield haux, header_fields]
  exact (Descriptor.mk.injEq ..).mpr ⟨hheader, hword 0 (by decide), hword 1 (by decide),
    hword 2 (by decide), hword 3 (by decide), hword 4 (by decide), hword 5 (by decide), hword 6 (by decide)⟩

/-- Settles O1: `decode_encode`, which asks nothing of the addresses. -/
theorem decodeOfEncodeIsTheCommand : Obligations.DecodeOfEncodeIsTheCommand := by
  intro p i hwf
  obtain ⟨hfits, -⟩ : i.opcodeFits = true ∧ i.addressesFit p = true := by
    simpa [Instr.wellFormed] using hwf
  exact decode_encode hfits

/-- Settles O2: what a row builds encodes to what the row keeps of the descriptor, which is all of it. -/
theorem encodeOfDecodeIsTheDescriptor : Obligations.EncodeOfDecodeIsTheDescriptor := by
  intro d i hlegal hdecode
  obtain ⟨r, hr, hopc, hrow⟩ := decode_of_legal hlegal
  rw [hrow] at hdecode
  split at hdecode
  · rename_i hzero
    obtain rfl := Except.ok.inj hdecode
    rw [OpRow.encode_build r hr, OpRow.keep_of_reservedZero hopc hzero]
  · cases hdecode

/-- Settles O7: the words that decode to a command are its encoding; the one with a nonzero `AUX` is a legal
opcode's and no command's. -/
theorem sampleWordsDecode : Obligations.SampleWordsDecode :=
  ⟨decode_encode (i := .hashCreate 0) rfl, decode_encode (i := .ctxRelease 3) rfl,
    decode_encode (i := .hmacUpdate 1 0x200 1) rfl,
    decode_encode (i := .pbkdf2Derive 0 0x100 9 0x200 0x10 0x300 0x10 0xA) rfl,
    decode_encode (i := .gcmInit 0 12 0x100 0x10 0x200 0xC) rfl,
    decode_encode (i := .gcmDecrypt 1 0x600 0x21 0x700) rfl, rfl, decode_encode (i := .illegal 4) rfl⟩

end Sys2Proof

namespace Sys2Proof.Machine

open Sys2Proof.Spec

/-! ## The frame's static checks at the doorbell (R75, R103) -/

/-- R75's condition, written out field by field, is the check of the opcode's row. -/
theorem reservedNonzero_eq :
    ∀ r ∈ opTable, ∀ d : Descriptor, d.opc = r.opc → reservedNonzero d = !r.reservedZero d := by
  simp +contextual [opTable, reservedNonzero, OpRow.reservedZero, anyNonzero, Descriptor.operands,
    beq_eq_decide]

/-- An address operand at or above `2^ADDR_BITS` ends every command before any other check (R103). -/
theorem exec_of_badAddress {i : Instr} {s : State} (h : badAddress s i = true) :
    exec i s = fail .invalidArgument s := by
  have hfail : i.addresses.all s.addrOk = false := by
    obtain ⟨a, ha, hbad⟩ := List.any_eq_true.1 h
    refine List.all_eq_false.2 ⟨a, ha, ?_⟩
    rw [addrOk_iff]
    simpa using hbad
  cases i
  case hashCreate | ctxRelease | illegal => simp [Instr.addresses] at hfail
  all_goals exact requireAddrs_fail hfail

/-- A doorbell write of any value is the doorbell of the state without it. -/
theorem step_doorbell {s : State} {v : Word} {rest : List HostAccess}
    (h : s.host = .windowWrite .word 0x20 v :: rest) : step s = doorbell { s with host := rest } :=
  step_of_host h

/-- Settles O3: a nonzero reserved field is no command, and a bad address fails whichever command it is. -/
theorem reservedFieldFailsWithoutEffect : Obligations.ReservedFieldFailsWithoutEffect := by
  intro s v rest hhost hlegal hbad
  have hfail : doorbell { s with host := rest } = fail .invalidArgument { s with host := rest, log := [] } := by
    rcases hbad with hreserved | ⟨i, hdecode, hbad⟩
    · obtain ⟨r, hr, hopc, hrow⟩ := decode_of_legal hlegal
      have hzero : r.reservedZero s.w = false := by
        simpa [reservedNonzero_eq r hr s.w hopc.symm] using hreserved
      simp [doorbell, hrow, hzero]
    · simp only [doorbell, hdecode]
      exact exec_of_badAddress hbad
  exact (step_doorbell hhost).trans hfail

/-! ## Window writes other than to the doorbell (R81, R83 to R87) -/

theorem wordAt_setW (d : Descriptor) (v : Word) {i j : Nat} (hi : i < 8) (hj : j < 8) :
    wordAt (setW d i v) j = if i = j then v else wordAt d j := by
  interval_cases i <;> interval_cases j <;> rfl

theorem hostAccess_windowWrite {off : Byte} (hdef : windowDefined .word off = true)
    (hne : off ≠ doorbellOffset) (v : Word) (s : State) :
    hostAccess (.windowWrite .word off v) s = .next (windowWrite s off v) :=
  (if_pos hdef).trans (if_neg hne)

/-- The word of the command window that a write at an offset replaces, if there is one (R81). -/
theorem windowWrite_eq (s : State) {off : Byte} (v : Word) (halign : off.toNat % 4 = 0) :
    ∃ d, windowWrite s off v = { s with w := d } ∧
      ∀ i < 8, wordAt d i = if off.toNat = 4 * i then v else wordAt s.w i := by
  have hlt : off < 0x20 ↔ off.toNat < 32 := BitVec.lt_def
  unfold windowWrite
  split
  · rename_i hin
    rw [hlt] at hin
    refine ⟨_, rfl, fun i hi => ?_⟩
    have hdiv : off.toNat / 4 = i ↔ off.toNat = 4 * i := by omega
    rw [wordAt_setW s.w v (by omega) hi]
    simp only [hdiv]
  · rename_i hout
    rw [hlt] at hout
    refine ⟨s.w, rfl, fun i hi => ?_⟩
    rw [if_neg (by omega)]

/-- Settles O9: the step is `windowWrite`, whose lemma says which word it replaces. -/
theorem windowWritesReachOnlyTheCommandWindow : Obligations.WindowWritesReachOnlyTheCommandWindow := by
  intro s off v rest hhost halign hne
  obtain ⟨d, hwrite, hwords⟩ := windowWrite_eq { s with host := rest } v halign
  have hdef : windowDefined .word off = true := windowDefined_iff.2 ⟨rfl, halign⟩
  rw [step_of_host hhost, hostAccess_windowWrite hdef hne, hwrite]
  exact ⟨d, rfl, hwords⟩

end Sys2Proof.Machine
end

section
/-! The pseudo-commands of 30_encoding R92: a creating command, commands on the handle it returned, and the
release of it. What each command does where its checks pass, and first the hash of a stream. -/

namespace Sys2Proof.Machine

open Sys2Proof.Spec

/-! ## The handle a creating command returns (R23, R100) -/

theorem freeSlot?_of_leastFree {s : State} {h : Nat} (hfree : leastFree s h) : s.freeSlot? = some h := by
  obtain ⟨hh, hlow⟩ := hfree
  obtain ⟨hlt, hslot⟩ := List.getElem?_eq_some_iff.1 hh
  refine List.findIdx?_eq_some_iff_getElem.2 ⟨hlt, by rw [hslot]; rfl, fun j hj hjfree => hlow j hj ?_⟩
  have hj' : j < s.ctx.length := hj.trans hlt
  rw [List.getElem?_eq_getElem hj']
  cases hx : s.ctx[j] <;> simp [hx, Slot.isFree] at hjfree ⊢

/-- A free slot's number fits the handle field (R6, R23). -/
theorem Inv.exists_handle {s : State} (hs : Inv s) (hfree : ∃ h, leastFree s h) :
    ∃ h : Byte, leastFree s h.toNat := by
  obtain ⟨h, hh⟩ := hfree
  obtain ⟨hlt, -⟩ := List.getElem?_eq_some_iff.1 hh.1
  obtain ⟨-, hctx, -⟩ := Params.legal_iff.1 hs.params
  rw [hs.table] at hlt
  refine ⟨BitVec.ofNat 8 h, ?_⟩
  rwa [BitVec.toNat_ofNat, Nat.mod_eq_of_lt (by omega)]

/-- `STATUS.HND` is the handle the status word was made with (R23). -/
@[simp] theorem statusWord_hnd (code : StatusCode) (hnd : Byte) :
    (statusWord code hnd).extractLsb' 8 8 = hnd := by
  unfold statusWord
  ext i hi
  simp only [BitVec.getElem_extractLsb', BitVec.getLsbD_append]
  have hout : ¬ 8 + i < 8 := by omega
  have hin : 8 + i - 8 = i := by omega
  simp [hout, hin, hi]

theorem runWithHandle_okHandle {create : Instr} {s t : State} {h : Byte}
    (hc : exec create s = okHandle h.toNat t) (rest : Byte → List Instr) :
    runWithHandle create rest s = runCommands (rest h) (t.withStatus .ok h) := by
  have hcode : (t.withStatus .ok h).code = StatusCode.ok.code := State.withStatus_code ..
  have hhnd : (t.withStatus .ok h).hnd = h := statusWord_hnd ..
  rw [runWithHandle, hc, okHandle, BitVec.ofNat_toNat, BitVec.setWidth_eq]
  exact (if_pos hcode).trans (by rw [hhnd])

/-! ## A command whose checks pass -/

section
variable {s : State} {h : Byte}

theorem State.slotAt_lt {x : Slot} (hx : s.slotAt h = some x) : h.toNat < s.ctx.length :=
  (List.getElem?_eq_some_iff.1 hx).1

theorem execCtxRelease_pass {x : Slot} (hx : s.slotAt h = some x) (hlive : x.isFree = false) :
    exec (.ctxRelease h) s = ok (s.release h.toNat x) := by
  change withSlot s h _ = _
  simp [withSlot, hx, hlive]

theorem execHashCreate_pass {h : Nat} (hfree : s.freeSlot? = some h) (hroom : 112 ≤ s.poolFree.toNat) :
    exec (.hashCreate 0) s = okHandle h
      (({ s with poolFree := s.poolFree - 112 } : State).setSlot h (.hash (.active (hashInit sha256)))) := by
  have halg : lookupAlg 0 = some sha256 := rfl
  rw [exec, execHashCreate, withAlg_pass halg]
  exact withAlloc_pass hfree hroom

variable {c : HashLive}

/-- The algorithm of a well-formed context is SHA-256, the only row of the table. -/
theorem HashLive.wf.lookup (hc : c.wf) : lookupAlg c.alg = some sha256 := by
  obtain ⟨d, hd, -⟩ := hc
  obtain ⟨-, rfl⟩ := lookupAlg_some hd
  exact hd

theorem HashLive.wf.digestLen_toNat (hc : c.wf) : c.digestLen.toNat = 32 := by
  obtain ⟨d, hd, hlen, -⟩ := hc
  obtain ⟨-, rfl⟩ := lookupAlg_some hd
  exact hlen

theorem execHashUpdate_pass {data : Word} (haddr : s.addrOk data = true)
    (hslot : s.slotAt h = some (.hash (.active c))) (hc : c.wf) (len : Word) :
    exec (.hashUpdate h data len) s = ok ((s.afterRead data.toNat len.toNat).setSlot h.toNat
      (.hash (.active (hashUpdate sha256 c (buffer s data.toNat len.toNat))))) :=
  (requireAddrs_pass (by simp [haddr])).trans ((withHash_pass hslot).trans (withAlg_pass hc.lookup))

theorem execHashDigest_pass {out : Word} (haddr : s.addrOk out = true)
    (hslot : s.slotAt h = some (.hash (.active c))) (hc : c.wf) :
    exec (.hashDigest h out) s = ok ((s.memWrite out.toNat (hashFinish sha256 c)).setSlot h.toNat
      (.hash (.final c.alg c.digestLen c.blockSize))) := by
  have hrun : exec (.hashDigest h out) s =
      ok ((s.setSlot h.toNat (.hash (.final c.alg c.digestLen c.blockSize))).memWrite out.toNat
        ((hashFinish sha256 c).take c.digestLen.toNat)) :=
    (requireAddrs_pass (by simp [haddr])).trans ((withHash_pass hslot).trans (withAlg_pass hc.lookup))
  have hlen : (hashFinish sha256 c).length = c.digestLen.toNat := by
    rw [hashFinish_length hc, hc.digestLen_toNat]
  rw [hrun, List.take_of_length_le hlen.le, State.memWrite_setSlot]

end

/-- A sequence goes on after a command that puts its context back. -/
theorem runCommands_cons_putBack {i : Instr} {s u : State} {h : Nat} {x : Slot}
    (hi : exec i s = ok (u.setSlot h x)) (is : List Instr) :
    runCommands (i :: is) s = runCommands is (putBack h x u) := runCommands_cons_ok hi is

/-- The next command finds the context that was put in the slot. -/
theorem slotAt_setSlot_withStatus {s u : State} {h : Byte} {x : Slot} {code : StatusCode} {hnd : Byte}
    (hctx : u.ctx = s.ctx) (hlt : h.toNat < s.ctx.length) :
    ((u.setSlot h.toNat x).withStatus code hnd).slotAt h = some x := by
  rw [State.slotAt, State.withStatus_ctx, State.setSlot_ctx, hctx, List.getElem?_set_self hlt]

theorem slotAt_putBack {s u : State} {h : Byte} {x y : Slot} (hctx : u.ctx = s.ctx)
    (hy : s.slotAt h = some y) : (putBack h.toNat x u).slotAt h = some x :=
  slotAt_setSlot_withStatus hctx (State.slotAt_lt hy)

/-! ## The hash of a stream (R126, R127) -/

/-- The last two commands: the digest is written, the slot and its pool bytes are free. -/
theorem runCommands_hashDigest {t : State} {h : Byte} {c : HashLive} {out : Word}
    (hslot : t.slotAt h = some (.hash (.active c))) (hc : c.wf) (hout : t.addrOk out = true) :
    runCommands [.hashDigest h out, .ctxRelease h] t = .next { t with
      ctx := t.ctx.set h.toNat .free
      poolFree := t.poolFree + 112
      mem := stored t out.toNat (hashFinish sha256 c)
      log := t.log ++ writes t out.toNat 32
      status := status 0 0xFF } := by
  have hsize : Slot.size (.hash (.final c.alg c.digestLen c.blockSize)) = 112 := by
    rw [Slot.size, sizeOfAlg, hc.lookup]
    rfl
  rw [runCommands_cons_putBack (execHashDigest_pass hout hslot hc), runCommands_single,
    execCtxRelease_pass (slotAt_putBack (State.memWrite_ctx ..) hslot) rfl]
  simp only [putBack, ok, State.release, hsize, State.memWrite_eq, hashFinish_length hc, State.setSlot,
    State.withStatus, List.set_set]
  rfl

/-- Updates and the last two commands: the digest is that of what the context held and the data. -/
theorem runCommands_hashStream {t : State} {h : Byte} {c : HashLive} {out : Word}
    {parts : List (Word × Word)} (hslot : t.slotAt h = some (.hash (.active c))) (hc : c.wf)
    (hparts : ∀ p ∈ parts, t.addrOk p.1 = true) (hout : t.addrOk out = true) :
    runCommands (parts.map (fun p => .hashUpdate h p.1 p.2) ++ [.hashDigest h out, .ctxRelease h]) t =
      .next { t with
        ctx := t.ctx.set h.toNat .free
        poolFree := t.poolFree + 112
        mem := stored t out.toNat (hashFinish sha256
          (hashUpdate sha256 c (parts.flatMap fun p => buffer t p.1.toNat p.2.toNat)))
        log := t.log ++ (parts.flatMap fun p => reads t p.1.toNat p.2.toNat) ++ writes t out.toNat 32
        status := status 0 0xFF } := by
  induction parts generalizing t c with
  | nil => simpa using runCommands_hashDigest hslot hc hout
  | cons p parts ih =>
    obtain ⟨hp, hparts⟩ := List.forall_mem_cons.1 hparts
    rw [List.map_cons, List.cons_append, runCommands_cons_putBack (execHashUpdate_pass hp hslot hc p.2),
      ih (slotAt_putBack (State.afterRead_ctx ..) hslot) (hashUpdate_wf hc.lookup hc _) hparts hout]
    simp only [putBack, List.flatMap_cons, hashUpdate_append, State.withStatus, State.setSlot,
      State.afterRead_eq, List.set_set, List.append_assoc]
    rfl

/-- Settles O34: the commands after HASH_CREATE are a stream on a fresh context. -/
theorem hashOfTheDataIsWritten : Obligations.HashOfTheDataIsWritten := by
  intro s parts out hs hparts hout hfree hroom
  obtain ⟨h, hh⟩ := hs.exists_handle hfree
  obtain ⟨hlt, hslot⟩ := List.getElem?_eq_some_iff.1 hh.1
  rw [runWithHandle_okHandle (execHashCreate_pass (freeSlot?_of_leastFree hh) hroom)]
  rw [runCommands_hashStream
    (slotAt_setSlot_withStatus (u := { s with poolFree := s.poolFree - 112 }) rfl hlt) hashInit_wf
    (fun p hp => addrOk_iff.2 (hparts p hp)) (addrOk_iff.2 hout), hashOf_eq]
  have hctx : (s.ctx.set h.toNat (.hash (.active (hashInit sha256)))).set h.toNat .free = s.ctx := by
    rw [List.set_set, ← hslot, List.set_getElem_self]
  have hpool : s.poolFree - 112 + 112 = s.poolFree := BitVec.sub_add_cancel ..
  simp only [State.withStatus, State.setSlot, hctx, hpool]
  rfl

end Sys2Proof.Machine
end

section
/-! Authenticated encryption as a run of commands (30_encoding R92, 45_gcm R216, R217): the cipher loop and the
tag in one-shot form, and GCM_SEAL and GCM_OPEN. -/

namespace Sys2Proof.Machine

open Sys2Proof.Spec

/-! ## The cipher loop in closed form (R216, R232, R233) -/

theorem afterCipher_nil {g : GcmCtx} (hg : g.Streaming) : afterCipher g [] = g := by
  have hshort : g.gbuf.length < 16 := by rw [hg.pending]; omega
  have hks := hg.keystream
  simp only [afterCipher, hg.entered, List.length_nil, Nat.add_zero, Nat.sub_self, counter, List.append_nil,
    ghashOf, chunks_short hshort, remainder_short hshort, List.map_nil, List.foldl_nil, Nat.mod_mod, ← hks]
  simp

theorem cryptRun_succ (enc : Bool) (s : State) (g : GcmCtx) (input out n : Nat) :
    let r := cryptRun enc s g input out n
    let b := r.1.read (s.wrap (input + n))
    let o := b ^^^ nextKeystream g n
    cryptRun enc s g input out (n + 1) = (r.1.write (s.wrap (out + n)) o, r.2 ++ [if enc then o else b]) := by
  simp only [cryptRun, List.range_succ, List.foldl_append]
  rfl

theorem cryptRun_length (enc : Bool) (s : State) (g : GcmCtx) (input out n : Nat) :
    (cryptRun enc s g input out n).2.length = n := by
  induction n with
  | zero => rfl
  | succ n ih => simp [cryptRun_succ, ih]

theorem State.memWrite_singleton_mem (s : State) (addr : Nat) (b : Byte) :
    (s.memWrite addr [b]).mem = s.mem.write (s.wrap addr) b := rfl

/-- The machine's byte loop is the run of Reference.lean. -/
theorem gcmCryptFold_eq {g : GcmCtx} (hg : g.Streaming) (enc : Bool) (s : State) (input out n : Nat) :
    ((List.range n).foldl (gcmCryptStep enc input out) (g, s)).1 =
        afterCipher g (cryptRun enc s g input out n).2 ∧
      ((List.range n).foldl (gcmCryptStep enc input out) (g, s)).2.mem = (cryptRun enc s g input out n).1 := by
  induction n with
  | zero => exact ⟨(afterCipher_nil hg).symm, rfl⟩
  | succ n ih =>
    obtain ⟨hctx, hmem⟩ := ih
    have hcfg := gcmCryptFold_cfg enc input out (List.range n) (g, s)
    have hks : nextKeystream (afterCipher g (cryptRun enc s g input out n).2) 0 = nextKeystream g n := by
      rw [nextKeystream_after hg, cryptRun_length, Nat.add_zero]
    rw [List.range_succ, List.foldl_append, List.foldl_cons, List.foldl_nil, cryptRun_succ, gcmCryptStep,
      hctx, hmem, gcmCryptByte_eq (hg.after _), afterCipher_append hg, hks, State.wrap_congr hcfg,
      State.memWrite_singleton_mem, State.afterRead_mem, hmem, State.wrap_congr (State.afterRead_cfg ..),
      State.wrap_congr hcfg]
    exact ⟨rfl, rfl⟩

/-! The first call's flush (R232) does not reach the keystream. -/

theorem nextKeystream_entered (g : GcmCtx) : nextKeystream (entered g) = nextKeystream g := by
  unfold entered
  split <;> rfl

theorem cryptRun_entered (enc : Bool) (s : State) (g : GcmCtx) :
    cryptRun enc s (entered g) = cryptRun enc s g := by
  funext input out n
  simp only [cryptRun, nextKeystream_entered]

theorem entered_entered (g : GcmCtx) : entered (entered g) = entered g := by
  unfold entered
  split <;> simp_all

theorem afterCipher_entered (g : GcmCtx) (ct : Bytes) : afterCipher (entered g) ct = afterCipher g ct := by
  simp only [afterCipher, entered_entered]
  unfold entered
  split <;> rfl

theorem gcmCryptRun_eq {g : GcmCtx} (hg : g.wf) (hp : g.phase ≠ .done) (enc : Bool) (s : State)
    (input len out : Nat) :
    (gcmCryptRun enc input len out g s).1 = afterCipher g (cryptRun enc s g input out len).2 ∧
      (gcmCryptRun enc input len out g s).2.mem = (cryptRun enc s g input out len).1 := by
  obtain ⟨hwf, hphase⟩ := gcmEnterCipher_wf hg hp
  obtain ⟨hctx, hmem⟩ := gcmCryptFold_eq (hwf.streaming hphase) enc s input out len
  rw [gcmEnterCipher_eq hg, cryptRun_entered] at hctx hmem
  rw [gcmCryptRun, gcmEnterCipher_eq hg]
  exact ⟨hctx.trans (afterCipher_entered g _), hmem⟩

/-! ## Whole messages: no output byte lands on an input byte still to be read (R60) -/

theorem bufferAddrs_succ (p : Params) (addr n : Nat) :
    bufferAddrs p addr (n + 1) = bufferAddrs p addr n ++ [(addr + n) % 2 ^ p.addrBits] := by
  simp [bufferAddrs, List.range_succ]

theorem buffer_succ (s : State) (addr n : Nat) :
    buffer s addr (n + 1) = buffer s addr n ++ [s.mem.read (s.wrap (addr + n))] := by
  simp [buffer, bufferAddrs_succ, State.wrap]

theorem buffer_length (s : State) (addr n : Nat) : (buffer s addr n).length = n := by
  simp [buffer, bufferAddrs]

theorem stored_concat (s : State) (addr : Nat) (v : Bytes) (b : Byte) :
    stored s addr (v ++ [b]) = (stored s addr v).write (s.wrap (addr + v.length)) b := by
  have hlen : (bufferAddrs s.cfg addr v.length).length = v.length := by simp [bufferAddrs]
  rw [stored, List.length_append, List.length_singleton, bufferAddrs_succ, List.zip_append hlen,
    List.foldl_append]
  rfl

theorem read_stored_of_notMem {s : State} {addr x : Nat} {v : Bytes}
    (h : x ∉ bufferAddrs s.cfg addr v.length) : (stored s addr v).read x = s.mem.read x :=
  State.memWrite_read_of_notMem s h

/-- The counter-mode transform of bytes that follow on what the context has taken (R216). -/
def GcmCtx.crypt (g : GcmCtx) (bs : Bytes) : Bytes := bs.mapIdx fun k b => b ^^^ nextKeystream g k

@[simp] theorem GcmCtx.crypt_length (g : GcmCtx) (bs : Bytes) : (g.crypt bs).length = bs.length := by
  simp [GcmCtx.crypt]

theorem GcmCtx.crypt_concat (g : GcmCtx) (bs : Bytes) (b : Byte) :
    g.crypt (bs ++ [b]) = g.crypt bs ++ [b ^^^ nextKeystream g bs.length] := by
  simp [GcmCtx.crypt, List.mapIdx_append]

/-- The run writes the transform of the input as it stood before, and GHASH takes the ciphertext. -/
theorem cryptRun_eq {s : State} {input out len : Nat} (h : readBeforeOverwritten s.cfg input out len)
    (enc : Bool) (g : GcmCtx) :
    cryptRun enc s g input out len = (stored s out (g.crypt (buffer s input len)),
      if enc then g.crypt (buffer s input len) else buffer s input len) := by
  have hupto : ∀ n ≤ len, cryptRun enc s g input out n = (stored s out (g.crypt (buffer s input n)),
      if enc then g.crypt (buffer s input n) else buffer s input n) := by
    intro n hn
    induction n with
    | zero => cases enc <;> rfl
    | succ n ih =>
      have hread : (stored s out (g.crypt (buffer s input n))).read (s.wrap (input + n)) =
          s.mem.read (s.wrap (input + n)) := by
        refine read_stored_of_notMem fun hmem => ?_
        rw [GcmCtx.crypt_length, buffer_length] at hmem
        obtain ⟨j, hj, heq⟩ := mem_bufferAddrs.1 hmem
        exact h n hn j hj heq
      simp only [cryptRun_succ, ih (Nat.le_of_succ_le hn), hread, buffer_succ, GcmCtx.crypt_concat,
        stored_concat, GcmCtx.crypt_length, buffer_length]
      cases enc <;> rfl
  exact hupto len le_rfl

theorem gcmCryptRun_busOnly (enc : Bool) (input len out : Nat) (g : GcmCtx) (s : State) :
    BusOnly s (gcmCryptRun enc input len out g s).2 :=
  gcmCryptFold_busOnly enc input out (List.range len) (gcmEnterCipher g, s)

section
variable {g : GcmCtx} (hg : g.wf) (hp : g.phase ≠ .done)
include hg hp

/-- A cipher command leaves a well-formed context in CIPHER, under its key. -/
theorem gcmCryptRun_wf (enc : Bool) (s : State) (input len out : Nat) :
    (gcmCryptRun enc input len out g s).1.wf ∧ (gcmCryptRun enc input len out g s).1.phase = .cipher ∧
      (gcmCryptRun enc input len out g s).1.nr = g.nr := by
  obtain ⟨hwf, hphase⟩ := gcmEnterCipher_wf hg hp
  obtain ⟨hwf', hphase', hnr⟩ :=
    gcmCryptFold_wf enc input out (List.range len) (gs := (gcmEnterCipher g, s)) hwf hphase
  exact ⟨hwf', hphase', hnr.trans (gcmEnterCipher_nr g)⟩

theorem gcmCryptRun_whole {s : State} {input out len : Nat} (h : readBeforeOverwritten s.cfg input out len)
    (enc : Bool) :
    (gcmCryptRun enc input len out g s).1 =
        afterCipher g (if enc then g.crypt (buffer s input len) else buffer s input len) ∧
      (gcmCryptRun enc input len out g s).2.mem = stored s out (g.crypt (buffer s input len)) := by
  have hrun := gcmCryptRun_eq hg hp enc s input len out
  rwa [cryptRun_eq h] at hrun

end

/-! ## The tag of a message (R214, R217) -/

theorem remainder_pad16 (s : Bytes) : remainder 16 (pad16 s) = [] := by
  rw [← List.length_eq_zero_iff, remainder_length, pad16_length]
  omega

theorem ghashOf_pad16_append (h y : Block) (s t : Bytes) :
    ghashOf h y (pad16 s ++ t) = ghashOf h (ghashOf h y (pad16 s)) t := by
  rw [ghashOf_append, remainder_pad16, List.nil_append]

/-- Hashing the whole blocks and then the padded rest is hashing the padded whole. -/
theorem ghashOf_remainder (h y : Block) (s : Bytes) :
    ghashOf h (ghashOf h y s) (pad16 (remainder 16 s)) = ghashOf h y (pad16 s) := by
  have hpad : pad16 (remainder 16 s) = remainder 16 s ++ List.replicate ((16 - s.length % 16) % 16) 0 := by
    rw [pad16, remainder_length, Nat.mod_mod]
  rw [hpad, ← ghashOf_append]
  rfl

/-- `g` is the context of a message under the key material `k` when the AAD `ad` was given and no cipher data
yet. -/
structure GcmCtx.AfterAad (g : GcmCtx) (k : GcmKey) (ad : Bytes) : Prop where
  rk : g.rk = k.rk
  nr : g.nr.toNat = k.nr
  h : g.h = k.h
  j0 : g.j0 = k.j0
  cb : g.cb = k.j0
  ctLen : g.ctLen = 0
  phase : g.phase = .aad
  y : g.y = ghashOf k.h 0 ad
  gbuf : g.gbuf = remainder 16 ad
  aadLen : g.aadLen = BitVec.ofNat 64 ad.length

section
variable {g : GcmCtx} {k : GcmKey} {ad : Bytes} (hg : g.AfterAad k ad)
include hg

theorem GcmCtx.AfterAad.crypt (bs : Bytes) : g.crypt bs = k.crypt bs := by
  simp [GcmCtx.crypt, GcmKey.crypt, ctrOf, keystreamByte, nextKeystream, hg.rk, hg.nr, hg.cb, hg.ctLen]

theorem GcmCtx.AfterAad.flushed : flushed g = ghashOf k.h 0 (pad16 ad) := by
  rw [Spec.flushed, hg.h, hg.y, hg.gbuf, ghashOf_remainder]

theorem GcmCtx.AfterAad.entered :
    entered g = { g with y := ghashOf k.h 0 (pad16 ad), gbuf := [], phase := .cipher } := by
  rw [Spec.entered, if_pos hg.phase, hg.flushed]

/-- The tag after the ciphertext `ct`, of lengths the length block can hold (R217). -/
theorem GcmCtx.AfterAad.tagOfCtx {ct : Bytes} (had : ad.length < 2 ^ 61) (hct : ct.length < 2 ^ 61) :
    tagOfCtx (afterCipher g ct) = (k.tag ad ct).take g.tagLen.toNat := by
  have hflush : Spec.flushed (afterCipher g ct) = ghashOf k.h (ghashOf k.h 0 (pad16 ad)) (pad16 ct) := by
    simp only [Spec.flushed, afterCipher, hg.entered, List.nil_append, hg.h, ghashOf_remainder]
  have hlen : ∀ n < 2 ^ 61, 8 * (BitVec.ofNat 64 n).toNat % 2 ^ 64 = 8 * n := by
    intro n hn
    rw [BitVec.toNat_ofNat]
    omega
  have hfinal : finalY (afterCipher g ct) =
      ghashOf k.h 0 (pad16 ad ++ pad16 ct ++ (beBytes 8 (8 * ad.length) ++ beBytes 8 (8 * ct.length))) := by
    have hcount : g.ctLen + BitVec.ofNat 64 ct.length = BitVec.ofNat 64 ct.length := by
      rw [hg.ctLen]
      exact BitVec.zero_add _
    rw [List.append_assoc, ghashOf_pad16_append, ghashOf_pad16_append, finalY, hflush]
    simp only [afterCipher, hg.entered, hg.h, hg.aadLen, hcount, hlen _ had, hlen _ hct]
  rw [Spec.tagOfCtx, hfinal, GcmKey.tag, tagOf]
  simp only [afterCipher, hg.entered, hg.rk, hg.nr, hg.j0]

end

theorem gcmInitCtx_nr {key : Bytes} (hk : key.length ∈ aesKeyLens) (t : Byte) (iv : Bytes) :
    (gcmInitCtx t key iv).nr.toNat = key.length / 4 + 6 := by
  have hlt : ∀ n ∈ aesKeyLens, n / 4 + 6 < 16 := by decide
  rw [gcmInitCtx, BitVec.toNat_ofNat, roundsOf, Nat.mod_eq_of_lt (hlt _ hk)]

/-- A context built from key and IV, given the AAD (R213, R215, R230). -/
theorem gcmInitCtx_afterAad {key : Bytes} (hk : key.length ∈ aesKeyLens) (t : Byte) (iv ad : Bytes) :
    (ad.foldl gcmAadByte (gcmInitCtx t key iv)).AfterAad (gcmKeyOf key iv) ad := by
  have hj0 : (gcmInitCtx t key iv).j0 = (gcmKeyOf key iv).j0 := deriveJ0_eq _ _
  rw [gcmAad_eq rfl]
  exact {
    rk := rfl
    nr := gcmInitCtx_nr hk t iv
    h := rfl
    j0 := hj0
    cb := hj0
    ctLen := rfl
    phase := rfl
    y := rfl
    gbuf := rfl
    aadLen := BitVec.zero_add _ }

/-! ## The commands of the unit, where their checks pass (R230 to R235) -/

theorem requireArg_pass {s : State} {p : Bool} {k : Result} (h : p = true) : requireArg s p k = k := if_pos h

section
variable {s : State} {h : Byte} {g : GcmCtx}

theorem execGcmInit_pass {key keyLen iv ivLen : Word} {h : Nat} (hkey : s.addrOk key = true)
    (hiv : s.addrOk iv = true) (hkeyLen : keyLen.toNat ∈ aesKeyLens) (hivLen : ivLen ≠ 0)
    (hfree : s.freeSlot? = some h) (hroom : sizeGcm (roundsOf keyLen.toNat) ≤ s.poolFree.toNat) :
    exec (.gcmInit 0 0 key keyLen iv ivLen) s = okHandle h
      ((({ s with poolFree := s.poolFree - BitVec.ofNat 16 (sizeGcm (roundsOf keyLen.toNat)) } : State)
          |>.afterRead key.toNat keyLen.toNat |>.afterRead iv.toNat ivLen.toNat).setSlot h
        (.gcm (gcmInitCtx 16 (buffer s key.toNat keyLen.toNat) (buffer s iv.toNat ivLen.toNat)))) := by
  have hk : aesKeyLens.contains keyLen.toNat = true := by simpa using hkeyLen
  have hi : (ivLen != 0) = true := by simpa using hivLen
  have htag : tagLenLegal.contains (tagLenOf 0) = true := by decide
  rw [exec, execGcmInit, requireAddrs_pass (by simp [hkey, hiv]), if_neg (by simp), requireArg_pass hk,
    requireArg_pass hi, requireArg_pass htag, withAlloc_pass hfree hroom]
  rfl

theorem execGcmAad_pass {data : Word} (haddr : s.addrOk data = true) (hslot : s.slotAt h = some (.gcm g))
    (hp : g.phase = .aad) (len : Word) :
    exec (.gcmAad h data len) s = ok ((s.afterRead data.toNat len.toNat).setSlot h.toNat
      (.gcm ((buffer s data.toNat len.toNat).foldl gcmAadByte g))) := by
  rw [exec, execGcmAad, requireAddrs_pass (by simp [haddr]), withGcm_pass hslot, if_neg (not_not.2 hp)]
  rfl

theorem execGcmDigest_pass {tag : Word} (haddr : s.addrOk tag = true) (hslot : s.slotAt h = some (.gcm g))
    (hg : g.wf) (hp : g.phase ≠ .done) :
    exec (.gcmDigest h tag) s =
      ok ((s.memWrite tag.toNat (tagOfCtx g)).setSlot h.toNat (.gcm (finished g))) := by
  rw [exec, execGcmDigest, requireAddrs_pass (by simp [haddr]), withGcm_pass hslot, if_neg hp, gcmTag_eq hg hp,
    ← State.memWrite_setSlot]

theorem execGcmVerify_pass {tag : Word} (haddr : s.addrOk tag = true) (hslot : s.slotAt h = some (.gcm g))
    (hg : g.wf) (hp : g.phase ≠ .done) :
    exec (.gcmVerify h tag) s = .next (((s.afterRead tag.toNat g.tagLen.toNat).setSlot h.toNat
      (.gcm (finished g))).withStatus
        (if buffer s tag.toNat g.tagLen.toNat = tagOfCtx g then .ok else .authenticationFailed) noHandle) := by
  have hlen : (tagOfCtx g).length = (buffer s tag.toNat g.tagLen.toNat).length := by
    have := gcmTag_length hg
    rwa [gcmTag_eq hg hp, ← buffer_length s tag.toNat g.tagLen.toNat] at this
  have hct := ctEqual_iff hlen
  rw [exec, execGcmVerify, requireAddrs_pass (by simp [haddr]), withGcm_pass hslot, if_neg hp, gcmTag_eq hg hp]
  change (if ctEqual (tagOfCtx g) (buffer s tag.toNat g.tagLen.toNat) = true then _ else _) = _
  by_cases heq : tagOfCtx g = buffer s tag.toNat g.tagLen.toNat
  · rw [if_pos (hct.2 heq), if_pos heq.symm]
    rfl
  · rw [if_neg (mt hct.1 heq), if_neg (Ne.symm heq)]
    rfl

end

/-! ## A run that holds one context -/

/-- `t` is `s` with memory `m` and a context `x` in slot `h`, whose bytes are taken from the pool. -/
structure Holding (s t : State) (h : Byte) (x : Slot) (m : Memory) : Prop where
  cfg : t.cfg = s.cfg
  ctx : t.ctx = s.ctx.set h.toNat x
  poolFree : t.poolFree = s.poolFree - BitVec.ofNat 16 x.size
  mem : t.mem = m

namespace Holding

variable {s t u : State} {h : Byte} {x y : Slot} {m : Memory}

theorem slotAt (ht : Holding s t h x m) (hh : leastFree s h.toNat) : t.slotAt h = some x := by
  obtain ⟨hlt, -⟩ := List.getElem?_eq_some_iff.1 hh.1
  rw [State.slotAt, ht.ctx, List.getElem?_set_self hlt]

theorem addrOk (ht : Holding s t h x m) {a : Word} (ha : a.toNat < 2 ^ s.cfg.addrBits) : t.addrOk a = true :=
  addrOk_iff.2 (ht.cfg ▸ ha)

/-- A command on the context: it uses the master port and puts a context of the same size in the slot. -/
theorem setSlot (ht : Holding s t h x m) (hu : BusOnly t u) (hsize : y.size = x.size) (code : StatusCode)
    (hnd : Byte) : Holding s ((u.setSlot h.toNat y).withStatus code hnd) h y u.mem where
  cfg := hu.cfg.trans ht.cfg
  ctx := by simp [hu.ctx, ht.ctx]
  poolFree := by rw [hsize]; exact hu.poolFree.trans ht.poolFree
  mem := rfl

/-- Releasing the context gives the table and the pool back as they were. -/
theorem runCommands_release (ht : Holding s t h x m) (hh : leastFree s h.toNat) (hlive : x.isFree = false) :
    ∃ u, runCommands [.ctxRelease h] t = .next u ∧ u.status = status 0 0xFF ∧ u.ctx = s.ctx ∧
      u.poolFree = s.poolFree ∧ u.mem = m := by
  obtain ⟨_, hfree⟩ := List.getElem?_eq_some_iff.1 hh.1
  refine ⟨_, (runCommands_single ..).trans (execCtxRelease_pass (ht.slotAt hh) hlive), rfl, ?ctx, ?pool, ht.mem⟩
  case ctx => rw [State.withStatus_ctx, State.release_ctx, ht.ctx, List.set_set, ← hfree, List.set_getElem_self]
  case pool => rw [State.withStatus_poolFree, State.release_poolFree, ht.poolFree, BitVec.sub_add_cancel]

end Holding

theorem buffer_congr {s t : State} (hcfg : t.cfg = s.cfg) (hmem : t.mem = s.mem) (addr n : Nat) :
    buffer t addr n = buffer s addr n := State.bytesAt_congr hcfg hmem addr n

theorem stored_congr {s t : State} (hcfg : t.cfg = s.cfg) (hmem : t.mem = s.mem) (addr : Nat) (v : Bytes) :
    stored t addr v = stored s addr v := by
  rw [stored, hcfg, hmem, stored]

theorem State.mem_memWrite (s : State) (addr : Nat) (v : Bytes) :
    (s.memWrite addr v).mem = stored s addr v := rfl

/-! ## One message (R92) -/

/-- A sequence stops at a command that does not end OK, with what it did. -/
theorem runCommands_cons_stop {i : Instr} {s t : State} (h : exec i s = .next t)
    (hcode : t.code ≠ StatusCode.ok.code) (is : List Instr) : runCommands (i :: is) s = .next t := by
  rw [runCommands, h]
  exact if_neg hcode

theorem Slot.size_gcm_congr {g g' : GcmCtx} (h : g'.nr = g.nr) : Slot.size (.gcm g') = Slot.size (.gcm g) := by
  rw [Slot.size, h, Slot.size]

section
variable {s t : State} {h : Byte}

/-- GCM_INIT puts the context of key and IV in the least free slot. -/
theorem execGcmInit_holding {key keyLen iv ivLen : Word} (hkey : key.toNat < 2 ^ s.cfg.addrBits)
    (hiv : iv.toNat < 2 ^ s.cfg.addrBits) (hkeyLen : keyLen.toNat ∈ aesKeyLens) (hivLen : ivLen ≠ 0)
    (hh : leastFree s h.toNat) (hroom : sizeGcm (roundsOf keyLen.toNat) ≤ s.poolFree.toNat) :
    ∃ u, exec (.gcmInit 0 0 key keyLen iv ivLen) s = okHandle h.toNat u ∧
      Holding s (u.withStatus .ok h) h
        (.gcm (gcmInitCtx 16 (buffer s key.toNat keyLen.toNat) (buffer s iv.toNat ivLen.toNat))) s.mem := by
  have hsize := gcmInitCtx_size (t := 16) (key := buffer s key.toNat keyLen.toNat)
    (iv := buffer s iv.toNat ivLen.toNat) (by rwa [buffer_length]) (by decide)
  rw [buffer_length] at hsize
  refine ⟨_, execGcmInit_pass (addrOk_iff.2 hkey) (addrOk_iff.2 hiv) hkeyLen hivLen (freeSlot?_of_leastFree hh)
    hroom, ⟨rfl, rfl, ?_, rfl⟩⟩
  rw [hsize]
  rfl

/-- GCM_AAD on the held context. -/
theorem Holding.execGcmAad {g : GcmCtx} {data : Word} (ht : Holding s t h (.gcm g) s.mem)
    (hh : leastFree s h.toNat) (hp : g.phase = .aad) (hdata : data.toNat < 2 ^ s.cfg.addrBits) (len : Word) :
    ∃ u, exec (.gcmAad h data len) t = ok u ∧ Holding s (u.withStatus .ok noHandle) h
      (.gcm ((buffer s data.toNat len.toNat).foldl gcmAadByte g)) s.mem := by
  refine ⟨_, execGcmAad_pass (ht.addrOk hdata) (ht.slotAt hh) hp len, ?_⟩
  rw [buffer_congr ht.cfg ht.mem]
  have hnext := ht.setSlot (BusOnly.afterRead t data.toNat len.toNat)
    (Slot.size_gcm_congr (gcmAad_nr g (buffer s data.toNat len.toNat))) .ok noHandle
  rwa [State.afterRead_mem, ht.mem] at hnext

/-- A cipher command on the held context, whose output leaves the input alone until it is read. -/
theorem Holding.gcmCrypt {g : GcmCtx} {input len out : Word} (ht : Holding s t h (.gcm g) s.mem)
    (hh : leastFree s h.toNat) (hg : g.wf) (hp : g.phase ≠ .done) (hin : input.toNat < 2 ^ s.cfg.addrBits)
    (hout : out.toNat < 2 ^ s.cfg.addrBits)
    (hover : readBeforeOverwritten s.cfg input.toNat out.toNat len.toNat) (enc : Bool) :
    let data := buffer s input.toNat len.toNat
    let g' := afterCipher g (if enc then g.crypt data else data)
    ∃ u, Machine.gcmCrypt enc h input len out t = ok u ∧ g'.wf ∧ g'.phase ≠ .done ∧
      Holding s (u.withStatus .ok noHandle) h (.gcm g') (stored s out.toNat (g.crypt data)) := by
  intro data g'
  obtain ⟨hwf, hphase, hnr⟩ := gcmCryptRun_wf hg hp enc t input.toNat len.toNat out.toNat
  obtain ⟨hctx, hmem⟩ := gcmCryptRun_whole hg hp (ht.cfg ▸ hover) enc
  rw [buffer_congr ht.cfg ht.mem] at hctx hmem
  rw [stored_congr ht.cfg ht.mem] at hmem
  have hnext := ht.setSlot (gcmCryptRun_busOnly enc input.toNat len.toNat out.toNat g t)
    (Slot.size_gcm_congr hnr) .ok noHandle
  refine ⟨_, gcmCrypt_pass (ht.addrOk hin) (ht.addrOk hout) (ht.slotAt hh) hp enc len, ?_⟩
  rw [hmem, hctx] at hnext
  rw [hctx] at hwf hphase ⊢
  exact ⟨hwf, hphase.trans_ne (by decide), hnext⟩

end

/-- The first two commands of a message: a live context in the least free slot, after the AAD. -/
theorem runWithHandle_gcmAad {s : State} {key keyLen iv ivLen aad aadLen : Word} (hs : Inv s)
    (hkey : key.toNat < 2 ^ s.cfg.addrBits) (hiv : iv.toNat < 2 ^ s.cfg.addrBits)
    (haad : aad.toNat < 2 ^ s.cfg.addrBits) (hkeyLen : keyLen.toNat ∈ aesKeyLens) (hivLen : ivLen ≠ 0)
    (hfree : ∃ h, leastFree s h) (hroom : sizeGcm (roundsOf keyLen.toNat) ≤ s.poolFree.toNat) :
    ∃ h t g, leastFree s h.toNat ∧ Holding s t h (.gcm g) s.mem ∧ g.wf ∧ g.tagLen = 16 ∧
      g.AfterAad (gcmKeyOf (buffer s key.toNat keyLen.toNat) (buffer s iv.toNat ivLen.toNat))
        (buffer s aad.toNat aadLen.toNat) ∧
      ∀ rest : Byte → List Instr,
        runWithHandle (.gcmInit 0 0 key keyLen iv ivLen) (fun h => .gcmAad h aad aadLen :: rest h) s =
          runCommands (rest h) t := by
  obtain ⟨h, hh⟩ := hs.exists_handle hfree
  obtain ⟨u, hinit, hu⟩ := execGcmInit_holding hkey hiv hkeyLen hivLen hh hroom
  obtain ⟨v, hdata, hv⟩ := hu.execGcmAad hh rfl haad aadLen
  have hk : (buffer s key.toNat keyLen.toNat).length ∈ aesKeyLens := by rwa [buffer_length]
  have hinitWf := gcmInitCtx_wf (t := 16) (iv := buffer s iv.toNat ivLen.toNat) hk (by decide)
  obtain ⟨hwf, -⟩ := gcmAad_wf hinitWf rfl (buffer s aad.toNat aadLen.toNat)
  refine ⟨h, _, _, hh, hv, hwf, ?tagLen, gcmInitCtx_afterAad hk .., fun rest => ?run⟩
  case tagLen => rw [gcmAad_eq rfl]; rfl
  case run => rw [runWithHandle_okHandle hinit, runCommands_cons_ok hdata]

theorem gcmKey_crypt_length (k : GcmKey) (bs : Bytes) : (k.crypt bs).length = bs.length := by
  simp [GcmKey.crypt, ctrOf]

theorem gcmKey_tag_length (k : GcmKey) (ad ct : Bytes) : (k.tag ad ct).length = 16 := by
  simp [GcmKey.tag, tagOf, blockBytes]

@[simp] theorem afterCipher_tagLen (g : GcmCtx) (ct : Bytes) : (afterCipher g ct).tagLen = g.tagLen := by
  simp only [afterCipher, entered]
  split <;> rfl

/-- A buffer's length is a word's value, so the length block holds it. -/
theorem buffer_length_lt (s : State) (addr : Nat) (n : Word) : (buffer s addr n.toNat).length < 2 ^ 61 := by
  have := n.isLt
  rw [buffer_length]
  omega

/-- The default tag of a message is all sixteen bytes of it. -/
theorem GcmCtx.AfterAad.tagOfCtx_full {g : GcmCtx} {k : GcmKey} {ad ct : Bytes} (hg : g.AfterAad k ad)
    (htag : g.tagLen = 16) (had : ad.length < 2 ^ 61) (hct : ct.length < 2 ^ 61) :
    Spec.tagOfCtx (afterCipher g ct) = k.tag ad ct := by
  rw [hg.tagOfCtx had hct, htag]
  exact List.take_of_length_le (gcmKey_tag_length k ad ct).le

/-- `t` is `s` after the cipher command of a message under `k` with AAD `ad` and ciphertext `ct`: the message's
context `g` holds slot `h`, and the tag it would give is the message's. -/
structure Ciphered (s t : State) (h : Byte) (g : GcmCtx) (k : GcmKey) (ad ct : Bytes) (m : Memory) : Prop
    extends Holding s t h (.gcm g) m where
  leastFree : Spec.leastFree s h.toNat
  wf : g.wf
  live : g.phase ≠ .done
  tagLen : g.tagLen.toNat = 16
  tag : Spec.tagOfCtx g = k.tag ad ct

/-- GCM_INIT, GCM_AAD and the cipher command of a message, whichever of the two it is. -/
theorem runWithHandle_gcmCrypt {s : State} {key keyLen iv ivLen aad aadLen input len out tag : Word}
    (hs : Inv s) (haddrs : ∀ a ∈ [key, iv, aad, input, out, tag], a.toNat < 2 ^ s.cfg.addrBits)
    (hkeyLen : keyLen.toNat ∈ aesKeyLens) (hivLen : ivLen ≠ 0) (hfree : ∃ h, leastFree s h)
    (hroom : sizeGcm (roundsOf keyLen.toNat) ≤ s.poolFree.toNat)
    (hover : readBeforeOverwritten s.cfg input.toNat out.toNat len.toNat) {enc : Bool} {cipher : Byte → Instr}
    (hcipher : ∀ h t, exec (cipher h) t = gcmCrypt enc h input len out t) :
    let k := gcmKeyOf (buffer s key.toNat keyLen.toNat) (buffer s iv.toNat ivLen.toNat)
    let ad := buffer s aad.toNat aadLen.toNat
    let data := buffer s input.toNat len.toNat
    ∃ h t g, Ciphered s t h g k ad (if enc then k.crypt data else data) (stored s out.toNat (k.crypt data)) ∧
      ∀ rest : Byte → List Instr,
        runWithHandle (.gcmInit 0 0 key keyLen iv ivLen)
          (fun h => .gcmAad h aad aadLen :: cipher h :: rest h) s = runCommands (rest h) t := by
  intro k ad data
  simp only [List.forall_mem_cons] at haddrs
  obtain ⟨hkey, hiv, haad, hin, hout, -⟩ := haddrs
  obtain ⟨h, t, g, hh, ht, hg, htagLen, hmsg, hrun⟩ :=
    runWithHandle_gcmAad (aadLen := aadLen) hs hkey hiv haad hkeyLen hivLen hfree hroom
  obtain ⟨u, hcrypt, hwf, hlive, hu⟩ := ht.gcmCrypt hh hg (by simp [hmsg.phase]) hin hout hover enc
  rw [hmsg.crypt] at hwf hlive hu
  have hct : (if enc then k.crypt data else data).length < 2 ^ 61 := by
    have hdata : data.length < 2 ^ 61 := buffer_length_lt ..
    split
    · rwa [gcmKey_crypt_length]
    · exact hdata
  refine ⟨h, _, _, { hu with
    leastFree := hh
    wf := hwf
    live := hlive
    tagLen := by rw [afterCipher_tagLen, htagLen]; rfl
    tag := hmsg.tagOfCtx_full htagLen (buffer_length_lt ..) hct }, fun rest => ?_⟩
  rw [hrun fun h => cipher h :: rest h, runCommands_cons_ok ((hcipher h t).trans hcrypt)]

/-- Settles O52: the tag of the context is written behind the ciphertext, and the last command gives slot and
bytes back. -/
theorem gcmSealIsAuthenticatedEncryption : Obligations.GcmSealIsAuthenticatedEncryption := by
  intro s key keyLen iv ivLen aad aadLen input len out tag hs haddrs hkeyLen hivLen hfree hroom hover k ad ct
  obtain ⟨h, t, g, ht, hrun⟩ := runWithHandle_gcmCrypt (aadLen := aadLen)
    (cipher := fun h => .gcmEncrypt h input len out) hs haddrs hkeyLen hivLen hfree hroom hover (enc := true)
    fun _ _ => rfl
  have htag : t.addrOk tag = true := ht.addrOk (haddrs tag (by simp))
  have hdigest := execGcmDigest_pass htag (ht.slotAt ht.leastFree) ht.wf ht.live
  have hdone := ht.setSlot (BusOnly.memWrite t tag.toNat (Spec.tagOfCtx g))
    (Slot.size_gcm_congr (g' := finished g) rfl) .ok noHandle
  obtain ⟨u, hrelease, hstatus, hctx, hpool, hmem⟩ := hdone.runCommands_release ht.leastFree rfl
  refine ⟨u, ?run, hstatus, hctx, hpool, ?mem⟩
  case run =>
    refine (hrun fun h => [.gcmDigest h tag, .ctxRelease h]).trans ?_
    rw [runCommands_cons_ok hdigest, hrelease]
  case mem =>
    rw [hmem, State.mem_memWrite, ht.tag]
    exact stored_congr (s := { s with mem := stored s out.toNat ct }) ht.cfg ht.mem _ _

/-- Settles O53: the bytes at the tag are not the plaintext's, and decide whether the last command is
reached. -/
theorem gcmOpenAcceptsExactlyTheTag : Obligations.GcmOpenAcceptsExactlyTheTag := by
  intro s key keyLen iv ivLen aad aadLen input len out tag hs haddrs hkeyLen hivLen hfree hroom hover hapart
    k ad ct
  obtain ⟨h, t, g, ht, hrun⟩ := runWithHandle_gcmCrypt (aadLen := aadLen)
    (cipher := fun h => .gcmDecrypt h input len out) hs haddrs hkeyLen hivLen hfree hroom hover (enc := false)
    fun _ _ => rfl
  have htag : t.addrOk tag = true := ht.addrOk (haddrs tag (by simp))
  have hread : buffer t tag.toNat 16 = buffer s tag.toNat 16 := by
    rw [buffer, buffer, ht.cfg, ht.mem]
    refine List.map_congr_left fun x hx => read_stored_of_notMem fun hmem => ?_
    rw [gcmKey_crypt_length, buffer_length] at hmem
    exact hapart x hmem hx
  have htagOf : Spec.tagOfCtx g = k.tag ad ct := ht.tag
  have hverify := execGcmVerify_pass htag (ht.slotAt ht.leastFree) ht.wf ht.live
  rw [ht.tagLen, hread, htagOf] at hverify
  have hdone := ht.setSlot (BusOnly.afterRead t tag.toNat 16) (Slot.size_gcm_congr (g' := finished g) rfl)
  have hstart := hrun fun h => [.gcmVerify h tag, .ctxRelease h]
  by_cases heq : buffer s tag.toNat 16 = k.tag ad ct
  case pos =>
    rw [if_pos heq] at hverify
    obtain ⟨u, hrelease, hstatus, hctx, hpool, hmem⟩ :=
      (hdone .ok noHandle).runCommands_release ht.leastFree rfl
    exact ⟨u, hstart.trans ((runCommands_cons_ok hverify _).trans hrelease), hmem.trans ht.mem,
      fun _ => ⟨hstatus, hctx, hpool⟩, fun hne => absurd heq hne⟩
  case neg =>
    rw [if_neg heq] at hverify
    have hstop := runCommands_cons_stop hverify (by simp [StatusCode.code])
    exact ⟨_, hstart.trans (hstop _), ht.mem, fun h => absurd h heq,
      fun _ => ⟨rfl, h.toNat, finished g, ht.leastFree, (hdone .authenticationFailed noHandle).ctx, rfl⟩⟩

end Sys2Proof.Machine
end

section
/-! Proofs of the context family (40_context): the checks of every command in R254's order and how it ends where
they pass (R103, R106), CTX_RELEASE (R104) and the illegal command (R105). -/

namespace Sys2Proof.Machine

open Sys2Proof.Spec

/-! ## Checks in the listed order (R254) -/

/-- The result `r` follows the list of checks `cs`: it fails with the code of the first that holds, without
effect, and has the property `P` where none does. -/
structure Follows (P : Result → Prop) (s : State) (cs : List (Bool × StatusCode)) (r : Result) : Prop where
  fails : ∀ c, firstOf cs = some c → r = fail c s
  passes : firstOf cs = none → P r

section
variable {P : Result → Prop} {s : State} {cs : List (Bool × StatusCode)} {r : Result} {b : Bool}
  {c : StatusCode}

theorem Follows.nil (hr : P r) : Follows P s [] r := ⟨by simp [firstOf], fun _ => hr⟩

theorem Follows.cons (hfail : b = true → r = fail c s) (hpass : b = false → Follows P s cs r) :
    Follows P s ((b, c) :: cs) r := by
  cases b with
  | true => exact ⟨by simpa [firstOf] using hfail, by simp [firstOf]⟩
  | false => exact ⟨(hpass rfl).fails, (hpass rfl).passes⟩

theorem Follows.cons_of_true (hb : b = true) : Follows P s ((b, c) :: cs) (fail c s) :=
  .cons (fun _ => rfl) (by simp [hb])

theorem Follows.cons_of_false (hb : b = false) (hr : Follows P s cs r) : Follows P s ((b, c) :: cs) r :=
  .cons (by simp [hb]) fun _ => hr

/-! ### The checks of Operands.lean and Ops.lean, each as entries of the list -/

theorem ite_follows {p : Prop} [Decidable p] (hb : b = true ↔ p) (hr : ¬ p → Follows P s cs r) :
    Follows P s ((b, c) :: cs) (if p then fail c s else r) := by
  split
  · exact .cons_of_true (hb.2 ‹_›)
  · rename_i hp
    exact .cons_of_false (by rwa [← Bool.not_eq_true, hb]) (hr hp)

theorem requireArg_follows {p : Bool} (hb : b = !p) (hr : p = true → Follows P s cs r) :
    Follows P s ((b, .invalidArgument) :: cs) (requireArg s p r) := by
  subst hb
  cases p with
  | true => exact .cons_of_false rfl (hr rfl)
  | false => exact .cons_of_true rfl

theorem requireAddrs_follows {i : Instr} (hr : Follows P s cs r) :
    Follows P s ((badAddress s i, .invalidArgument) :: cs) (requireAddrs s i.addresses r) := by
  refine requireArg_follows ?_ fun _ => hr
  rw [badAddress, List.not_all_eq_any_not]
  refine congrArg i.addresses.any (funext fun a => ?_)
  rw [State.addrOk, ← decide_not]
  exact decide_eq_decide.2 (by rw [Nat.not_lt])

theorem withAlg_follows {alg : Byte} {k : HashAlg → Result} (hk : Follows P s cs (k sha256)) :
    Follows P s ((alg ≠ 0, .unsupportedAlgorithm) :: cs) (withAlg s alg k) := by
  by_cases halg : alg = 0
  · rw [withAlg_pass (show lookupAlg alg = some sha256 by rw [halg]; rfl)]
    exact .cons_of_false (by simp [halg]) hk
  · rw [withAlg_elim (P := (· = fail .unsupportedAlgorithm s)) rfl
      fun d hd => absurd (lookupAlg_some hd).1 halg]
    exact .cons_of_true (decide_eq_true halg)

theorem withAlloc_follows {size : Nat} {k : Nat → State → Result}
    (hk : ∀ h, s.freeSlot? = some h → P (k h { s with poolFree := s.poolFree - BitVec.ofNat 16 size })) :
    Follows P s [(allocFails s size, .outOfMemory)] (withAlloc s size k) := by
  have hfull : s.ctx.all (fun x => x ≠ .free) = true ↔ s.freeSlot? = none := by
    rw [State.freeSlot?, List.findIdx?_eq_none_iff, List.all_eq_true]
    refine forall₂_congr fun x _ => ?_
    cases x <;> simp [Slot.isFree]
  unfold withAlloc
  split
  · rename_i hnone
    exact .cons_of_true (by rw [allocFails, hfull.2 hnone, Bool.true_or])
  · rename_i h hfree
    have hroom : s.ctx.all (fun x => x ≠ .free) = false := by
      rw [← Bool.not_eq_true, hfull, hfree]
      simp
    refine ite_follows (by simp only [allocFails, hroom, Bool.false_or, decide_eq_true_iff]) fun _ => ?_
    exact .nil (hk h hfree)

/-! The handle checks (R102, R104), with the phase check that follows (R254). -/

theorem noContext_eq_false {h : Byte} :
    noContext s h = false ↔ ∃ x, s.slotAt h = some x ∧ x.isFree = false := by
  rw [noContext, State.slotAt]
  rcases s.ctx[h.toNat]? with - | x
  · simp
  · cases x <;> simp [Slot.isFree]

theorem notHash_eq_false {h : Byte} : notHash s h = false ↔ ∃ c, s.slotAt h = some (.hash c) := by
  unfold notHash State.slotAt
  split <;> simp_all

theorem notHmac_eq_false {h : Byte} : notHmac s h = false ↔ ∃ c, s.slotAt h = some (.hmac c) := by
  unfold notHmac State.slotAt
  split <;> simp_all

theorem notGcm_eq_false {h : Byte} : notGcm s h = false ↔ ∃ g, s.slotAt h = some (.gcm g) := by
  unfold notGcm State.slotAt
  split <;> simp_all

theorem withSlot_follows {h : Byte} {k : Slot → Result}
    (hk : ∀ x, s.slotAt h = some x → x.isFree = false → P (k x)) :
    Follows P s [(noContext s h, .invalidArgument)] (withSlot s h k) := by
  refine .cons (fun hno => ?_) fun hlive => .nil ?_
  · refine withSlot_elim (P := (· = fail .invalidArgument s)) rfl fun x hx hlive => ?_
    simp [noContext_eq_false.2 ⟨x, hx, hlive⟩] at hno
  · obtain ⟨x, hx, hlive⟩ := noContext_eq_false.1 hlive
    simpa [withSlot, hx, hlive] using hk x hx hlive

theorem withHash_follows {h : Byte} {k : HashCtx → Result}
    (hfinal : ∀ alg digestLen blockSize, k (.final alg digestLen blockSize) = fail .invalidState s)
    (hactive : ∀ c, s.slotAt h = some (.hash (.active c)) → P (k (.active c))) :
    Follows P s [(notHash s h, .invalidArgument), (isFinal s h, .invalidState)] (withHash s h k) := by
  refine .cons (fun hno => ?_) fun hhash => ?_
  · refine withHash_elim (P := (· = fail .invalidArgument s)) rfl fun c hc => ?_
    simp [notHash_eq_false.2 ⟨c, hc⟩] at hno
  · obtain ⟨c, hc⟩ := notHash_eq_false.1 hhash
    rw [withHash_pass hc, isFinal, show s.ctx[h.toNat]? = _ from hc]
    cases c with
    | active c => exact .cons_of_false rfl (.nil (hactive c hc))
    | final alg digestLen blockSize => exact hfinal .. ▸ .cons_of_true rfl

theorem withHmac_follows {h : Byte} {k : HmacCtx → Result}
    (hfinal : ∀ alg, k (.final alg) = fail .invalidState s)
    (hactive : ∀ alg inner tpl, s.slotAt h = some (.hmac (.active alg inner tpl)) →
      P (k (.active alg inner tpl))) :
    Follows P s [(notHmac s h, .invalidArgument), (isFinal s h, .invalidState)] (withHmac s h k) := by
  refine .cons (fun hno => ?_) fun hhmac => ?_
  · refine withHmac_elim (P := (· = fail .invalidArgument s)) rfl fun c hc => ?_
    simp [notHmac_eq_false.2 ⟨c, hc⟩] at hno
  · obtain ⟨c, hc⟩ := notHmac_eq_false.1 hhmac
    rw [withHmac_pass hc, isFinal, show s.ctx[h.toNat]? = _ from hc]
    cases c with
    | active alg inner tpl => exact .cons_of_false rfl (.nil (hactive alg inner tpl hc))
    | final alg => exact hfinal alg ▸ .cons_of_true rfl

theorem withGcm_follows {h : Byte} {ps : List GcmPhase} {k : GcmCtx → Result}
    (hwrong : ∀ g, g.phase ∈ ps → k g = fail .invalidState s)
    (hlive : ∀ g, s.slotAt h = some (.gcm g) → g.phase ∉ ps → P (k g)) :
    Follows P s [(notGcm s h, .invalidArgument), (gcmIn s h ps, .invalidState)] (withGcm s h k) := by
  refine .cons (fun hno => ?_) fun hgcm => ?_
  · refine withGcm_elim (P := (· = fail .invalidArgument s)) rfl fun g hg => ?_
    simp [notGcm_eq_false.2 ⟨g, hg⟩] at hno
  · obtain ⟨g, hg⟩ := notGcm_eq_false.1 hgcm
    rw [withGcm_pass hg, gcmIn, show s.ctx[h.toNat]? = _ from hg]
    by_cases hp : g.phase ∈ ps
    · exact hwrong g hp ▸ .cons_of_true (by simpa using hp)
    · exact .cons_of_false (by simpa using hp) (.nil (hlive g hg hp))

end

/-! ## How a command ends where its checks pass -/

/-- No slot but the one the command's handle names moved from `s` to `t` (R265). -/
def OwnSlotOnly (i : Instr) (s t : State) : Prop :=
  t.ctx = s.ctx ∨ ∃ h x, handle i = some h ∧ t.ctx = s.ctx.set h.toNat x

/-- The result of the command `i` from `s` where the checks of R254 pass. A creating command fills the least
FREE slot and returns its handle (R100, R106); any other ends OK, or AuthenticationFailed for GCM_VERIFY. Only
a state without the invariant can hold a context of no known algorithm (assumption log 7). -/
inductive Completes (i : Instr) (s : State) : Result → Prop
  | ok {u : State} (hi : creates i = false) (hslot : OwnSlotOnly i s u) : Completes i s (ok u)
  | created {u : State} {h : Nat} {x : Slot} (hi : creates i = true) (hfree : s.freeSlot? = some h)
      (hx : x ≠ .free) (hctx : u.ctx = s.ctx) : Completes i s (okHandle h (u.setSlot h x))
  | authenticationFailed {u : State} (hi : ∃ h tag, i = .gcmVerify h tag) (hslot : OwnSlotOnly i s u) :
      Completes i s (fail .authenticationFailed u)
  | unknownAlg (hs : ¬ Inv s) : Completes i s (fail .unsupportedAlgorithm s)

section
variable {s : State}

/-- The algorithm of a stored context is known wherever the invariant holds. -/
theorem withAlg_completes {i : Instr} {alg : Byte} {k : HashAlg → Result}
    (halg : Inv s → lookupAlg alg = some sha256) (hk : ∀ d, Completes i s (k d)) :
    Completes i s (withAlg s alg k) := by
  cases hd : lookupAlg alg with
  | some d => exact withAlg_pass hd ▸ hk d
  | none =>
    have hs : ¬ Inv s := fun hs => by simp [halg hs] at hd
    simpa [withAlg, hd] using Completes.unknownAlg hs

/-- The algorithm of a well-formed HMAC context is SHA-256, the only row of the table. -/
theorem HmacCtx.wf.lookup {alg : Byte} {inner : HashLive} {tpl : PrfTemplate}
    (hc : (HmacCtx.active alg inner tpl).wf) : lookupAlg alg = some sha256 := by
  obtain ⟨rfl, hinner, -⟩ := hc
  exact hinner.lookup

theorem Inv.hash_lookup {h : Byte} {c : HashLive} (hs : Inv s)
    (hc : s.slotAt h = some (.hash (.active c))) : lookupAlg c.alg = some sha256 :=
  HashLive.wf.lookup (hs.contexts _ (List.mem_of_getElem? hc))

theorem Inv.hmac_lookup {h : Byte} {alg : Byte} {inner : HashLive} {tpl : PrfTemplate} (hs : Inv s)
    (hc : s.slotAt h = some (.hmac (.active alg inner tpl))) : lookupAlg alg = some sha256 :=
  HmacCtx.wf.lookup (hs.contexts _ (List.mem_of_getElem? hc))

/-- A zero operand, as the list of checks and the meaning test it. -/
theorem decide_eq_zero (w : Word) : decide (w = 0) = !(w != 0) := by
  rw [bne, Bool.not_not, beq_eq_decide]

theorem sizePbkdf2_sha256 : sizePbkdf2 sha256 = 352 := rfl

/-- `AUX` selects a legal tag length, 0 the default (R6, R71). -/
theorem tagLenLegal_tagLenOf (aux : Byte) : tagLenLegal.contains (tagLenOf aux) =
    [0, 4, 8, 12, 13, 14, 15, 16].contains aux.toNat := by
  revert aux
  decide

/-- The command follows its own list of checks, address words first. -/
def FollowsChecks (i : Instr) (s : State) : Prop :=
  Follows (Completes i s) s ((badAddress s i, .invalidArgument) :: checks i s) (exec i s)

end

section
variable (s : State)

theorem hashCreate_followsChecks (alg : Byte) : FollowsChecks (.hashCreate alg) s := by
  refine .cons_of_false rfl (withAlg_follows (withAlloc_follows fun h hfree => ?_))
  exact .created rfl hfree (by simp) rfl

theorem hashUpdate_followsChecks (h : Byte) (data len : Word) : FollowsChecks (.hashUpdate h data len) s := by
  refine requireAddrs_follows (withHash_follows (fun _ _ _ => rfl) fun c hc => ?_)
  exact withAlg_completes (fun hs => hs.hash_lookup hc) fun d => .ok rfl (.inr ⟨h, _, rfl, rfl⟩)

theorem hashDigest_followsChecks (h : Byte) (out : Word) : FollowsChecks (.hashDigest h out) s := by
  refine requireAddrs_follows (withHash_follows (fun _ _ _ => rfl) fun c hc => ?_)
  exact withAlg_completes (fun hs => hs.hash_lookup hc) fun d => .ok rfl (.inr ⟨h, _, rfl, rfl⟩)

theorem ctxRelease_followsChecks (h : Byte) : FollowsChecks (.ctxRelease h) s := by
  refine .cons_of_false rfl (withSlot_follows fun x _ _ => ?_)
  exact .ok rfl (.inr ⟨h, _, rfl, rfl⟩)

theorem hmacInit_followsChecks (alg : Byte) (key keyLen : Word) :
    FollowsChecks (.hmacInit alg key keyLen) s := by
  refine requireAddrs_follows (withAlg_follows (withAlloc_follows fun h hfree => ?_))
  exact .created rfl hfree (by simp) rfl

theorem hmacUpdate_followsChecks (h : Byte) (data len : Word) : FollowsChecks (.hmacUpdate h data len) s := by
  refine requireAddrs_follows (withHmac_follows (fun _ => rfl) fun alg inner tpl hc => ?_)
  exact withAlg_completes (fun hs => hs.hmac_lookup hc) fun d => .ok rfl (.inr ⟨h, _, rfl, rfl⟩)

theorem hmacFinal_followsChecks (h : Byte) (out : Word) : FollowsChecks (.hmacFinal h out) s := by
  refine requireAddrs_follows (withHmac_follows (fun _ => rfl) fun alg inner tpl hc => ?_)
  exact withAlg_completes (fun hs => hs.hmac_lookup hc) fun d => .ok rfl (.inr ⟨h, _, rfl, rfl⟩)

/-- A derivation of no bytes ends OK before the scratch's bytes are asked for (R173). -/
theorem pbkdf2Derive_followsChecks (alg : Byte) (pw pwLen salt saltLen out outLen iter : Word) :
    FollowsChecks (.pbkdf2Derive alg pw pwLen salt saltLen out outLen iter) s := by
  refine requireAddrs_follows (withAlg_follows (requireArg_follows (decide_eq_zero iter) fun _ => ?_))
  by_cases hzero : outLen = 0
  · rw [if_pos hzero]
    exact .cons_of_false (by simp [hzero]) (.nil (.ok rfl (.inl rfl)))
  · rw [if_neg hzero]
    refine ite_follows ?room fun _ => .nil (.ok rfl (.inl (pbkdf2Fold_busOnly ..).ctx))
    rw [decide_eq_true hzero, Bool.true_and, decide_eq_true_iff, sizePbkdf2_sha256]

theorem gcmInit_followsChecks (cipher tagLen : Byte) (key keyLen iv ivLen : Word) :
    FollowsChecks (.gcmInit cipher tagLen key keyLen iv ivLen) s := by
  refine requireAddrs_follows (ite_follows (by simp) fun _ => ?_)
  refine requireArg_follows rfl fun _ => ?_
  refine requireArg_follows (decide_eq_zero ivLen) fun _ => ?_
  refine requireArg_follows (by rw [tagLenLegal_tagLenOf]) fun _ => ?_
  exact withAlloc_follows fun h hfree => .created rfl hfree (by simp) rfl

theorem gcmAad_followsChecks (h : Byte) (data len : Word) : FollowsChecks (.gcmAad h data len) s := by
  refine requireAddrs_follows (withGcm_follows (fun g hp => if_pos ?_) fun g hg hp => ?_)
  · rintro haad
    simp [haad] at hp
  · have haad : g.phase = .aad := by cases h : g.phase <;> simp [h] at hp ⊢
    rw [if_neg (not_not.2 haad)]
    exact .ok rfl (.inr ⟨h, _, rfl, rfl⟩)

/-- Both cipher commands make the checks of their common row. -/
theorem gcmCrypt_follows {i : Instr} (enc : Bool) (h : Byte) (input len out : Word) (hi : creates i = false)
    (hh : handle i = some h) (haddrs : i.addresses = [input, out]) :
    Follows (Completes i s) s [(badAddress s i, .invalidArgument), (notGcm s h, .invalidArgument),
      (gcmIn s h [.done], .invalidState)] (gcmCrypt enc h input len out s) := by
  rw [gcmCrypt, ← haddrs]
  refine requireAddrs_follows (withGcm_follows (fun g hp => if_pos (by simpa using hp)) fun g hg hp => ?_)
  rw [if_neg (by simpa using hp)]
  refine .ok hi (.inr ⟨h, .gcm (gcmCryptRun enc input.toNat len.toNat out.toNat g s).1, hh, ?_⟩)
  exact congrArg (List.set · _ _) (gcmCryptRun_busOnly enc input.toNat len.toNat out.toNat g s).ctx

theorem gcmDigest_followsChecks (h : Byte) (tag : Word) : FollowsChecks (.gcmDigest h tag) s := by
  refine requireAddrs_follows (withGcm_follows (fun g hp => if_pos (by simpa using hp)) fun g hg hp => ?_)
  rw [if_neg (by simpa using hp)]
  exact .ok rfl (.inr ⟨h, _, rfl, rfl⟩)

/-- The tag comparison comes after the checks, and the context is DONE by either outcome (R235). -/
theorem gcmVerify_followsChecks (h : Byte) (tag : Word) : FollowsChecks (.gcmVerify h tag) s := by
  refine requireAddrs_follows (withGcm_follows (fun g hp => if_pos (by simpa using hp)) fun g hg hp => ?_)
  rw [if_neg (by simpa using hp)]
  dsimp only [memRead]
  split
  · exact .ok rfl (.inr ⟨h, _, rfl, rfl⟩)
  · exact .authenticationFailed ⟨h, tag, rfl⟩ (.inr ⟨h, _, rfl, rfl⟩)

theorem illegal_followsChecks (opc : Byte) : FollowsChecks (.illegal opc) s :=
  .cons_of_false rfl (.cons_of_true rfl)

/-- Every command follows its checks. -/
theorem exec_followsChecks (i : Instr) : FollowsChecks i s := by
  cases i with
  | hashCreate alg => exact hashCreate_followsChecks s alg
  | hashUpdate h data len => exact hashUpdate_followsChecks s h data len
  | hashDigest h out => exact hashDigest_followsChecks s h out
  | ctxRelease h => exact ctxRelease_followsChecks s h
  | hmacInit alg key keyLen => exact hmacInit_followsChecks s alg key keyLen
  | hmacUpdate h data len => exact hmacUpdate_followsChecks s h data len
  | hmacFinal h out => exact hmacFinal_followsChecks s h out
  | pbkdf2Derive alg pw pwLen salt saltLen out outLen iter =>
    exact pbkdf2Derive_followsChecks s alg pw pwLen salt saltLen out outLen iter
  | gcmInit cipher tagLen key keyLen iv ivLen =>
    exact gcmInit_followsChecks s cipher tagLen key keyLen iv ivLen
  | gcmAad h data len => exact gcmAad_followsChecks s h data len
  | gcmEncrypt h input len out => exact gcmCrypt_follows s true h input len out rfl rfl rfl
  | gcmDecrypt h input len out => exact gcmCrypt_follows s false h input len out rfl rfl rfl
  | gcmDigest h tag => exact gcmDigest_followsChecks s h tag
  | gcmVerify h tag => exact gcmVerify_followsChecks s h tag
  | illegal opc => exact illegal_followsChecks s opc

end

section
variable {i : Instr} {s : State}

theorem exec_of_failure {c : StatusCode} (h : failure i s = some c) : exec i s = fail c s :=
  (exec_followsChecks s i).fails c h

theorem exec_completes (h : failure i s = none) : Completes i s (exec i s) :=
  (exec_followsChecks s i).passes h

end

/-! ## The status word (R23, R79, R106) -/

theorem statusWord_eq_status (code : StatusCode) (hnd : Byte) :
    statusWord code hnd = status code.code.toNat hnd.toNat := by
  have hfields : hnd.toNat <<< 8 ||| code.code.toNat = code.code.toNat + 256 * hnd.toNat := by
    rw [Nat.shiftLeft_eq, Nat.mul_comm, ← Nat.two_pow_add_eq_or_of_lt code.code.isLt, Nat.add_comm]
  have hlt : code.code.toNat + 256 * hnd.toNat < 2 ^ 32 := by omega
  have hupper : (0 : BitVec 16).toNat <<< 8 ||| hnd.toNat = hnd.toNat := Nat.zero_or _
  refine BitVec.eq_of_toNat_eq ?_
  rw [statusWord, BitVec.toNat_append, BitVec.toNat_append, hupper, hfields, status, BitVec.toNat_ofNat,
    Nat.mod_eq_of_lt hlt]

theorem exec_failsAsListed (i : Instr) (s : State) : failsAsListed i s := by
  intro c hc
  rw [failsWith, exec_of_failure hc, fail, State.withStatus, statusWord_eq_status]
  rfl

theorem firstOf_mem {cs : List (Bool × StatusCode)} {c : StatusCode} (h : firstOf cs = some c) :
    ∃ b, (b, c) ∈ cs := by
  induction cs with
  | nil => simp [firstOf] at h
  | cons p cs ih =>
    obtain ⟨b, c'⟩ := p
    cases b with
    | true => exact ⟨true, by simp_all [firstOf]⟩
    | false =>
      obtain ⟨b, hmem⟩ := ih h
      exact ⟨b, List.mem_cons_of_mem _ hmem⟩

/-- A failing check has a code of its own, which is not that of OK (R79, R254). -/
theorem failure_code_ne_zero {i : Instr} {s : State} {c : StatusCode} (h : failure i s = some c) :
    c.code.toNat ≠ 0 := by
  have hne : ∀ p ∈ (badAddress s i, .invalidArgument) :: checks i s, p.2 ≠ StatusCode.ok := by
    cases i <;> simp [checks]
  obtain ⟨b, hmem⟩ := firstOf_mem h
  have hc : c ≠ .ok := hne _ hmem
  cases c <;> simp [StatusCode.code] at hc ⊢

/-- Settles O16: a failing check's code comes with `0xFF`; where all pass, only a creating command returns the
handle of the slot it filled. -/
theorem statusAfterEveryCommand : Obligations.StatusAfterEveryCommand := by
  intro i s t hs ht
  cases hfail : failure i s with
  | some c =>
    obtain rfl := Host.Outcome.next.inj ((exec_of_failure hfail).symm.trans ht)
    refine ⟨c.code.toNat, 0xFF, statusWord_eq_status c noHandle, fun c' hc' => ?_, by simp,
      fun ⟨_, hzero⟩ => absurd hzero (failure_code_ne_zero hfail), fun _ => rfl⟩
    rw [Option.some.inj hc']
  | none =>
    generalize hr : exec i s = r at ht
    cases hr ▸ exec_completes hfail with
    | ok hi hslot =>
      obtain rfl := Host.Outcome.next.inj ht
      exact ⟨0, 0xFF, statusWord_eq_status .ok noHandle, by simp, by simp, by simp [hi], by simp⟩
    | @created u h x hi hfree hx hctx =>
      obtain rfl := Host.Outcome.next.inj ht
      have hlt : h < s.ctx.length := freeSlot?_lt hfree
      obtain ⟨-, hmax, -⟩ := Params.legal_iff.1 hs.params
      have hbyte : (BitVec.ofNat 8 h).toNat = h := Nat.mod_eq_of_lt (by have := hs.table; omega)
      have hslot : (u.ctx.set h x)[h]? = some x := List.getElem?_set_self (hctx ▸ hlt)
      have hstatus := (statusWord_eq_status .ok (BitVec.ofNat 8 h)).trans (congrArg (status 0) hbyte)
      exact ⟨0, h, hstatus, by simp, by simp,
        fun _ => ⟨freeSlot?_spec hfree, hs.table ▸ hlt, x, hslot, hx⟩, by simp [hi]⟩
    | authenticationFailed hi hslot =>
      obtain rfl := Host.Outcome.next.inj ht
      exact ⟨5, 0xFF, statusWord_eq_status .authenticationFailed noHandle, by simp,
        fun _ => .inr ⟨rfl, hi⟩, by simp, by simp⟩
    | unknownAlg hs' => exact absurd hs hs'

/-- Settles O17: a command follows its checks, and where they pass the invariant leaves OK and
AuthenticationFailed. -/
theorem firstFailingCheckIsReported : Obligations.FirstFailingCheckIsReported := by
  intro i s hs
  refine ⟨exec_failsAsListed i s, fun hfail => ?_⟩
  generalize hr : exec i s = r
  cases hr ▸ exec_completes hfail with
  | ok hi hslot => exact ⟨_, rfl, .inl (State.withStatus_code ..)⟩
  | created hi hfree hx hctx => exact ⟨_, rfl, .inl (State.withStatus_code ..)⟩
  | authenticationFailed hi hslot => exact ⟨_, rfl, .inr ⟨State.withStatus_code .., hi⟩⟩
  | unknownAlg hs' => exact absurd hs hs'

/-! ## The slots a command leaves (R265) -/

theorem OwnSlotOnly.getElem? {i : Instr} {s t : State} (hslot : OwnSlotOnly i s t) {k : Nat}
    (hk : ∀ h, handle i = some h → k ≠ h.toNat) : t.ctx[k]? = s.ctx[k]? := by
  rcases hslot with hctx | ⟨h, x, hh, hctx⟩
  · rw [hctx]
  · rw [hctx, List.getElem?_set_ne (hk h hh).symm]

/-- A creating command acts on no handle (R74). -/
theorem handle_of_creates {i : Instr} (hi : creates i = true) : handle i = none := by
  cases i <;> simp [creates, handle] at hi ⊢

/-- Settles O22: the table moves at the handle's slot, at the FREE slot that is filled, or not at all. -/
theorem otherSlotsAreUntouched : Obligations.OtherSlotsAreUntouched := by
  intro i s t ht k hhandle hfree
  cases hfail : failure i s with
  | some c =>
    obtain rfl := Host.Outcome.next.inj ((exec_of_failure hfail).symm.trans ht)
    rfl
  | none =>
    generalize hr : exec i s = r at ht
    cases hr ▸ exec_completes hfail with
    | ok hi hslot =>
      obtain rfl := Host.Outcome.next.inj ht
      exact hslot.getElem? hhandle
    | @created u h x hi hfirst hx hctx =>
      obtain rfl := Host.Outcome.next.inj ht
      have hne : h ≠ k := by
        rintro rfl
        exact hfree (handle_of_creates hi) (freeSlot?_spec hfirst).1
      exact (List.getElem?_set_ne hne).trans (by rw [hctx])
    | authenticationFailed hi hslot =>
      obtain rfl := Host.Outcome.next.inj ht
      exact hslot.getElem? hhandle
    | unknownAlg hs =>
      obtain rfl := Host.Outcome.next.inj ht
      rfl

/-! ## CTX_RELEASE (R104) -/

/-- R29's sizes are the numbers of its table for every context the invariant admits. -/
theorem Slot.wf.size_eq {x : Slot} (hx : x.wf) : x.size = slotBytes x := by
  have hsize : ∀ {alg d} (size : HashAlg → Nat), lookupAlg alg = some d →
      sizeOfAlg alg size = size sha256 := by
    intro alg d size hd
    obtain ⟨rfl, rfl⟩ := lookupAlg_some hd
    rfl
  match x, hx with
  | .free, _ => rfl
  | .gcm _, _ => rfl
  | .hash (.active _), hc => exact hsize sizeHash (HashLive.wf.lookup hc)
  | .hash (.final ..), ⟨_, hd, _⟩ => exact hsize sizeHash hd
  | .hmac (.active ..), hc => exact hsize sizeHmac (HmacCtx.wf.lookup hc)
  | .hmac (.final _), ⟨_, hd⟩ => exact hsize sizeHmac hd

/-- The checks of CTX_RELEASE, whose encoding has no address (R74). -/
theorem failure_ctxRelease (h : Byte) (s : State) :
    failure (.ctxRelease h) s = if noContext s h then some .invalidArgument else none := rfl

/-- Settles O28: a live slot is released, after which the handle check fails. -/
theorem releaseFreesTheSlot : Obligations.ReleaseFreesTheSlot := by
  intro s h hs
  refine ⟨exec_failsAsListed _ s, fun hfail => ?_⟩
  have hno : noContext s h = false := by simpa [failure_ctxRelease] using hfail
  obtain ⟨x, hx, hlive⟩ := noContext_eq_false.1 hno
  have hsize : x.size = slotBytes x := (hs.contexts x (List.mem_of_getElem? hx)).size_eq
  refine ⟨x, _, hx, ?live, execCtxRelease_pass hx hlive, ?state, ?pool, exec_failsAsListed _ _ _ ?again⟩
  case live => rintro rfl; cases hlive
  case state => rw [← hsize]; rfl
  case pool =>
    rw [State.withStatus_poolFree, State.release_poolFree, toNat_add_ofNat16 (hs.release_lt hx), hsize]
  case again =>
    have hfree : (s.ctx.set h.toNat .free)[h.toNat]? = some .free :=
      List.getElem?_set_self (State.slotAt_lt hx)
    rw [failure_ctxRelease, noContext, State.withStatus_ctx, State.release_ctx, hfree]
    rfl

/-! ## The illegal command (R105) -/

theorem exec_illegal (opc : Byte) (s : State) :
    exec (.illegal opc) s = .next { s with status := 0x0000FF02 } :=
  rfl

/-- Settles O4: the doorbell decodes an opcode outside the fourteen to the illegal command. -/
theorem illegalOpcodeFailsWithoutEffect : Obligations.IllegalOpcodeFailsWithoutEffect := by
  refine ⟨fun s v rest hhost hopc => ?_, exec_illegal⟩
  rw [step_doorbell hhost, doorbell]
  simp only [decode_of_illegal hopc, exec_illegal]

end Sys2Proof.Machine
end

section
/-! The compression step of SHA-256 (41_hash R124): the schedule the machine computes and its working variables
round by round. -/

namespace Sys2Proof.Machine

open Sys2Proof.Spec

/-! ## The message schedule -/

/-- `wt` begins with the block's words `ws` and goes on by R124's recurrence. -/
structure Scheduled (ws wt : List Word) : Prop where
  length : ws.length ≤ wt.length
  start : ∀ t < ws.length, wt.getD t 0 = ws.getD t 0
  next : ∀ t, ws.length ≤ t → t < wt.length → wt.getD t 0 =
    ssig1 (wt.getD (t - 2) 0) + wt.getD (t - 7) 0 + ssig0 (wt.getD (t - 15) 0) + wt.getD (t - 16) 0

theorem scheduleStep_length (wt : List Word) : (scheduleStep wt).length = wt.length + 1 := by
  simp [scheduleStep]

theorem scheduleStep_getD_of_lt {wt : List Word} {t : Nat} (ht : t < wt.length) :
    (scheduleStep wt).getD t 0 = wt.getD t 0 := List.getD_append _ _ _ _ ht

theorem scheduleStep_getD_length (wt : List Word) : (scheduleStep wt).getD wt.length 0 =
    ssig1 (wt.getD (wt.length - 2) 0) + wt.getD (wt.length - 7) 0 + ssig0 (wt.getD (wt.length - 15) 0) +
      wt.getD (wt.length - 16) 0 := by
  rw [scheduleStep, List.getD_append_right _ _ _ _ le_rfl, Nat.sub_self]
  rfl

/-- One more word by the recurrence. -/
theorem Scheduled.scheduleStep {ws wt : List Word} (hws : 0 < ws.length) (h : Scheduled ws wt) :
    Scheduled ws (scheduleStep wt) where
  length := by
    rw [scheduleStep_length]
    exact Nat.le_succ_of_le h.length
  start := fun t ht => by rw [scheduleStep_getD_of_lt (ht.trans_le h.length), h.start t ht]
  next := fun t hle hlt => by
    rw [scheduleStep_length] at hlt
    have hback : ∀ k, 0 < k → (Machine.scheduleStep wt).getD (t - k) 0 = wt.getD (t - k) 0 :=
      fun k hk => scheduleStep_getD_of_lt (by omega)
    rw [hback 2 (by decide), hback 7 (by decide), hback 15 (by decide), hback 16 (by decide)]
    rcases Nat.lt_succ_iff_lt_or_eq.1 hlt with hold | rfl
    · rw [scheduleStep_getD_of_lt hold, h.next t hle hold]
    · exact scheduleStep_getD_length wt

theorem beWords_length (n : Nat) (s : Bytes) : (beWords n s).length = n := by simp [beWords]

theorem beWords_getD {n t : Nat} (ht : t < n) (s : Bytes) :
    (beWords n s).getD t 0 = be32 ((s.drop (4 * t)).take 4) := by
  simp [beWords, List.getD_eq_getElem?_getD, ht]

/-- The schedule has 64 words, which follow the recurrence from the block's sixteen. -/
theorem schedule_scheduled (block : Bytes) :
    Scheduled (beWords 16 block) (schedule block) ∧ (schedule block).length = 64 := by
  have hws := beWords_length 16 block
  have hsteps : ∀ n, Scheduled (beWords 16 block) (scheduleStep^[n] (beWords 16 block)) ∧
      (scheduleStep^[n] (beWords 16 block)).length = 16 + n := by
    intro n
    induction n with
    | zero => exact ⟨⟨le_rfl, fun _ _ => rfl, fun t hle hlt => absurd hlt (Nat.not_lt.2 hle)⟩, hws⟩
    | succ n ih =>
      obtain ⟨hsched, hlen⟩ := ih
      rw [Function.iterate_succ_apply', scheduleStep_length, hlen]
      exact ⟨hsched.scheduleStep (by rw [hws]; decide), rfl⟩
  rw [schedule, List.foldl_const, List.length_range]
  exact hsteps 48

/-! ## The rounds -/

/-- The working variables after the first `t` rounds. -/
def roundVars (hin : List Word) (block : Bytes) (t : Nat) : ShaVars :=
  ((sha256K.zip (schedule block)).take t).foldl shaRound (shaVarsOf hin)

theorem sha256K_length : sha256K.length = 64 := rfl

theorem roundVars_succ (hin : List Word) (block : Bytes) {t : Nat} (ht : t < 64) :
    roundVars hin block (t + 1) =
      shaRound (roundVars hin block t) (sha256K.getD t 0, (schedule block).getD t 0) := by
  obtain ⟨-, hlen⟩ := schedule_scheduled block
  have hzip : t < (sha256K.zip (schedule block)).length := by
    rw [List.length_zip, sha256K_length, hlen]
    exact ht
  rw [roundVars, List.take_succ_eq_append_getElem hzip, List.foldl_append, List.getElem_zip,
    List.getD_eq_getElem _ _ (sha256K_length ▸ ht), List.getD_eq_getElem _ _ (hlen ▸ ht)]
  rfl

theorem shaWordsOf_shaVarsOf : ∀ {hin : List Word}, hin.length = 8 → shaWordsOf (shaVarsOf hin) = hin
  | [_, _, _, _, _, _, _, _], _ => rfl

/-- The compression step adds the variables after round 64 to the chaining value. -/
theorem sha256Compress_eq (hin : List Word) (block : Bytes) : sha256Compress hin block =
    List.zipWith (· + ·) (shaWordsOf (shaVarsOf hin)) (shaWordsOf (roundVars hin block 64)) := by
  have hall : (sha256K.zip (schedule block)).length ≤ 64 :=
    List.length_zip.trans_le (Nat.min_le_left _ _)
  rw [sha256Compress, roundVars, List.take_of_length_le hall]

/-- Settles O32: the schedule the machine computes, and its working variables round by round. -/
theorem compressionIsTheRecurrence : Obligations.CompressionIsTheRecurrence := by
  intro hin block hhin _
  obtain ⟨hsched, hlen⟩ := schedule_scheduled block
  have hws := beWords_length 16 block
  refine ⟨fun t => (schedule block).getD t 0, roundVars hin block, fun t ht => ?_, fun t hle hlt => ?_,
    shaWordsOf_shaVarsOf hhin, fun t ht => ?_, sha256Compress_eq hin block⟩
  · exact (hsched.start t (hws.symm ▸ ht)).trans (beWords_getD ht block)
  · exact hsched.next t (hws.symm ▸ hle) (hlen.symm ▸ hlt)
  · simp only [roundVars_succ hin block ht, shaRound]

end Sys2Proof.Machine
end

section
/-! Proofs of the hash family (41_hash): the three commands of the hash unit where their checks pass (R129 to
R131), and data given to a context in two parts (R127). -/

namespace Sys2Proof.Machine

open Sys2Proof.Spec

/-! ## What holds where the checks pass (R254) -/

theorem firstOf_eq_none {cs : List (Bool × StatusCode)} : firstOf cs = none ↔ ∀ p ∈ cs, p.1 = false := by
  induction cs with
  | nil => simp [firstOf]
  | cons p cs ih =>
    obtain ⟨b, c⟩ := p
    cases b <;> simp [firstOf, ih]

theorem failure_eq_none {i : Instr} {s : State} :
    failure i s = none ↔ badAddress s i = false ∧ ∀ p ∈ checks i s, p.1 = false := by
  rw [Spec.failure, firstOf_eq_none, List.forall_mem_cons]

theorem addrOk_of_failure {i : Instr} {s : State} (h : failure i s = none) {a : Word}
    (ha : a ∈ i.addresses) : s.addrOk a = true := by
  obtain ⟨hgood, -⟩ := failure_eq_none.1 h
  rw [badAddress, List.any_eq_false] at hgood
  exact addrOk_iff.2 (by simpa using hgood a ha)

/-- An allocation that does not fail has a least free slot and enough pool bytes (R100). -/
theorem room_of_allocFails {s : State} {size : Nat} (h : allocFails s size = false) :
    (∃ h, leastFree s h) ∧ size ≤ s.poolFree.toNat := by
  obtain ⟨hslots, hroom⟩ := Bool.or_eq_false_iff.1 h
  obtain ⟨x, hx, hfree⟩ := List.all_eq_false.1 hslots
  obtain rfl : x = .free := by simpa using hfree
  have hsome : s.freeSlot?.isSome := by
    rw [State.freeSlot?, List.findIdx?_isSome]
    exact List.any_eq_true.2 ⟨.free, hx, rfl⟩
  obtain ⟨h, hh⟩ := Option.isSome_iff_exists.1 hsome
  exact ⟨⟨h, freeSlot?_spec hh⟩, by simpa using hroom⟩

/-- The handle and phase checks of a hash command pass for an ACTIVE hash context (R102). -/
theorem exists_hashActive {s : State} {h : Byte} (hslot : notHash s h = false) (hphase : isFinal s h = false) :
    ∃ c, s.slotAt h = some (.hash (.active c)) := by
  obtain ⟨c, hc⟩ := notHash_eq_false.1 hslot
  cases c with
  | active c => exact ⟨c, hc⟩
  | final => simp [isFinal, show s.ctx[h.toNat]? = _ from hc] at hphase

/-- The handle and phase checks of an HMAC command pass for an ACTIVE HMAC context (R102). -/
theorem exists_hmacActive {s : State} {h : Byte} (hslot : notHmac s h = false) (hphase : isFinal s h = false) :
    ∃ alg inner tpl, s.slotAt h = some (.hmac (.active alg inner tpl)) := by
  obtain ⟨c, hc⟩ := notHmac_eq_false.1 hslot
  cases c with
  | active alg inner tpl => exact ⟨alg, inner, tpl, hc⟩
  | final => simp [isFinal, show s.ctx[h.toNat]? = _ from hc] at hphase

/-- The handle and phase checks of a GCM command pass for a GCM context in none of the phases checked for. -/
theorem exists_gcmNotIn {s : State} {h : Byte} {ps : List GcmPhase} (hslot : notGcm s h = false)
    (hphase : gcmIn s h ps = false) : ∃ g, s.slotAt h = some (.gcm g) ∧ g.phase ∉ ps := by
  obtain ⟨g, hg⟩ := notGcm_eq_false.1 hslot
  exact ⟨g, hg, by simpa [gcmIn, show s.ctx[h.toNat]? = _ from hg] using hphase⟩

/-- Under the invariant the context of a hash command that passes its checks is ACTIVE and well formed. -/
theorem Inv.hashActive {s : State} (hs : Inv s) {i : Instr} {h : Byte}
    (hi : checks i s = [(notHash s h, .invalidArgument), (isFinal s h, .invalidState)])
    (hpass : failure i s = none) : ∃ c, s.slotAt h = some (.hash (.active c)) ∧ c.wf := by
  obtain ⟨-, hchecks⟩ := failure_eq_none.1 hpass
  obtain ⟨hslot, hphase⟩ : notHash s h = false ∧ isFinal s h = false := by simpa [hi] using hchecks
  obtain ⟨c, hc⟩ := exists_hashActive hslot hphase
  exact ⟨c, hc, hs.contexts _ (List.mem_of_getElem? hc)⟩

/-! ## The commands of the hash unit (R129 to R131) -/

/-- Settles O29: the context of `hashInit sha256` in the slot that is allocated. -/
theorem hashCreateMakesAFreshContext : Obligations.HashCreateMakesAFreshContext := by
  intro s alg hs
  refine ⟨exec_failsAsListed _ s, fun hpass => ?_⟩
  obtain ⟨-, hchecks⟩ := failure_eq_none.1 hpass
  obtain ⟨halg, halloc⟩ : alg = 0 ∧ allocFails s 112 = false := by simpa [checks] using hchecks
  obtain ⟨hslots, hroom⟩ := room_of_allocFails halloc
  obtain ⟨h, hfree⟩ := hs.exists_handle hslots
  refine ⟨h.toNat, hfree, ?_⟩
  rw [halg, execHashCreate_pass (freeSlot?_of_leastFree hfree) hroom, okHandle, BitVec.ofNat_toNat,
    BitVec.setWidth_eq, State.withStatus, statusWord_eq_status]
  rfl

section
variable {c : HashLive} (hc : c.wf)
include hc

theorem HashLive.wf.blockSize_eq : c.blockSize = 64 := by
  obtain ⟨d, hd, -, hblock, -⟩ := hc
  obtain ⟨-, rfl⟩ := lookupAlg_some hd
  exact BitVec.eq_of_toNat_eq hblock

theorem HashLive.wf.buf_length : c.buf.length = c.count.toNat % 64 := by
  obtain ⟨d, hd, -, -, -, hbuf⟩ := hc
  obtain ⟨-, rfl⟩ := lookupAlg_some hd
  exact hbuf

end

/-- Settles O30: the update's closed form over the buffer the command reads. -/
theorem hashUpdateAbsorbsTheData : Obligations.HashUpdateAbsorbsTheData := by
  intro s h data len hs
  refine ⟨exec_failsAsListed _ s, fun hpass => ?_⟩
  obtain ⟨c, hslot, hc⟩ := hs.hashActive (h := h) rfl hpass
  have haddr : s.addrOk data = true := addrOk_of_failure hpass (by simp [Instr.addresses])
  refine ⟨c, hslot, ?_⟩
  rw [execHashUpdate_pass haddr hslot hc, hashUpdate_eq hc.blockSize_eq hc.buf_length, buffer_length]
  rfl

/-- Settles O31: the padding's closed form, and a digest of 32 bytes. -/
theorem hashDigestWritesTheDigest : Obligations.HashDigestWritesTheDigest := by
  intro s h out hs
  refine ⟨exec_failsAsListed _ s, fun hpass => ?_⟩
  obtain ⟨c, hslot, hc⟩ := hs.hashActive (h := h) rfl hpass
  have haddr : s.addrOk out = true := addrOk_of_failure hpass (by simp [Instr.addresses])
  have hlen : (finishFrom sha256 c.state c.count.toNat c.buf).length = 32 := by
    rw [← hashFinish_eq hc.blockSize_eq hc.buf_length, hashFinish_length hc]
  refine ⟨c, hslot, hlen, ?_⟩
  rw [execHashDigest_pass haddr hslot hc, hashFinish_eq hc.blockSize_eq hc.buf_length, State.memWrite_eq, hlen]
  rfl

/-! ## A buffer in two parts (R59) -/

section
variable {s : State} {data data2 la lb lab : Nat} (h2 : data2 = s.wrap (data + la)) (hlab : lab = la + lb)
include h2 hlab

theorem bufferAddrs_split :
    bufferAddrs s.cfg data lab = bufferAddrs s.cfg data la ++ bufferAddrs s.cfg data2 lb := by
  have hwrap : s.byteAddrs (s.wrap (data + la)) lb = s.byteAddrs (data + la) lb :=
    State.byteAddrs_wrap_add rfl (data + la) 0 lb
  rw [hlab, bufferAddrs_add, h2]
  exact congrArg _ hwrap.symm

theorem buffer_split : buffer s data lab = buffer s data la ++ buffer s data2 lb := by
  simp only [buffer, bufferAddrs_split h2 hlab, List.map_append]

theorem reads_split : reads s data lab = reads s data la ++ reads s data2 lb := by
  simp only [reads, bufferAddrs_split h2 hlab, List.map_append]

end

/-! ## A context that takes data (R130, R153, R231) -/

/-- The data command `mk` on the context `x` succeeds and makes `f` of the data. -/
inductive Takes : (Byte → Word → Word → Instr) → Slot → (Bytes → Slot) → Prop
  | hash {c : HashLive} {d : HashAlg} (hd : lookupAlg c.alg = some d) :
      Takes .hashUpdate (.hash (.active c)) fun bs => .hash (.active (hashUpdate d c bs))
  | hmac {alg : Byte} {inner : HashLive} {tpl : PrfTemplate} {d : HashAlg} (hd : lookupAlg alg = some d) :
      Takes .hmacUpdate (.hmac (.active alg inner tpl)) fun bs =>
        .hmac (.active alg (hashUpdate d inner bs) tpl)
  | aad {g : GcmCtx} (hp : g.phase = .aad) : Takes .gcmAad (.gcm g) fun bs => .gcm (bs.foldl gcmAadByte g)

@[simp] theorem gcmAadByte_phase (g : GcmCtx) (b : Byte) : (gcmAadByte g b).phase = g.phase := by
  unfold gcmAadByte
  dsimp only
  split <;> rfl

@[simp] theorem gcmAad_phase (g : GcmCtx) (s : Bytes) : (s.foldl gcmAadByte g).phase = g.phase := by
  induction s generalizing g with
  | nil => rfl
  | cons b s ih => exact (ih _).trans (gcmAadByte_phase g b)

section
variable {mk : Byte → Word → Word → Instr} {x : Slot} {f : Bytes → Slot} {s : State} {h : Byte} {data : Word}

/-- The context a data command leaves takes more data as the one before took it behind the first. -/
theorem Takes.append (ht : Takes mk x f) (a : Bytes) : Takes mk (f a) fun b => f (a ++ b) := by
  cases ht with
  | @hash c d hd =>
    simp only [hashUpdate_append]
    exact .hash ((hashUpdate_fields d c a).1 ▸ hd)
  | hmac hd =>
    simp only [hashUpdate_append]
    exact .hmac hd
  | @aad g hp =>
    simp only [List.foldl_append]
    exact .aad ((gcmAad_phase g a).trans hp)

theorem Takes.exec (ht : Takes mk x f) (haddr : s.addrOk data = true) (hx : s.slotAt h = some x) (len : Word) :
    exec (mk h data len) s = ok ((s.afterRead data.toNat len.toNat).setSlot h.toNat
      (f (buffer s data.toNat len.toNat))) := by
  have hall : [data].all s.addrOk = true := by simp [haddr]
  cases ht with
  | hash hd => exact (requireAddrs_pass hall).trans ((withHash_pass hx).trans (withAlg_pass hd))
  | hmac hd => exact (requireAddrs_pass hall).trans ((withHmac_pass hx).trans (withAlg_pass hd))
  | aad hp => exact execGcmAad_pass haddr hx hp len

theorem withAlg_fail {alg : Byte} {k : HashAlg → Result} (h : lookupAlg alg = none) :
    withAlg s alg k = fail .unsupportedAlgorithm s := by simp [withAlg, h]

/-- Whether the algorithm of the context is known does not hang on the length either (assumption log 7). -/
theorem exec_lookup_cases {alg : Byte} {k : Word → HashAlg → Result} (haddr : s.addrOk data = true)
    (hx : s.slotAt h = some x) (hrun : ∀ len, exec (mk h data len) s = withAlg s alg (k len))
    (htakes : ∀ d, lookupAlg alg = some d → ∃ f, Takes mk x f) :
    (∃ code, code ≠ .ok ∧ ∀ len, exec (mk h data len) s = fail code s) ∨
      (s.addrOk data = true ∧ ∃ x f, s.slotAt h = some x ∧ Takes mk x f) := by
  cases hd : lookupAlg alg with
  | none => exact .inl ⟨.unsupportedAlgorithm, by decide, fun len => (hrun len).trans (withAlg_fail hd)⟩
  | some d =>
    obtain ⟨f, ht⟩ := htakes d hd
    exact .inr ⟨haddr, x, f, hx, ht⟩

/-- Neither the checks of a data command nor the lookup of its context's algorithm see the length: it fails for
every length, or for none. -/
theorem exec_data_cases (hmk : mk = .hashUpdate ∨ mk = .hmacUpdate ∨ mk = .gcmAad) (h : Byte) (data : Word)
    (s : State) :
    (∃ code, code ≠ .ok ∧ ∀ len, exec (mk h data len) s = fail code s) ∨
      (s.addrOk data = true ∧ ∃ x f, s.slotAt h = some x ∧ Takes mk x f) := by
  have hlen : ∀ len, failure (mk h data len) s = failure (mk h data 0) s := by
    rcases hmk with rfl | rfl | rfl <;> exact fun _ => rfl
  cases hf : failure (mk h data 0) s with
  | some code =>
    refine .inl ⟨code, ?_, fun len => exec_of_failure ((hlen len).trans hf)⟩
    rintro rfl
    exact failure_code_ne_zero hf rfl
  | none =>
    have haddr : s.addrOk data = true :=
      addrOk_of_failure hf (by rcases hmk with rfl | rfl | rfl <;> simp [Instr.addresses])
    have hall : [data].all s.addrOk = true := by simp [haddr]
    obtain ⟨-, hchecks⟩ := failure_eq_none.1 hf
    rcases hmk with rfl | rfl | rfl
    · obtain ⟨hslot, hphase⟩ : notHash s h = false ∧ isFinal s h = false := by simpa [checks] using hchecks
      obtain ⟨c, hc⟩ := exists_hashActive hslot hphase
      exact exec_lookup_cases haddr hc (fun _ => (requireAddrs_pass hall).trans (withHash_pass hc))
        fun d hd => ⟨_, .hash hd⟩
    · obtain ⟨hslot, hphase⟩ : notHmac s h = false ∧ isFinal s h = false := by simpa [checks] using hchecks
      obtain ⟨alg, inner, tpl, hc⟩ := exists_hmacActive hslot hphase
      exact exec_lookup_cases haddr hc (fun _ => (requireAddrs_pass hall).trans (withHmac_pass hc))
        fun d hd => ⟨_, .hmac hd⟩
    · obtain ⟨hslot, hphase⟩ : notGcm s h = false ∧ gcmIn s h [.init, .cipher, .done] = false := by
        simpa [checks] using hchecks
      obtain ⟨g, hg, hp⟩ := exists_gcmNotIn hslot hphase
      have haad : g.phase = .aad := by cases hg' : g.phase <;> simp [hg'] at hp ⊢
      exact .inr ⟨haddr, _, _, hg, .aad haad⟩

/-- The second of two data commands finds the context the first put back, and reads on where it stopped. -/
theorem Takes.runCommands_split {data2 la lb lab : Word} (ht : Takes mk x f) (haddr : s.addrOk data = true)
    (hx : s.slotAt h = some x) (h2 : data2.toNat = s.wrap (data.toNat + la.toNat))
    (hlab : lab.toNat = la.toNat + lb.toNat) :
    runCommands [mk h data la, mk h data2 lb] s = runCommands [mk h data lab] s := by
  let a := buffer s data.toNat la.toNat
  have hfirst := ht.exec haddr hx la
  have hsecond := (ht.append a).exec (s := putBack h.toNat (f a) (s.afterRead data.toNat la.toNat))
    (State.addrOk_of_wrap h2) (slotAt_putBack (State.afterRead_ctx ..) hx) lb
  rw [runCommands_cons_putBack hfirst, runCommands_single, runCommands_single, hsecond, ht.exec haddr hx lab,
    buffer_split h2 hlab]
  simp only [putBack, ok, State.afterRead_eq, State.setSlot, State.withStatus, reads_split h2 hlab,
    List.append_assoc, List.set_set]
  rfl

end

/-- Settles O33: where the first of the two fails so does the one, and else the context takes the rest. -/
theorem splitDataIsTheSameAsWhole : Obligations.SplitDataIsTheSameAsWhole := by
  intro s h data data2 la lb lab mk hmk h2 hlab
  rcases exec_data_cases hmk h data s with ⟨code, hcode, hfail⟩ | ⟨haddr, x, f, hx, ht⟩
  · rw [runCommands_cons_fail (hfail la) hcode, runCommands_single, hfail]
  · exact ht.runCommands_split haddr hx h2 hlab

end Sys2Proof.Machine
end

section
/-! Proofs of the HMAC family (42_hmac): the three commands of the HMAC unit where their checks pass (R152 to
R154), and the HMAC of a stream (R155). -/

namespace Sys2Proof.Machine

open Sys2Proof.Spec

/-! ## The keyed hash in closed form (R151, R154) -/

/-- The template is the chaining values after the two padded keys (R151). -/
theorem hmacTemplate_eq (key : Bytes) :
    hmacTemplate sha256 key = ⟨sha256Compress sha256Init (xorPad (keyBlock sha256 key) 0x36),
      sha256Compress sha256Init (xorPad (keyBlock sha256 key) 0x5c)⟩ := by
  rw [hmacTemplate, hmacK0_eq]
  rfl

/-- The outer hash has counted one block and the inner digest when it is padded (R154). -/
theorem prfFinish_eq_finishFrom {c : HashLive} (hc : c.wf) (ostate : List Word) :
    prfFinish sha256 c ostate =
      finishFrom sha256 ostate 96 (finishFrom sha256 c.state c.count.toNat c.buf) := by
  have hbuf : (hmacInner sha256 ostate).buf.length = (hmacInner sha256 ostate).count.toNat % 64 := by
    simp [hmacInner, hashInit, sha256]
  rw [prfFinish, hashFinish_update rfl hbuf, hashFinish_length hc, hashFinish_eq hc.blockSize_eq hc.buf_length]
  rfl

/-! ## The commands of the HMAC unit, where their checks pass (R152 to R154) -/

section
variable {s : State} {h : Byte} {alg : Byte} {inner : HashLive} {tpl : PrfTemplate}

/-- HMAC_INIT puts the primed context of the key in the slot that is allocated. -/
theorem execHmacInit_pass {key : Word} {h : Nat} (haddr : s.addrOk key = true) (hfree : s.freeSlot? = some h)
    (hroom : 176 ≤ s.poolFree.toNat) (keyLen : Word) :
    let tpl := hmacTemplate sha256 (buffer s key.toNat keyLen.toNat)
    exec (.hmacInit 0 key keyLen) s = okHandle h
      ((({ s with poolFree := s.poolFree - 176 } : State).afterRead key.toNat keyLen.toNat).setSlot h
        (.hmac (.active 0 (hmacInner sha256 tpl.istate) tpl))) := by
  have halg : lookupAlg 0 = some sha256 := rfl
  intro tpl
  rw [exec, execHmacInit, requireAddrs_pass (by simp [haddr]), withAlg_pass halg]
  exact withAlloc_pass hfree hroom

theorem execHmacFinal_pass {out : Word} (haddr : s.addrOk out = true)
    (hslot : s.slotAt h = some (.hmac (.active alg inner tpl))) (halg : lookupAlg alg = some sha256)
    (hostate : tpl.ostate.length = 8) :
    exec (.hmacFinal h out) s = ok ((s.memWrite out.toNat (prfFinish sha256 inner tpl.ostate)).setSlot h.toNat
      (.hmac (.final alg))) := by
  have hrun : exec (.hmacFinal h out) s = ok ((s.setSlot h.toNat (.hmac (.final alg))).memWrite out.toNat
      ((prfFinish sha256 inner tpl.ostate).take sha256.digestBytes)) :=
    (requireAddrs_pass (by simp [haddr])).trans ((withHmac_pass hslot).trans (withAlg_pass halg))
  have hlen : (prfFinish sha256 inner tpl.ostate).length = sha256.digestBytes := prfFinish_length inner hostate
  rw [hrun, List.take_of_length_le hlen.le, State.memWrite_setSlot]

/-- What an ACTIVE HMAC context owes the table's one row: its inner hash and its outer chaining value. -/
theorem HmacCtx.wf.inner_ostate (hc : (HmacCtx.active alg inner tpl).wf) :
    inner.wf ∧ tpl.ostate.length = 8 := by
  obtain ⟨-, hinner, d, hd, -, hostate⟩ := hc
  obtain ⟨-, rfl⟩ := lookupAlg_some hd
  exact ⟨hinner, hostate⟩

/-- Under the invariant the context of an HMAC command that passes its checks is ACTIVE and well formed. -/
theorem Inv.hmacActive (hs : Inv s) {i : Instr}
    (hi : checks i s = [(notHmac s h, .invalidArgument), (isFinal s h, .invalidState)])
    (hpass : failure i s = none) :
    ∃ alg inner tpl, s.slotAt h = some (.hmac (.active alg inner tpl)) ∧
      (HmacCtx.active alg inner tpl).wf := by
  obtain ⟨-, hchecks⟩ := failure_eq_none.1 hpass
  obtain ⟨hslot, hphase⟩ : notHmac s h = false ∧ isFinal s h = false := by simpa [hi] using hchecks
  obtain ⟨alg, inner, tpl, hc⟩ := exists_hmacActive hslot hphase
  exact ⟨alg, inner, tpl, hc, hs.contexts _ (List.mem_of_getElem? hc)⟩

end

/-- Settles O35: the template's closed form over the key the command reads, in the slot that is allocated. -/
theorem hmacInitPrimesTheTemplate : Obligations.HmacInitPrimesTheTemplate := by
  intro s alg key keyLen hs
  refine ⟨exec_failsAsListed _ s, fun hpass => ?_⟩
  have haddr : s.addrOk key = true := addrOk_of_failure hpass (by simp [Instr.addresses])
  obtain ⟨-, hchecks⟩ := failure_eq_none.1 hpass
  obtain ⟨halg, halloc⟩ : alg = 0 ∧ allocFails s 176 = false := by simpa [checks] using hchecks
  obtain ⟨hslots, hroom⟩ := room_of_allocFails halloc
  obtain ⟨h, hfree⟩ := hs.exists_handle hslots
  refine ⟨h.toNat, hfree, keyBlock_length _, ?_⟩
  rw [halg, execHmacInit_pass haddr (freeSlot?_of_leastFree hfree) hroom, hmacTemplate_eq, okHandle,
    BitVec.ofNat_toNat, BitVec.setWidth_eq, State.withStatus, statusWord_eq_status]
  rfl

/-- Settles O36: the inner hash's closed form over the buffer the command reads. -/
theorem hmacUpdateFeedsTheInnerHash : Obligations.HmacUpdateFeedsTheInnerHash := by
  intro s h data len hs
  refine ⟨exec_failsAsListed _ s, fun hpass => ?_⟩
  obtain ⟨alg, inner, tpl, hslot, hc⟩ := hs.hmacActive (h := h) rfl hpass
  obtain ⟨hinner, -⟩ := hc.inner_ostate
  have haddr : s.addrOk data = true := addrOk_of_failure hpass (by simp [Instr.addresses])
  refine ⟨alg, inner, tpl, hslot, ?_⟩
  rw [(Takes.hmac hc.lookup).exec haddr hslot, hashUpdate_eq hinner.blockSize_eq hinner.buf_length,
    buffer_length]
  rfl

/-- Settles O37: both paddings' closed form, and a MAC of 32 bytes. -/
theorem hmacFinalWritesTheMac : Obligations.HmacFinalWritesTheMac := by
  intro s h out hs
  refine ⟨exec_failsAsListed _ s, fun hpass => ?_⟩
  obtain ⟨alg, inner, tpl, hslot, hc⟩ := hs.hmacActive (h := h) rfl hpass
  obtain ⟨hinner, hostate⟩ := hc.inner_ostate
  have haddr : s.addrOk out = true := addrOk_of_failure hpass (by simp [Instr.addresses])
  have hlen := finishFrom_length hostate 96 (finishFrom sha256 inner.state inner.count.toNat inner.buf)
  refine ⟨alg, inner, tpl, hslot, hlen, ?_⟩
  rw [execHmacFinal_pass haddr hslot hc.lookup hostate, prfFinish_eq_finishFrom hinner, State.memWrite_eq, hlen]
  rfl

/-! ## The HMAC of a stream (R155) -/

section
variable {mk : Byte → Word → Word → Instr} {x : Slot} {f : Bytes → Slot} {t : State} {h : Byte}

/-- No data leaves the context as it is (R130, R153, R231). -/
theorem Takes.nil (ht : Takes mk x f) : f [] = x := by
  cases ht <;> rfl

/-- Any number of data commands on a context: it holds what it makes of the concatenation of their data, and a
sequence goes on from there. Without one of them `STATUS` stays what it was. -/
theorem Takes.runCommands_parts (ht : Takes mk x f) {parts : List (Word × Word)}
    (hparts : ∀ p ∈ parts, t.addrOk p.1 = true) (hx : t.slotAt h = some x) (rest : List Instr) :
    ∃ w, let y := f (parts.flatMap fun p => buffer t p.1.toNat p.2.toNat)
      let u : State := { t with
        ctx := t.ctx.set h.toNat y
        log := t.log ++ parts.flatMap fun p => reads t p.1.toNat p.2.toNat
        status := w }
      runCommands (parts.map (fun p => mk h p.1 p.2) ++ rest) t = runCommands rest u ∧ u.slotAt h = some y := by
  induction parts generalizing t x f with
  | nil =>
    obtain ⟨hlt, hslot⟩ := List.getElem?_eq_some_iff.1 hx
    have hctx : t.ctx.set h.toNat (f []) = t.ctx := by rw [ht.nil, ← hslot, List.set_getElem_self]
    exact ⟨t.status, by simp [hctx], List.getElem?_set_self hlt⟩
  | cons p parts ih =>
    obtain ⟨hp, hparts⟩ := List.forall_mem_cons.1 hparts
    let a := buffer t p.1.toNat p.2.toNat
    obtain ⟨w, hrun, -⟩ := ih (ht.append a) (t := putBack h.toNat (f a) (t.afterRead p.1.toNat p.2.toNat))
      hparts (slotAt_putBack (State.afterRead_ctx ..) hx)
    refine ⟨w, ?_, List.getElem?_set_self (State.slotAt_lt hx)⟩
    rw [List.map_cons, List.cons_append, runCommands_cons_putBack (ht.exec hp hx p.2), hrun]
    simp only [putBack, List.flatMap_cons, State.withStatus, State.setSlot, State.afterRead_eq, List.set_set,
      List.append_assoc]
    rfl

end

/-- The last two commands: the MAC is written, the slot and its pool bytes are free. -/
theorem runCommands_hmacFinal {t : State} {h alg : Byte} {inner : HashLive} {tpl : PrfTemplate} {out : Word}
    (hslot : t.slotAt h = some (.hmac (.active alg inner tpl))) (halg : lookupAlg alg = some sha256)
    (hostate : tpl.ostate.length = 8) (hout : t.addrOk out = true) :
    runCommands [.hmacFinal h out, .ctxRelease h] t = .next { t with
      ctx := t.ctx.set h.toNat .free
      poolFree := t.poolFree + 176
      mem := stored t out.toNat (prfFinish sha256 inner tpl.ostate)
      log := t.log ++ writes t out.toNat 32
      status := status 0 0xFF } := by
  have hsize : Slot.size (.hmac (.final alg)) = 176 := by
    rw [Slot.size, sizeOfAlg, halg]
    rfl
  rw [runCommands_cons_putBack (execHmacFinal_pass hout hslot halg hostate), runCommands_single,
    execCtxRelease_pass (slotAt_putBack (State.memWrite_ctx ..) hslot) rfl]
  simp only [putBack, ok, State.release, hsize, State.memWrite_eq, prfFinish_length inner hostate,
    State.setSlot, State.withStatus, List.set_set]
  rfl

/-- Updates and the last two commands: the MAC is that of what the inner hash held and the data. -/
theorem runCommands_hmacStream {t : State} {h alg : Byte} {inner : HashLive} {tpl : PrfTemplate} {out : Word}
    {parts : List (Word × Word)} (hslot : t.slotAt h = some (.hmac (.active alg inner tpl)))
    (halg : lookupAlg alg = some sha256) (hostate : tpl.ostate.length = 8)
    (hparts : ∀ p ∈ parts, t.addrOk p.1 = true) (hout : t.addrOk out = true) :
    runCommands (parts.map (fun p => .hmacUpdate h p.1 p.2) ++ [.hmacFinal h out, .ctxRelease h]) t =
      .next { t with
        ctx := t.ctx.set h.toNat .free
        poolFree := t.poolFree + 176
        mem := stored t out.toNat (prfFinish sha256
          (hashUpdate sha256 inner (parts.flatMap fun p => buffer t p.1.toNat p.2.toNat)) tpl.ostate)
        log := t.log ++ (parts.flatMap fun p => reads t p.1.toNat p.2.toNat) ++ writes t out.toNat 32
        status := status 0 0xFF } := by
  obtain ⟨w, hrun, hheld⟩ := (Takes.hmac halg).runCommands_parts hparts hslot [.hmacFinal h out, .ctxRelease h]
  rw [hrun, runCommands_hmacFinal hheld halg hostate hout, List.set_set]
  rfl

/-- Settles O38: the commands after HMAC_INIT are a stream on the primed context. -/
theorem hmacOfTheDataIsWritten : Obligations.HmacOfTheDataIsWritten := by
  intro s key keyLen parts out hs hkey hparts hout hfree hroom
  obtain ⟨h, hh⟩ := hs.exists_handle hfree
  obtain ⟨hlt, hslot⟩ := List.getElem?_eq_some_iff.1 hh.1
  rw [runWithHandle_okHandle (execHmacInit_pass (addrOk_iff.2 hkey) (freeSlot?_of_leastFree hh) hroom keyLen)]
  rw [runCommands_hmacStream
    (slotAt_setSlot_withStatus (u := ({ s with poolFree := s.poolFree - 176 } : State).afterRead key.toNat
      keyLen.toNat) rfl hlt) rfl (hmacTemplate_lengths _).2 (fun p hp => addrOk_iff.2 (hparts p hp))
    (addrOk_iff.2 hout), prfFinish_eq]
  have hctx : ∀ x : Slot, (s.ctx.set h.toNat x).set h.toNat .free = s.ctx := by
    intro x
    rw [List.set_set, ← hslot, List.set_getElem_self]
  have hpool : s.poolFree - 176 + 176 = s.poolFree := BitVec.sub_add_cancel ..
  simp only [State.withStatus, State.setSlot, State.afterRead_eq, hctx, hpool]
  rfl

end Sys2Proof.Machine
end

section
/-! Proofs of the PBKDF2 family (43_pbkdf2): a derivation's blocks are those of R170, and storing them one by one
stores the derived key (R170 to R173). -/

namespace Sys2Proof.Machine

open Sys2Proof.Spec

/-! ## The output blocks (R170, R171) -/

/-- From `U(j+1)` on, the inner loop takes the chain's next `n` members into `T`. -/
theorem pbkdf2Loop_eq (pw salt : Bytes) (i n j : Nat) (t : Bytes) :
    pbkdf2Loop sha256 (hmacTemplate sha256 pw) n (prfChain sha256 pw salt i j) t =
      (List.range n).foldl (fun t k => xorBytes t (prfChain sha256 pw salt i (j + k + 1))) t := by
  induction n generalizing j t with
  | zero => rfl
  | succ n ih =>
    have hnext : hmacOf sha256 pw (prfChain sha256 pw salt i j) = prfChain sha256 pw salt i (j + 1) := rfl
    rw [pbkdf2Loop, prfFinish_eq, hnext, ih, List.range_succ_eq_map, List.foldl_cons, List.foldl_map]
    simp only [Nat.add_zero, Nat.add_right_comm j 1, Nat.succ_eq_add_one, Nat.add_assoc]

theorem pbkdf2Block_eq (pw salt : Bytes) (iter i : Nat) :
    pbkdf2Block sha256 (pbkdf2Setup sha256 pw salt) iter i = prfBlock sha256 pw salt iter i := by
  have htpl : (pbkdf2Setup sha256 pw salt).tpl = hmacTemplate sha256 pw := rfl
  have hfirst : prfFinish sha256 (hashUpdate sha256 (pbkdf2Setup sha256 pw salt).salted (beBytes 4 i))
      (hmacTemplate sha256 pw).ostate = prfChain sha256 pw salt i 0 := by
    rw [pbkdf2Setup, ← hashUpdate_append, prfFinish_eq, prfChain]
  simp only [pbkdf2Block, htpl, hfirst, pbkdf2Loop_eq, Nat.zero_add, prfBlock]

theorem prfBlock_length (pw salt : Bytes) (iter i : Nat) : (prfBlock sha256 pw salt iter i).length = 32 := by
  rw [← pbkdf2Block_eq]
  exact pbkdf2Block_length (hmacTemplate_lengths pw).2 iter i

/-- The first `n` output blocks, one after another. -/
def prfBlocks (pw salt : Bytes) (iter n : Nat) : Bytes :=
  (List.range n).flatMap fun i => prfBlock sha256 pw salt iter (i + 1)

theorem prfBlocks_succ (pw salt : Bytes) (iter n : Nat) :
    prfBlocks pw salt iter (n + 1) = prfBlocks pw salt iter n ++ prfBlock sha256 pw salt iter (n + 1) := by
  rw [prfBlocks, List.range_succ, List.flatMap_append, List.flatMap_singleton, prfBlocks]

theorem prfBlocks_length (pw salt : Bytes) (iter n : Nat) : (prfBlocks pw salt iter n).length = n * 32 := by
  simp [prfBlocks, List.length_flatMap, prfBlock_length]

theorem pbkdf2Of_eq (pw salt : Bytes) (iter outLen : Nat) : pbkdf2Of sha256 pw salt iter outLen =
    (prfBlocks pw salt iter (pbkdf2BlockCount sha256 outLen)).take outLen := rfl

theorem pbkdf2BlockCount_sha256 (outLen : Nat) : pbkdf2BlockCount sha256 outLen = (outLen + 31) / 32 := rfl

theorem pbkdf2Of_length (pw salt : Bytes) (iter outLen : Nat) :
    (pbkdf2Of sha256 pw salt iter outLen).length = outLen := by
  rw [pbkdf2Of_eq, List.length_take, prfBlocks_length, pbkdf2BlockCount_sha256]
  omega

/-! ## Storing the blocks (R53, R171) -/

/-- Bytes stored right behind others are stored with them. -/
theorem State.memWrite_append (s : State) (addr : Nat) (v w : Bytes) :
    (s.memWrite addr v).memWrite (addr + v.length) w = s.memWrite addr (v ++ w) := by
  have haddrs : s.byteAddrs addr (v ++ w).length =
      s.byteAddrs addr v.length ++ s.byteAddrs (addr + v.length) w.length := by
    rw [List.length_append]
    exact bufferAddrs_add s.cfg addr v.length w.length
  have hlen : (s.byteAddrs addr v.length).length = v.length := by simp [State.byteAddrs]
  have hcells : s.mem.writeAll ((s.byteAddrs addr (v ++ w).length).zip (v ++ w)) = (s.mem.writeAll
      ((s.byteAddrs addr v.length).zip v)).writeAll ((s.byteAddrs (addr + v.length) w.length).zip w) := by
    rw [haddrs, List.zip_append hlen, Memory.writeAll_append]
  rw [State.memWrite, State.memWrite, State.memWrite, hcells, haddrs, List.map_append, ← List.append_assoc]
  rfl

theorem State.memWrite_nil (s : State) (addr : Nat) : s.memWrite addr [] = s := by
  simp [State.memWrite, State.byteAddrs]

/-- Of each block there is something left to store, and the last one is cut to that (R171). -/
theorem pbkdf2WriteBlock_memWrite (s : State) (pw salt : Bytes) (iter out : Nat) {outLen n : Nat}
    (hn : n < pbkdf2BlockCount sha256 outLen) :
    pbkdf2WriteBlock sha256 (pbkdf2Setup sha256 pw salt) iter out outLen
        (s.memWrite out ((prfBlocks pw salt iter n).take outLen)) n =
      s.memWrite out ((prfBlocks pw salt iter (n + 1)).take outLen) := by
  rw [pbkdf2BlockCount_sha256] at hn
  have hdone : (prfBlocks pw salt iter n).take outLen = prfBlocks pw salt iter n :=
    List.take_of_length_le (by rw [prfBlocks_length]; omega)
  have hcut : (prfBlock sha256 pw salt iter (n + 1)).take (min 32 (outLen - n * 32)) =
      (prfBlock sha256 pw salt iter (n + 1)).take (outLen - n * 32) := by
    rw [List.take_eq_take_iff, prfBlock_length]
    omega
  calc pbkdf2WriteBlock sha256 (pbkdf2Setup sha256 pw salt) iter out outLen
        (s.memWrite out ((prfBlocks pw salt iter n).take outLen)) n
    _ = (s.memWrite out (prfBlocks pw salt iter n)).memWrite (out + (prfBlocks pw salt iter n).length)
          ((prfBlock sha256 pw salt iter (n + 1)).take (outLen - n * 32)) := by
        rw [hdone, pbkdf2WriteBlock, pbkdf2Block_eq, prfBlocks_length, ← hcut]
        rfl
    _ = s.memWrite out ((prfBlocks pw salt iter (n + 1)).take outLen) := by
        rw [State.memWrite_append, prfBlocks_succ, List.take_append, hdone, prfBlocks_length]

/-- All blocks are stored as one buffer, whatever `out` overlaps: they are computed from the scratch alone. -/
theorem pbkdf2Fold_memWrite (s : State) (pw salt : Bytes) (iter out outLen : Nat) :
    (List.range (pbkdf2BlockCount sha256 outLen)).foldl
        (pbkdf2WriteBlock sha256 (pbkdf2Setup sha256 pw salt) iter out outLen) s =
      s.memWrite out (pbkdf2Of sha256 pw salt iter outLen) := by
  have hupto : ∀ n ≤ pbkdf2BlockCount sha256 outLen, (List.range n).foldl
      (pbkdf2WriteBlock sha256 (pbkdf2Setup sha256 pw salt) iter out outLen) s =
        s.memWrite out ((prfBlocks pw salt iter n).take outLen) := by
    intro n hn
    induction n with
    | zero => simp [prfBlocks, State.memWrite_nil]
    | succ n ih =>
      rw [List.range_succ, List.foldl_append, ih (Nat.le_of_succ_le hn)]
      exact pbkdf2WriteBlock_memWrite s pw salt iter out hn
  rw [hupto _ le_rfl, pbkdf2Of_eq]

/-! ## PBKDF2_DERIVE, where its checks pass (R171, R173) -/

/-- Behind the checks of its operands a derivation of no bytes ends OK, and any other asks for the scratch's pool
bytes, reads the password and the salt and writes the derived key (R31, R171, R173). -/
theorem execPbkdf2Derive_pass {s : State} {pw salt out iter : Word}
    (haddrs : [pw, salt, out].all s.addrOk = true) (hiter : iter ≠ 0) (pwLen saltLen outLen : Word) :
    exec (.pbkdf2Derive 0 pw pwLen salt saltLen out outLen iter) s =
      if outLen = 0 then ok s
      else if s.poolFree.toNat < 352 then fail .outOfMemory s
      else ok (((s.afterRead pw.toNat pwLen.toNat).afterRead salt.toNat saltLen.toNat).memWrite out.toNat
        (pbkdf2Of sha256 (buffer s pw.toNat pwLen.toNat) (buffer s salt.toNat saltLen.toNat) iter.toNat
          outLen.toNat)) := by
  have halg : lookupAlg 0 = some sha256 := rfl
  rw [exec, execPbkdf2Derive, requireAddrs_pass haddrs, withAlg_pass halg, requireArg_pass (by simpa using hiter),
    sizePbkdf2_sha256, ← pbkdf2Fold_memWrite]
  rfl

/-- Settles O39: the output blocks, each stored behind the one before, are R170's derived key of the password and
the salt read before the first of them. -/
theorem pbkdf2WritesTheDerivedKey : Obligations.Pbkdf2WritesTheDerivedKey := by
  intro s alg pw pwLen salt saltLen out outLen iter _
  refine ⟨exec_failsAsListed _ s, fun hpass => ?_⟩
  have haddrs : [pw, salt, out].all s.addrOk = true := List.all_eq_true.2 fun _ => addrOk_of_failure hpass
  obtain ⟨-, hchecks⟩ := failure_eq_none.1 hpass
  obtain ⟨rfl, hiter, hroom⟩ : alg = 0 ∧ iter ≠ 0 ∧ (outLen ≠ 0 → 352 ≤ s.poolFree.toNat) := by
    simpa [checks] using hchecks
  have hrun := execPbkdf2Derive_pass haddrs hiter pwLen saltLen outLen
  refine ⟨fun hzero => ?none, fun hsome => ?derived⟩
  case none =>
    rw [hrun, if_pos hzero, ok, State.withStatus, statusWord_eq_status]
    rfl
  case derived =>
    rw [hrun, if_neg hsome, if_neg (Nat.not_lt.2 (hroom hsome)), State.memWrite_eq, pbkdf2Of_length,
      State.afterRead_eq, State.afterRead_eq, ok, State.withStatus, statusWord_eq_status]
    simp only [List.append_assoc]
    rfl

end Sys2Proof.Machine
end

section
/-! Proofs of the AES family (44_aes): the S-box is the affine map of the inverse in GF(2^8) (R190), and the round-key
schedule the machine builds word by word is the recurrence (R192). -/

namespace Sys2Proof.Machine

/-! ## The S-box (R190, R191) -/

/-- The product in GF(2^8) modulo `x^8 + x^4 + x^3 + x + 1`: the multiples of `a` by powers of `x` (R191) that
`b`'s bits select. -/
def byteMul (a b : Byte) : Byte :=
  ((List.range 8).foldl (fun (r : Byte × Byte) i =>
    (if b.getLsbD i then r.1 ^^^ r.2 else r.1, xtime r.2)) (0, a)).1

/-- The inverse of R190's affine map `A`. -/
def affineInv (y : Byte) : Byte := y.rotateLeft 1 ^^^ y.rotateLeft 3 ^^^ y.rotateLeft 6 ^^^ 0x05

/-- `A` undoes it, bit by bit (R190). -/
theorem affine_affineInv : ∀ y : Byte, ∀ i < 8, y.getLsbD i =
    ((affineInv y).getLsbD i ^^ (affineInv y).getLsbD ((i + 4) % 8) ^^ (affineInv y).getLsbD ((i + 5) % 8) ^^
      (affineInv y).getLsbD ((i + 6) % 8) ^^ (affineInv y).getLsbD ((i + 7) % 8) ^^ (0x63 : Byte).getLsbD i) := by
  decide

/-- The table's own check (R190): what `A` maps to `SBOX[a]` is the inverse of `a`. -/
theorem byteMul_affineInv_sbox : ∀ a : Byte, a ≠ 0 → byteMul a (affineInv (sbox a)) = 1 := by
  decide

/-- Settles O40: the byte that `A` maps to `SBOX[a]` is 0 for 0 and the inverse of every other `a`. -/
theorem sboxIsTheAffineInverse : Obligations.SboxIsTheAffineInverse := by
  intro a
  refine ⟨affineInv (sbox a), fun hzero => ?_, fun hne => ?_, affine_affineInv (sbox a)⟩
  · rw [hzero]
    rfl
  · exact byteMul_affineInv_sbox a hne

/-! ## The round-key schedule (R192) -/

/-- `rk` begins with the key's words `ws` and goes on by R192's recurrence, `Nk` being their number. -/
structure KeyScheduled (ws rk : List Word) : Prop where
  length : ws.length ≤ rk.length
  start : ∀ i < ws.length, rk.getD i 0 = ws.getD i 0
  next : ∀ i, ws.length ≤ i → i < rk.length →
    rk.getD i 0 = rk.getD (i - ws.length) 0 ^^^ keyTemp ws.length i (rk.getD (i - 1) 0)

theorem keyStep_length (nk : Nat) (rk : List Word) : (keyStep nk rk).length = rk.length + 1 := by
  simp [keyStep]

theorem keyStep_getD_of_lt (nk : Nat) {rk : List Word} {i : Nat} (hi : i < rk.length) :
    (keyStep nk rk).getD i 0 = rk.getD i 0 := List.getD_append _ _ _ _ hi

theorem keyStep_getD_length (nk : Nat) (rk : List Word) : (keyStep nk rk).getD rk.length 0 =
    rk.getD (rk.length - nk) 0 ^^^ keyTemp nk rk.length (rk.getD (rk.length - 1) 0) := by
  rw [keyStep, List.getD_append_right _ _ _ _ le_rfl, Nat.sub_self]
  rfl

theorem KeyScheduled.refl (ws : List Word) : KeyScheduled ws ws :=
  ⟨le_rfl, fun _ _ => rfl, fun _ hle hlt => absurd hlt (Nat.not_lt.2 hle)⟩

/-- One more word by the recurrence. -/
theorem KeyScheduled.keyStep {ws rk : List Word} (hws : 0 < ws.length) (h : KeyScheduled ws rk) :
    KeyScheduled ws (keyStep ws.length rk) where
  length := by
    rw [keyStep_length]
    exact Nat.le_succ_of_le h.length
  start := fun i hi => by rw [keyStep_getD_of_lt _ (hi.trans_le h.length), h.start i hi]
  next := fun i hle hlt => by
    rw [keyStep_length] at hlt
    have hback : ∀ k, 0 < k → (Machine.keyStep ws.length rk).getD (i - k) 0 = rk.getD (i - k) 0 :=
      fun k hk => keyStep_getD_of_lt _ (by omega)
    rw [hback _ hws, hback 1 Nat.one_pos]
    rcases Nat.lt_succ_iff_lt_or_eq.1 hlt with hold | rfl
    · rw [keyStep_getD_of_lt _ hold, h.next i hle hold]
    · exact keyStep_getD_length _ rk

/-- The words a key expands to follow the recurrence from the key's own. -/
theorem keyExpand_keyScheduled {key : Bytes} (hkey : 4 ≤ key.length) :
    KeyScheduled (beWords (key.length / 4) key) (keyExpand key) := by
  have hws := beWords_length (key.length / 4) key
  have hpos : 0 < (beWords (key.length / 4) key).length := by omega
  rw [keyExpand, List.foldl_const, List.length_range]
  generalize 4 * (roundsOf key.length + 1) - key.length / 4 = n
  induction n with
  | zero => exact .refl _
  | succ n ih =>
    rw [Function.iterate_succ_apply']
    simpa only [hws] using ih.keyStep hpos

/-- Settles O41: every word the expansion appends follows R192's recurrence, and the steps after it keep the word. -/
theorem keyScheduleIsTheRecurrence : Obligations.KeyScheduleIsTheRecurrence := by
  intro key hkey
  have hmin : ∀ n ∈ [16, 24, 32], 4 ≤ n := by decide
  have hsched := keyExpand_keyScheduled (hmin _ hkey)
  have hws := beWords_length (key.length / 4) key
  have hlen : (keyExpand key).length = 4 * (key.length / 4 + 6 + 1) := keyExpand_length hkey
  refine ⟨rfl, hlen, fun i hi => ?_, fun i hle hlt => ?_⟩
  · exact (hsched.start i (hws.symm ▸ hi)).trans (beWords_getD hi key)
  · have hnext := hsched.next i (hws.symm ▸ hle) (hlen.symm ▸ hlt)
    rwa [hws] at hnext

end Sys2Proof.Machine
end

section
/-! Proofs of the GCM family (45_gcm): the field multiplication (R210) and the counter (R212). -/

namespace Sys2Proof.Machine

/-! ## Maps of blocks that sums pass through -/

/-- `f` takes sums to sums. -/
def XorLinear (f : Block → Block) : Prop := ∀ x y, f (x ^^^ y) = f x ^^^ f y

theorem XorLinear.map_zero {f : Block → Block} (hf : XorLinear f) : f 0 = 0 := by
  have h := hf 0 0
  rwa [BitVec.xor_self, BitVec.xor_self] at h

theorem XorLinear.comp {f g : Block → Block} (hf : XorLinear f) (hg : XorLinear g) :
    XorLinear fun x => f (g x) := fun x y =>
  (congrArg f (hg x y)).trans (hf (g x) (g y))

theorem XorLinear.iterate {f : Block → Block} (hf : XorLinear f) (n : Nat) : XorLinear f^[n] := by
  induction n with
  | zero => exact fun _ _ => rfl
  | succ n ih => exact ih.comp hf

/-- The blocks with one bit set determine such a map: every other block is a sum of them. -/
theorem XorLinear.ext {f g : Block → Block} (hf : XorLinear f) (hg : XorLinear g)
    (hbit : ∀ i < 128, f (BitVec.twoPow 128 i) = g (BitVec.twoPow 128 i)) (x : Block) : f x = g x := by
  have hbelow : ∀ n ≤ 128, ∀ x : Block, (∀ i, n ≤ i → x.getLsbD i = false) → f x = g x := by
    intro n hn
    induction n with
    | zero =>
      intro x hx
      obtain rfl : x = 0 := BitVec.eq_of_getLsbD_eq fun i _ => by simp [hx]
      rw [hf.map_zero, hg.map_zero]
    | succ n ih =>
      intro x hx
      have hclear : ∀ y : Block, (∀ i, n < i → y.getLsbD i = false) → y.getLsbD n = false → f y = g y := by
        refine fun y hy hn' => ih (Nat.le_of_succ_le hn) y fun i hi => ?_
        rcases Nat.eq_or_lt_of_le hi with rfl | hlt
        · exact hn'
        · exact hy i hlt
      cases htop : x.getLsbD n with
      | false => exact hclear x hx htop
      | true =>
        have hrest : f (x ^^^ BitVec.twoPow 128 n) = g (x ^^^ BitVec.twoPow 128 n) := by
          refine hclear _ (fun i hi => ?_) ?_ <;> rw [BitVec.getLsbD_xor, BitVec.getLsbD_twoPow]
          · simp [hx i hi, hi.ne]
          · simp [htop, Nat.lt_of_succ_le hn]
        have hsum : x = (x ^^^ BitVec.twoPow 128 n) ^^^ BitVec.twoPow 128 n := by
          rw [BitVec.xor_assoc, BitVec.xor_self, BitVec.xor_zero]
        rw [hsum, hf, hg, hrest, hbit n hn]
  exact hbelow 128 le_rfl x fun i hi => BitVec.getLsbD_of_ge x i hi

/-! ## Multiplication by `x` (R210) -/

theorem xor_xor_xor_comm (a b c d : Block) : (a ^^^ b) ^^^ (c ^^^ d) = (a ^^^ c) ^^^ (b ^^^ d) := by ac_rfl

/-- What each iteration of GMUL makes of `V`: its product with `x`. -/
def mulX (v : Block) : Block := if v.getLsbD 0 then (v >>> 1) ^^^ ghashR else v >>> 1

theorem mulX_xorLinear : XorLinear mulX := by
  intro v w
  have hleft : ∀ a b r : Block, (a ^^^ b) ^^^ r = (a ^^^ r) ^^^ b := fun a b r => by ac_rfl
  have hboth : ∀ a b r : Block, a ^^^ b = (a ^^^ r) ^^^ (b ^^^ r) := fun a b r => by
    rw [xor_xor_xor_comm, BitVec.xor_self, BitVec.xor_zero]
  unfold mulX
  rw [BitVec.getLsbD_xor, BitVec.ushiftRight_xor_distrib]
  cases v.getLsbD 0 <;> cases w.getLsbD 0
  · rfl
  · exact BitVec.xor_assoc ..
  · exact hleft _ _ ghashR
  · exact hboth _ _ ghashR

/-- The block `80 00 .. 00` of the polynomial 1. -/
def gmulOne : Block := BitVec.twoPow 128 127

/-- `x^i` has the one bit `i` set, counted from the most significant (R210). -/
theorem iterate_mulX_one {i : Nat} (hi : i < 128) : mulX^[i] gmulOne = BitVec.twoPow 128 (127 - i) := by
  induction i with
  | zero => rfl
  | succ i ih =>
    have hlow : (BitVec.twoPow 128 (127 - i)).getLsbD 0 = false := by
      rw [BitVec.getLsbD_twoPow, decide_eq_false (p := 127 - i = 0) (by omega), Bool.and_false]
    rw [Function.iterate_succ_apply', ih (Nat.lt_of_succ_lt hi), mulX, hlow]
    refine BitVec.eq_of_getLsbD_eq fun j _ => ?_
    simp only [Bool.false_eq_true, if_false, BitVec.getLsbD_ushiftRight, BitVec.getLsbD_twoPow,
      ← Bool.decide_and]
    exact decide_eq_decide.2 (by omega)

/-- Two such maps that agree on the powers of `x` are the same. -/
theorem XorLinear.ext_powers {f g : Block → Block} (hf : XorLinear f) (hg : XorLinear g)
    (hpower : ∀ i < 128, f (mulX^[i] gmulOne) = g (mulX^[i] gmulOne)) (x : Block) : f x = g x := by
  refine hf.ext hg (fun i hi => ?_) x
  have hi' : 127 - i < 128 := by omega
  rw [← Nat.sub_sub_self (Nat.le_of_lt_succ hi), ← iterate_mulX_one hi', hpower _ hi']

/-! ## GMUL as a sum (R210) -/

/-- The accumulator `Z` of GMUL after `n` iterations: the multiples of `y` by powers of `x` that the bits of `x`
select. -/
def gmulSum (x y : Block) : Nat → Block
  | 0 => 0
  | n + 1 => gmulSum x y n ^^^ if x.getLsbD (127 - n) then mulX^[n] y else 0

theorem gmulFold_eq (x y : Block) (n : Nat) :
    (List.range n).foldl (gmulStep x) (0, y) = (gmulSum x y n, mulX^[n] y) := by
  induction n with
  | zero => rfl
  | succ n ih =>
    rw [List.range_succ, List.foldl_append, ih, Function.iterate_succ_apply']
    refine Prod.ext ?_ rfl
    change (if _ then _ else _) = _ ^^^ if _ then _ else _
    split
    · rfl
    · exact (BitVec.xor_zero ..).symm

theorem gmul_eq (x y : Block) : gmul x y = gmulSum x y 128 := by rw [gmul, gmulFold_eq]

theorem gmulSum_xorLinear_left (z : Block) (n : Nat) : XorLinear fun x => gmulSum x z n := by
  intro x y
  induction n with
  | zero => exact BitVec.xor_self.symm
  | succ n ih =>
    simp only [gmulSum, ih, BitVec.getLsbD_xor]
    rw [xor_xor_xor_comm]
    cases x.getLsbD (127 - n) <;> cases y.getLsbD (127 - n) <;> simp

theorem gmulSum_xorLinear_right (x : Block) (n : Nat) : XorLinear fun y => gmulSum x y n := by
  intro y z
  induction n with
  | zero => exact BitVec.xor_self.symm
  | succ n ih =>
    simp only [gmulSum, ih, mulX_xorLinear.iterate n y z]
    rw [xor_xor_xor_comm]
    cases x.getLsbD (127 - n) <;> simp

theorem gmul_xorLinear_left (z : Block) : XorLinear fun x => gmul x z := by
  simpa only [gmul_eq] using gmulSum_xorLinear_left z 128

theorem gmul_xorLinear_right (x : Block) : XorLinear (gmul x) := fun y z => by
  simpa only [gmul_eq] using gmulSum_xorLinear_right x 128 y z

/-- The product with `x^i` is `i` products with `x`. -/
theorem gmul_iterate_mulX_one {i : Nat} (hi : i < 128) (y : Block) :
    gmul (mulX^[i] gmulOne) y = mulX^[i] y := by
  have hsum : ∀ n ≤ 128, gmulSum (BitVec.twoPow 128 (127 - i)) y n = if i < n then mulX^[i] y else 0 := by
    intro n hn
    induction n with
    | zero => rfl
    | succ n ih =>
      have hbit : (BitVec.twoPow 128 (127 - i)).getLsbD (127 - n) = decide (i = n) := by
        rw [BitVec.getLsbD_twoPow, ← Bool.decide_and]
        exact decide_eq_decide.2 (by omega)
      rw [gmulSum, ih (Nat.le_of_succ_le hn), hbit]
      rcases Nat.lt_trichotomy i n with hlt | rfl | hgt
      · simp [hlt, hlt.ne, Nat.lt_succ_of_lt hlt]
      · simp
      · simp [Nat.not_lt.2 hgt.le, hgt.ne', Nat.not_lt.2 (Nat.succ_le_of_lt hgt)]
  rw [gmul_eq, iterate_mulX_one hi, hsum 128 le_rfl, if_pos hi]

/-! ## The laws of the product -/

/-- Products of powers of `x` are powers of `x`, whichever is the first factor. -/
theorem gmul_comm (x y : Block) : gmul x y = gmul y x := by
  refine (gmul_xorLinear_left y).ext_powers (gmul_xorLinear_right y) (fun i hi => ?_) x
  refine (gmul_xorLinear_right _).ext_powers (gmul_xorLinear_left _) (fun j hj => ?_) y
  rw [gmul_iterate_mulX_one hi, gmul_iterate_mulX_one hj, ← Function.iterate_add_apply,
    ← Function.iterate_add_apply, Nat.add_comm]

/-- Products with `x` may be taken out of the second factor. -/
theorem gmul_iterate_mulX (x y : Block) (n : Nat) : gmul x (mulX^[n] y) = mulX^[n] (gmul x y) := by
  refine (gmul_xorLinear_left _).ext_powers ((mulX_xorLinear.iterate n).comp (gmul_xorLinear_left y))
    (fun i hi => ?_) x
  rw [gmul_iterate_mulX_one hi, gmul_iterate_mulX_one hi, ← Function.iterate_add_apply,
    ← Function.iterate_add_apply, Nat.add_comm]

theorem gmul_assoc (x y z : Block) : gmul (gmul x y) z = gmul x (gmul y z) := by
  refine ((gmul_xorLinear_left z).comp (gmul_xorLinear_left y)).ext_powers (gmul_xorLinear_left _)
    (fun i hi => ?_) x
  rw [gmul_iterate_mulX_one hi, gmul_iterate_mulX_one hi, gmul_comm, gmul_iterate_mulX, gmul_comm z]

/-- The block `40 00 .. 00` is the polynomial `x`. -/
theorem gmul_x (y : Block) : gmul y 0x40000000000000000000000000000000 = mulX y :=
  (gmul_comm ..).trans (gmul_iterate_mulX_one (i := 1) (by decide) y)

theorem natCast_shiftLeft (n : Nat) : ((1 <<< n : Nat) : Block) = BitVec.twoPow 128 n := by
  refine BitVec.eq_of_toNat_eq ?_
  rw [BitVec.toNat_twoPow, ← Nat.one_shiftLeft]
  rfl

/-- Settles O42: products with powers of `x` are iterations of one linear map, and every block is a sum of
powers of `x`. -/
theorem gmulIsMultiplicationModuloThePolynomial : Obligations.GmulIsMultiplicationModuloThePolynomial := by
  refine ⟨gmul_comm, gmul_assoc, fun x y z => gmul_xorLinear_left z x y,
    fun y => gmul_iterate_mulX_one (i := 0) (by decide) y, fun i hi => ?power, ?check⟩
  case power =>
    have hnext : 127 - (i + 1) = 126 - i := by omega
    rw [gmul_x, natCast_shiftLeft, natCast_shiftLeft, ← iterate_mulX_one (by omega),
      ← Function.iterate_succ_apply' mulX, iterate_mulX_one (by omega), hnext]
  case check =>
    rw [gmul_x]
    rfl

/-! ## The counter block (R212) -/

/-- Settles O43: the low word is incremented as a 32-bit number, and the bits above it are put back. -/
theorem inc32CountsTheLastFourBytes : Obligations.Inc32CountsTheLastFourBytes := by
  intro cb
  have hhigh : cb.toNat / 2 ^ 32 < 2 ^ 96 := by have := cb.isLt; omega
  have hlow : (cb.extractLsb' 0 32 + 1).toNat = (cb.toNat % 2 ^ 32 + 1) % 2 ^ 32 := by
    rw [BitVec.toNat_add, BitVec.extractLsb'_toNat]
    rfl
  rw [inc32, BitVec.toNat_append, Nat.shiftLeft_eq, Nat.mul_comm, ← Nat.two_pow_add_eq_or_of_lt (BitVec.isLt _),
    hlow, BitVec.extractLsb'_toNat, Nat.shiftRight_eq_div_pow, Nat.mod_eq_of_lt hhigh]

end Sys2Proof.Machine
end

section
/-! Proofs of the GCM family (45_gcm): what each command of the AES-GCM unit does where its checks pass (R230 to
R235). -/

namespace Sys2Proof.Machine

open Sys2Proof.Spec

/-! ## What holds where the checks pass (R254) -/

section
variable {s : State} {h : Byte}

/-- Under the invariant the context of a GCM command that passes its checks is well formed, in none of the phases
checked for. -/
theorem Inv.gcmNotIn (hs : Inv s) {i : Instr} {ps : List GcmPhase}
    (hi : checks i s = [(notGcm s h, .invalidArgument), (gcmIn s h ps, .invalidState)])
    (hpass : failure i s = none) : ∃ g, s.slotAt h = some (.gcm g) ∧ g.wf ∧ g.phase ∉ ps := by
  obtain ⟨-, hchecks⟩ := failure_eq_none.1 hpass
  obtain ⟨hslot, hphase⟩ : notGcm s h = false ∧ gcmIn s h ps = false := by simpa [hi] using hchecks
  obtain ⟨g, hg, hp⟩ := exists_gcmNotIn hslot hphase
  exact ⟨g, hg, hs.contexts _ (List.mem_of_getElem? hg), hp⟩

/-- Under the invariant the context of a command that takes no DONE context is well formed and live. -/
theorem Inv.gcmLive (hs : Inv s) {i : Instr}
    (hi : checks i s = [(notGcm s h, .invalidArgument), (gcmIn s h [.done], .invalidState)])
    (hpass : failure i s = none) : ∃ g, s.slotAt h = some (.gcm g) ∧ g.wf ∧ g.phase ≠ .done := by
  obtain ⟨g, hg, hwf, hp⟩ := hs.gcmNotIn hi hpass
  exact ⟨g, hg, hwf, by simpa using hp⟩

end

/-! ## GCM_INIT (R230) -/

theorem okHandle_toNat (h : Byte) (s : State) : okHandle h.toNat s = .next (s.withStatus .ok h) := by
  rw [okHandle, BitVec.ofNat_toNat, BitVec.setWidth_eq]

/-- The context GCM_INIT builds is that of the reference's key material (R230). -/
theorem gcmInitCtx_eq (t : Byte) {key : Bytes} {n : Nat} (hlen : key.length = n) (iv : Bytes) :
    let k := gcmKeyOf key iv
    gcmInitCtx t key iv =
      { keyLen := BitVec.ofNat 8 n, nr := BitVec.ofNat 4 k.nr, rk := k.rk, h := k.h, j0 := k.j0, cb := k.j0,
        y := 0, gbuf := [], ks := none, aadLen := 0, ctLen := 0, phase := .aad, tagLen := t } := by
  subst hlen
  rw [gcmInitCtx, deriveJ0_eq]
  rfl

/-- GCM_INIT of AES with any tag length puts the context of key and IV in the slot that is allocated. -/
theorem execGcmInit_tagLen_pass {s : State} {tagLen : Byte} {key keyLen iv ivLen : Word} {h : Nat}
    (haddrs : [key, iv].all s.addrOk = true) (hkeyLen : aesKeyLens.contains keyLen.toNat = true)
    (hivLen : ivLen ≠ 0) (htagLen : tagLenLegal.contains (tagLenOf tagLen) = true)
    (hfree : s.freeSlot? = some h) (hroom : sizeGcm (roundsOf keyLen.toNat) ≤ s.poolFree.toNat) :
    exec (.gcmInit 0 tagLen key keyLen iv ivLen) s = okHandle h
      ((({ s with poolFree := s.poolFree - BitVec.ofNat 16 (sizeGcm (roundsOf keyLen.toNat)) } : State)
          |>.afterRead key.toNat keyLen.toNat |>.afterRead iv.toNat ivLen.toNat).setSlot h
        (.gcm (gcmInitCtx (tagLenOf tagLen) (buffer s key.toNat keyLen.toNat)
          (buffer s iv.toNat ivLen.toNat)))) := by
  rw [exec, execGcmInit, requireAddrs_pass haddrs, if_neg (not_not.2 rfl), requireArg_pass hkeyLen,
    requireArg_pass (by simpa using hivLen), requireArg_pass htagLen, withAlloc_pass hfree hroom]
  rfl

/-- Settles O44: key schedule and subkey are the reference's, and so is the initial counter block in closed form. -/
theorem gcmInitBuildsTheContext : Obligations.GcmInitBuildsTheContext := by
  intro s cipher tagLen key keyLen iv ivLen hs
  refine ⟨exec_failsAsListed _ s, fun hpass => ?_⟩
  have haddrs : [key, iv].all s.addrOk = true := List.all_eq_true.2 fun _ => addrOk_of_failure hpass
  obtain ⟨-, hchecks⟩ := failure_eq_none.1 hpass
  simp only [checks, ← tagLenLegal_tagLenOf, List.forall_mem_cons, decide_eq_false_iff_not, not_not,
    Bool.not_eq_false'] at hchecks
  obtain ⟨rfl, hkeyLen, hivLen, htagLen, halloc, -⟩ := hchecks
  obtain ⟨hslots, hroom⟩ := room_of_allocFails halloc
  obtain ⟨h, hfree⟩ := hs.exists_handle hslots
  refine ⟨h.toNat, hfree, ?_⟩
  rw [execGcmInit_tagLen_pass haddrs hkeyLen hivLen htagLen (freeSlot?_of_leastFree hfree) hroom, okHandle_toNat,
    gcmInitCtx_eq _ (buffer_length ..), State.withStatus, statusWord_eq_status, State.afterRead_eq,
    State.afterRead_eq, ← List.append_assoc]
  rfl

/-! ## GCM_AAD (R231) -/

/-- Settles O45: the closed form of the fold over the buffer the command reads. -/
theorem gcmAadAbsorbsTheData : Obligations.GcmAadAbsorbsTheData := by
  intro s h data len hs
  refine ⟨exec_failsAsListed _ s, fun hpass => ?_⟩
  obtain ⟨g, hslot, hg, hp⟩ := hs.gcmNotIn (h := h) rfl hpass
  have haad : g.phase = .aad := by cases hphase : g.phase <;> simp [hphase] at hp ⊢
  have haddr : s.addrOk data = true := addrOk_of_failure hpass (by simp [Instr.addresses])
  have hpending : g.gbuf.length = g.aadLen.toNat % 16 := by simpa [GcmCtx.fill, haad] using hg.pending
  refine ⟨g, hslot, haad, ?_⟩
  rw [execGcmAad_pass haddr hslot haad, gcmAad_eq hpending, buffer_length, ok, State.withStatus,
    statusWord_eq_status]
  rfl

/-! ## GCM_ENCRYPT and GCM_DECRYPT (R232, R233) -/

/-- What a command that ends OK leaves: the master port moved memory and history, the context is put back. -/
theorem BusOnly.putBack_eq {s u : State} (hu : BusOnly s u) (h : Nat) (x : Slot) :
    putBack h x u = { s with
      ctx := s.ctx.set h x
      mem := u.mem
      log := u.log
      status := status 0 0xFF } := by
  obtain ⟨⟨hcfg, hw, hhost, hread, -⟩, hctx, hpool⟩ := hu
  obtain ⟨cfg, w, status, poolFree, ctx, mem, host, readData, log⟩ := u
  subst hcfg hw hhost hread hctx hpool
  rw [putBack, State.withStatus, statusWord_eq_status]
  rfl

section
variable {s : State} {h : Byte} {input len out : Word} {i : Instr} {enc : Bool}

/-- A cipher command that passes its checks: memory and context are those of R60's run of the bytes. -/
theorem gcmCrypt_of_checks (hs : Inv s)
    (hi : checks i s = [(notGcm s h, .invalidArgument), (gcmIn s h [.done], .invalidState)])
    (haddrs : i.addresses = [input, out]) (hpass : failure i s = none) (enc : Bool) :
    ∃ g, s.ctx[h.toNat]? = some (.gcm g) ∧ g.phase ≠ .done ∧
      let r := cryptRun enc s g input.toNat out.toNat len.toNat
      gcmCrypt enc h input len out s = .next { s with
        ctx := s.ctx.set h.toNat (.gcm (afterCipher g r.2))
        mem := r.1
        log := s.log ++ (List.range len.toNat).flatMap fun k =>
          reads s (input.toNat + k) 1 ++ writes s (out.toNat + k) 1
        status := status 0 0xFF } := by
  obtain ⟨g, hslot, hg, hp⟩ := hs.gcmLive (h := h) hi hpass
  have haddr : ∀ a ∈ [input, out], s.addrOk a = true := fun a ha => addrOk_of_failure hpass (haddrs ▸ ha)
  obtain ⟨hctx, hmem⟩ := gcmCryptRun_eq hg hp enc s input.toNat len.toNat out.toNat
  have htrace : Trace s (gcmCryptRun enc input.toNat len.toNat out.toNat g s).2 _ := gcmCryptFold_trace ..
  refine ⟨g, hslot, hp, ?_⟩
  dsimp only
  rw [gcmCrypt_pass (haddr input (by simp)) (haddr out (by simp)) hslot hp, ← hctx, ← hmem, ← htrace.log]
  exact congrArg Host.Outcome.next ((gcmCryptRun_busOnly ..).putBack_eq ..)

end

/-- Settles O46: the machine's loop is the run of the bytes, which stores the ciphertext as a whole where no input
byte is overwritten before it is read. -/
theorem gcmEncryptWritesTheCiphertext : Obligations.GcmEncryptWritesTheCiphertext := by
  intro s h input len out hs
  refine ⟨exec_failsAsListed _ s, fun hpass => ?_⟩
  obtain ⟨g, hslot, hp, hrun⟩ := gcmCrypt_of_checks (h := h) (len := len) hs rfl rfl hpass true
  refine ⟨g, hslot, hp, hrun, fun hover => ?_⟩
  rw [cryptRun_eq hover]
  exact ⟨rfl, rfl⟩

/-- Settles O47: the same loop, whose GHASH takes the bytes read. -/
theorem gcmDecryptWritesThePlaintext : Obligations.GcmDecryptWritesThePlaintext := by
  intro s h input len out hs
  refine ⟨exec_failsAsListed _ s, fun hpass => ?_⟩
  obtain ⟨g, hslot, hp, hrun⟩ := gcmCrypt_of_checks (h := h) (len := len) hs rfl rfl hpass false
  refine ⟨g, hslot, hp, hrun, fun hover => ?_⟩
  rw [cryptRun_eq hover]
  exact ⟨rfl, rfl⟩

/-! ## GCM_DIGEST (R234) -/

theorem tagOfCtx_length {g : GcmCtx} (hg : g.wf) (hp : g.phase ≠ .done) :
    (tagOfCtx g).length = g.tagLen.toNat := by
  have hlen := gcmTag_length hg
  rwa [gcmTag_eq hg hp] at hlen

/-- Settles O49: the tag's closed form, of `tag_len` bytes, from either live phase. -/
theorem gcmDigestWritesTheTag : Obligations.GcmDigestWritesTheTag := by
  intro s h tag hs
  refine ⟨exec_failsAsListed _ s, fun hpass => ?_⟩
  obtain ⟨g, hslot, hg, hp⟩ := hs.gcmLive (h := h) rfl hpass
  have haddr : s.addrOk tag = true := addrOk_of_failure hpass (by simp [Instr.addresses])
  have hlen := tagOfCtx_length hg hp
  refine ⟨g, hslot, hp, hlen, ?_⟩
  rw [execGcmDigest_pass haddr hslot hg hp, State.memWrite_eq, hlen, ok, State.withStatus, statusWord_eq_status]
  rfl

/-! ## GCM_VERIFY (R218, R235) -/

/-- A GCM_VERIFY on a DONE context fails (R235, R254). -/
theorem failure_gcmVerify_of_done {s : State} {h : Byte} {tag : Word} {g : GcmCtx} (haddr : s.addrOk tag = true)
    (hslot : s.slotAt h = some (.gcm g)) (hp : g.phase = .done) :
    failure (.gcmVerify h tag) s = some .invalidState := by
  have hbad : badAddress s (.gcmVerify h tag) = false := by
    simpa [badAddress, Instr.addresses] using addrOk_iff.1 haddr
  have hgcm : notGcm s h = false := notGcm_eq_false.2 ⟨g, hslot⟩
  have hdone : gcmIn s h [.done] = true := by simp [gcmIn, show s.ctx[h.toNat]? = _ from hslot, hp]
  rw [Spec.failure, checks, hbad, hgcm, hdone]
  rfl

/-- Settles O50: the comparison of the bytes read with the tag's closed form, and a context that is DONE after it. -/
theorem gcmVerifyComparesTheTag : Obligations.GcmVerifyComparesTheTag := by
  intro s h tag hs
  refine ⟨exec_failsAsListed _ s, fun hpass => ?_⟩
  obtain ⟨g, hslot, hg, hp⟩ := hs.gcmLive (h := h) rfl hpass
  have haddr : s.addrOk tag = true := addrOk_of_failure hpass (by simp [Instr.addresses])
  refine ⟨g, _, hslot, hp, execGcmVerify_pass haddr hslot hg hp, ?state, exec_failsAsListed _ _ _ ?again⟩
  case state =>
    rw [State.withStatus, statusWord_eq_status]
    split <;> rfl
  case again =>
    exact failure_gcmVerify_of_done haddr
      (slotAt_setSlot_withStatus (State.afterRead_ctx ..) (State.slotAt_lt hslot)) rfl

/-- What a GCM_VERIFY that passes its checks does, with or without the invariant: only its code is the
comparison's. -/
theorem execGcmVerify_code {s : State} {h : Byte} {tag : Word} {g : GcmCtx} (haddr : s.addrOk tag = true)
    (hslot : s.slotAt h = some (.gcm g)) (hp : g.phase ≠ .done) :
    ∃ code, exec (.gcmVerify h tag) s = .next (((s.afterRead tag.toNat g.tagLen.toNat).setSlot h.toNat
      (.gcm (gcmTag g).2)).withStatus code noHandle) := by
  rw [exec, execGcmVerify, requireAddrs_pass (by simp [haddr]), withGcm_pass hslot, if_neg hp]
  dsimp only [memRead]
  split
  · exact ⟨.ok, rfl⟩
  · exact ⟨.authenticationFailed, rfl⟩

/-- Settles O51: no check reads memory, and behind them the bytes read decide the code alone. -/
theorem verifyDoesNotDependOnTheTagBytes : Obligations.VerifyDoesNotDependOnTheTagBytes := by
  intro s h tag m
  have hsame : failure (.gcmVerify h tag) { s with mem := m } = failure (.gcmVerify h tag) s := rfl
  cases hfail : failure (.gcmVerify h tag) s with
  | some c =>
    exact ⟨_, _, exec_of_failure hfail, exec_of_failure (hsame.trans hfail), rfl, rfl, rfl, rfl, rfl⟩
  | none =>
    have haddr : s.addrOk tag = true := addrOk_of_failure hfail (by simp [Instr.addresses])
    obtain ⟨-, hchecks⟩ := failure_eq_none.1 hfail
    obtain ⟨hgcm, hphase⟩ : notGcm s h = false ∧ gcmIn s h [.done] = false := by simpa [checks] using hchecks
    obtain ⟨g, hslot, hp⟩ := exists_gcmNotIn hgcm hphase
    have hlive : g.phase ≠ .done := by simpa using hp
    obtain ⟨code, hrun⟩ := execGcmVerify_code haddr hslot hlive
    obtain ⟨code', hrun'⟩ := execGcmVerify_code (s := { s with mem := m }) haddr hslot hlive
    exact ⟨_, _, hrun, hrun', rfl, rfl, rfl, rfl, rfl⟩

end Sys2Proof.Machine
end

section
/-! What one context enciphers another that equals it deciphers and verifies (45_gcm R236). -/

namespace Sys2Proof.Machine

open Sys2Proof.Spec

/-! ## A buffer reads back (R52, R53, R59) -/

/-- The addresses of a buffer that fits in the memory are distinct. -/
theorem wrapped_add_ne {m addr j k : Nat} (hjk : j < k) (hk : k < m) : (addr + j) % m ≠ (addr + k) % m := by
  intro heq
  have hmod : j ≡ k [MOD m] := Nat.ModEq.add_left_cancel' addr heq
  exact hjk.ne (hmod.eq_of_lt_of_lt (hjk.trans hk) hk)

/-- What was stored is read, if it fits in the memory. -/
theorem map_read_stored {s : State} (hmem : s.mem.wf = true) (addr : Nat) {v : Bytes}
    (hv : v.length ≤ 2 ^ s.cfg.addrBits) :
    (bufferAddrs s.cfg addr v.length).map (stored s addr v).read = v := by
  induction v using List.reverseRecOn with
  | nil => rfl
  | append_singleton v b ih =>
    rw [List.length_append, List.length_singleton] at hv ⊢
    have hlast : (stored s addr (v ++ [b])).read (s.wrap (addr + v.length)) = b := by
      rw [stored_concat]
      exact Memory.read_write_same (State.memWrite_wf hmem addr v) _ b
    have hinit : (bufferAddrs s.cfg addr v.length).map (stored s addr (v ++ [b])).read =
        (bufferAddrs s.cfg addr v.length).map (stored s addr v).read := by
      refine List.map_congr_left fun x hx => ?_
      obtain ⟨j, hj, rfl⟩ := mem_bufferAddrs.1 hx
      rw [stored_concat]
      exact Memory.read_write_ne _ b (wrapped_add_ne hj hv)
    rw [bufferAddrs_succ, List.map_append, hinit, ih (Nat.le_of_succ_le hv), List.map_singleton]
    exact congrArg (v ++ [·]) hlast

section
variable {s t : State} {addr : Nat} {v : Bytes} (hcfg : t.cfg = s.cfg) (hstored : t.mem = stored s addr v)
include hcfg hstored

theorem buffer_eq_of_stored (hmem : s.mem.wf = true) {n : Nat} (hlen : v.length = n)
    (hn : n ≤ 2 ^ s.cfg.addrBits) : buffer t addr n = v := by
  subst hlen
  rw [buffer, hcfg, hstored, map_read_stored hmem addr hn]

theorem buffer_eq_of_disjoint {other n m : Nat} (hlen : v.length = m)
    (hapart : disjoint s.cfg addr m other n) : buffer t other n = buffer s other n := by
  subst hlen
  rw [buffer, hcfg, hstored]
  exact List.map_congr_left fun x hx => read_stored_of_notMem fun hmem => hapart x hmem hx

end

/-- The transform undoes itself (R216). -/
theorem GcmCtx.crypt_crypt (g : GcmCtx) (bs : Bytes) : g.crypt (g.crypt bs) = bs := by
  refine List.ext_getElem (by simp) fun k _ _ => ?_
  simp only [GcmCtx.crypt, List.getElem_mapIdx]
  rw [BitVec.xor_assoc, BitVec.xor_self, BitVec.xor_zero]

/-! ## A run on two contexts -/

/-- `t` has the parameters of `s`, memory in its form, and GCM contexts `a` and `b` in two slots. -/
structure HoldingTwo (s t : State) (h k : Byte) (a b : GcmCtx) : Prop where
  cfg : t.cfg = s.cfg
  memory : t.mem.wf = true
  first : t.slotAt h = some (.gcm a)
  second : t.slotAt k = some (.gcm b)

namespace HoldingTwo

variable {s t u : State} {h k : Byte} {a a' b g : GcmCtx}

theorem symm (ht : HoldingTwo s t h k a b) : HoldingTwo s t k h b a := ⟨ht.cfg, ht.memory, ht.second, ht.first⟩

theorem addrOk (ht : HoldingTwo s t h k a b) {x : Word} (hx : x.toNat < 2 ^ s.cfg.addrBits) :
    t.addrOk x = true := addrOk_iff.2 (ht.cfg ▸ hx)

/-- A command on the first context ends OK and leaves the second. -/
theorem runCommands_cons (ht : HoldingTwo s t h k a b) (hne : h ≠ k) {i : Instr}
    (hi : exec i t = ok (u.setSlot h.toNat (.gcm a'))) (hu : BusOnly t u) (is : List Instr) :
    ∃ t', runCommands (i :: is) t = runCommands is t' ∧ HoldingTwo s t' h k a' b ∧ t'.mem = u.mem ∧
      t'.status = status 0 0xFF := by
  refine ⟨_, runCommands_cons_putBack hi is, ⟨hu.cfg.trans ht.cfg, hu.memory ht.memory,
    slotAt_putBack hu.ctx ht.first, ?_⟩, rfl, rfl⟩
  have hne' : h.toNat ≠ k.toNat := fun heq => hne (BitVec.eq_of_toNat_eq heq)
  change (u.ctx.set h.toNat (.gcm a'))[k.toNat]? = _
  rw [List.getElem?_set_ne hne', hu.ctx]
  exact ht.second

/-- A cipher command on the first context, whose output leaves the input alone until it is read. -/
theorem runCommands_gcmCrypt (ht : HoldingTwo s t h k a b) (hne : h ≠ k) (ha : a.wf) (hp : a.phase ≠ .done)
    {input len out : Word} (hin : input.toNat < 2 ^ s.cfg.addrBits) (hout : out.toNat < 2 ^ s.cfg.addrBits)
    (hover : readBeforeOverwritten s.cfg input.toNat out.toNat len.toNat) {i : Instr} {enc : Bool}
    (hi : exec i t = gcmCrypt enc h input len out t) (is : List Instr) :
    let data := buffer t input.toNat len.toNat
    let a' := afterCipher a (if enc then a.crypt data else data)
    ∃ t', runCommands (i :: is) t = runCommands is t' ∧ HoldingTwo s t' h k a' b ∧
      t'.mem = stored t out.toNat (a.crypt data) ∧ a'.wf ∧ a'.phase ≠ .done := by
  intro data a'
  obtain ⟨hctx, hmem⟩ := gcmCryptRun_whole ha hp (ht.cfg ▸ hover) enc
  obtain ⟨hwf, hphase, -⟩ := gcmCryptRun_wf ha hp enc t input.toNat len.toNat out.toNat
  have hpass := hi.trans (gcmCrypt_pass (ht.addrOk hin) (ht.addrOk hout) ht.first hp enc len)
  rw [hctx] at hpass hwf hphase
  obtain ⟨t', hrun, ht', hmem', -⟩ := ht.runCommands_cons hne hpass (gcmCryptRun_busOnly ..) is
  exact ⟨t', hrun, ht', hmem'.trans hmem, hwf, hphase.trans_ne (by decide)⟩

/-- What the first context enciphers the second, equal to it, deciphers: the plaintext is at `pt`, and the two are
equal again, having taken the same ciphertext. -/
theorem runCommands_encrypt_decrypt (hs : HoldingTwo s s h k g g) (hne : h ≠ k) (hg : g.wf)
    (hp : g.phase ≠ .done) {input len ct pt : Word} (hin : input.toNat < 2 ^ s.cfg.addrBits)
    (hct : ct.toNat < 2 ^ s.cfg.addrBits) (hpt : pt.toNat < 2 ^ s.cfg.addrBits)
    (hlen : len.toNat ≤ 2 ^ s.cfg.addrBits)
    (henc : readBeforeOverwritten s.cfg input.toNat ct.toNat len.toNat)
    (hdec : readBeforeOverwritten s.cfg ct.toNat pt.toNat len.toNat) (is : List Instr) :
    let data := buffer s input.toNat len.toNat
    let g' := afterCipher g (g.crypt data)
    ∃ t, runCommands (.gcmEncrypt h input len ct :: .gcmDecrypt k ct len pt :: is) s = runCommands is t ∧
      HoldingTwo s t h k g' g' ∧ g'.wf ∧ g'.phase ≠ .done ∧ buffer t pt.toNat len.toNat = data := by
  intro data g'
  have hdata : data.length = len.toNat := buffer_length ..
  obtain ⟨t, hrun, ht, hmem, hwf, hlive⟩ := hs.runCommands_gcmCrypt hne hg hp hin hct henc (enc := true)
    (i := .gcmEncrypt h input len ct) rfl (.gcmDecrypt k ct len pt :: is)
  have hcipher : buffer t ct.toNat len.toNat = g.crypt data :=
    buffer_eq_of_stored ht.cfg hmem hs.memory ((g.crypt_length data).trans hdata) hlen
  obtain ⟨u, hrun', hu, hmem', -⟩ := ht.symm.runCommands_gcmCrypt hne.symm hg hp hct hpt hdec (enc := false)
    (i := .gcmDecrypt k ct len pt) rfl is
  rw [hcipher] at hu hmem'
  rw [g.crypt_crypt] at hmem'
  exact ⟨u, hrun.trans hrun', hu.symm, hwf, hlive,
    buffer_eq_of_stored (hu.cfg.trans ht.cfg.symm) hmem' ht.memory hdata (ht.cfg ▸ hlen)⟩

/-- The tag of the first context is what the second, equal to it, computes. -/
theorem runCommands_digest_verify (ht : HoldingTwo s t h k g g) (hne : h ≠ k) (hg : g.wf) (hp : g.phase ≠ .done)
    {tag : Word} (htag : tag.toNat < 2 ^ s.cfg.addrBits) (htagLen : g.tagLen.toNat ≤ 2 ^ s.cfg.addrBits) :
    ∃ u, runCommands [.gcmDigest h tag, .gcmVerify k tag] t = .next u ∧ u.status = status 0 0xFF ∧
      HoldingTwo s u h k (finished g) (finished g) ∧
      ∀ addr n, disjoint s.cfg tag.toNat g.tagLen.toNat addr n → buffer u addr n = buffer t addr n := by
  have hlen := tagOfCtx_length hg hp
  obtain ⟨u, hrun, hu, hmem, -⟩ := ht.runCommands_cons hne
    (execGcmDigest_pass (ht.addrOk htag) ht.first hg hp) (BusOnly.memWrite ..) [.gcmVerify k tag]
  have hcfg : u.cfg = t.cfg := hu.cfg.trans ht.cfg.symm
  have hread : buffer u tag.toNat g.tagLen.toNat = tagOfCtx g :=
    buffer_eq_of_stored hcfg hmem ht.memory hlen (ht.cfg ▸ htagLen)
  have hverify := execGcmVerify_pass (hu.addrOk htag) hu.second hg hp
  rw [if_pos hread] at hverify
  obtain ⟨v, hrun', hv, hmem', hstatus⟩ :=
    hu.symm.runCommands_cons hne.symm hverify (BusOnly.afterRead ..) []
  refine ⟨v, hrun.trans hrun', hstatus, hv.symm, fun addr n hapart => ?_⟩
  rw [buffer_congr (hv.cfg.trans hu.cfg.symm) hmem']
  exact buffer_eq_of_disjoint hcfg hmem hlen (ht.cfg ▸ hapart)

end HoldingTwo

/-- Settles O54: both contexts take the same ciphertext, so they come to the same tag, and the second transform
undoes the first. -/
theorem decryptUndoesEncrypt : Obligations.DecryptUndoesEncrypt := by
  intro s h1 h2 g input len ct pt tag hs hne hg1 hg2 hp haddrs hlen htagLen henc hdec hapart
  simp only [List.forall_mem_cons] at haddrs
  obtain ⟨hin, hct, hpt, htag, -⟩ := haddrs
  have hg : g.wf := hs.contexts _ (List.mem_of_getElem? hg1)
  have hstart : HoldingTwo s s h1 h2 g g := ⟨rfl, hs.memory, hg1, hg2⟩
  obtain ⟨t, hrun, ht, hwf, hlive, hplain⟩ := hstart.runCommands_encrypt_decrypt hne hg hp hin hct hpt hlen henc
    hdec [.gcmDigest h1 tag, .gcmVerify h2 tag]
  rw [← afterCipher_tagLen g (g.crypt (buffer s input.toNat len.toNat))] at htagLen hapart
  obtain ⟨u, hrun', hstatus, hu, hkept⟩ := ht.runCommands_digest_verify hne hwf hlive htag htagLen
  exact ⟨u, hrun.trans hrun', hstatus, (hkept _ _ hapart).trans hplain, hu.first.trans hu.second.symm⟩

end Sys2Proof.Machine
end

section
/-! Proofs of the exceptions family (60_exceptions): the idle step (R267), what a failing command leaves (R256), and
that a command on one context does not see another (R265). -/

namespace Sys2Proof.Machine

open Sys2Proof.Spec

/-! ## The idle step (R267) -/

/-- Settles O12: `step` takes the host's next access, of which there is none. -/
theorem idleStepKeepsState : Obligations.IdleStepKeepsState := by
  intro s hidle
  rw [step, hidle]

/-! ## What a failing command leaves (R256) -/

/-- The tag comparison of GCM_VERIFY is none of R254's checks, so they never report its code. -/
theorem failure_ne_authenticationFailed (i : Instr) (s : State) : failure i s ≠ some .authenticationFailed := by
  have hne : ∀ p ∈ (badAddress s i, .invalidArgument) :: checks i s, p.2 ≠ StatusCode.authenticationFailed := by
    cases i <;> simp [checks]
  intro h
  obtain ⟨b, hmem⟩ := firstOf_mem h
  exact hne _ hmem rfl

theorem StatusCode.eq_of_code_five {c : StatusCode} (h : c.code = 5) : c = .authenticationFailed := by
  cases c <;> simp [StatusCode.code] at h ⊢

/-- The context of a GCM_VERIFY that passes its checks, in any state: a GCM context that is not DONE. -/
theorem exists_gcmLive_of_failure {s : State} {h : Byte} {tag : Word} (hpass : failure (.gcmVerify h tag) s = none) :
    ∃ g, s.slotAt h = some (.gcm g) ∧ g.phase ≠ .done := by
  obtain ⟨-, hchecks⟩ := failure_eq_none.1 hpass
  obtain ⟨hgcm, hphase⟩ : notGcm s h = false ∧ gcmIn s h [.done] = false := by simpa [checks] using hchecks
  obtain ⟨g, hslot, hp⟩ := exists_gcmNotIn hgcm hphase
  exact ⟨g, hslot, by simpa using hp⟩

/-- How every command ends, by the code: it fails at once, it ends OK, or it is a GCM_VERIFY whose checks passed. -/
theorem exec_fails_or_ok_or_verifies {i : Instr} {s t : State} (ht : exec i s = .next t) :
    (∃ c, c ≠ .authenticationFailed ∧ t = s.withStatus c noHandle) ∨ t.code = 0 ∨
      (t.code = 5 ∧ failure i s = none ∧ ∃ h tag, i = .gcmVerify h tag) := by
  cases hfail : failure i s with
  | some c =>
    have hc : c ≠ .authenticationFailed := fun h => failure_ne_authenticationFailed i s (h ▸ hfail)
    exact .inl ⟨c, hc, Host.Outcome.next.inj (ht.symm.trans (exec_of_failure hfail))⟩
  | none =>
    generalize hr : exec i s = r at ht
    cases hr ▸ exec_completes hfail with
    | ok | created =>
      obtain rfl := Host.Outcome.next.inj ht
      exact .inr (.inl (State.withStatus_code ..))
    | authenticationFailed hi =>
      obtain rfl := Host.Outcome.next.inj ht
      exact .inr (.inr ⟨State.withStatus_code .., rfl, hi⟩)
    | unknownAlg => exact .inl ⟨_, by decide, (Host.Outcome.next.inj ht).symm⟩

/-- Settles O18: a command that fails writes `STATUS` alone; AuthenticationFailed is a GCM_VERIFY's behind its checks,
whose state is known but for the code. -/
theorem failingCommandChangesOnlyStatus : Obligations.FailingCommandChangesOnlyStatus := by
  intro i s t ht
  rcases exec_fails_or_ok_or_verifies ht with ⟨c, hc, rfl⟩ | hcode | ⟨hcode, hpass, h, tag, rfl⟩
  · exact ⟨fun _ => rfl, fun h => absurd (StatusCode.eq_of_code_five (State.withStatus_code .. ▸ h)) hc⟩
  · simp [hcode]
  · refine ⟨by simp [hcode], fun _ => ?_⟩
    have haddr : s.addrOk tag = true := addrOk_of_failure hpass (by simp [Instr.addresses])
    obtain ⟨g, hslot, hlive⟩ := exists_gcmLive_of_failure hpass
    obtain ⟨code, hrun⟩ := execGcmVerify_code haddr hslot hlive
    obtain rfl := Host.Outcome.next.inj (ht.symm.trans hrun)
    exact ⟨h, tag, g, rfl, hslot, rfl, rfl⟩

/-! ## Two runs that differ in one slot (R265) -/

/-- Two runs end in the same state, but that the second has `x` in slot `k`. -/
def Parallel (k : Nat) (x : Slot) (r r' : Result) : Prop := ∃ t, r = .next t ∧ r' = .next (t.setSlot k x)

section
variable {s : State} {k : Nat} {x : Slot}

theorem withStatus_parallel (u : State) (code : StatusCode) (hnd : Byte) :
    Parallel k x (.next (u.withStatus code hnd)) (.next ((u.setSlot k x).withStatus code hnd)) := ⟨_, rfl, rfl⟩

theorem fail_parallel (c : StatusCode) : Parallel k x (fail c s) (fail c (s.setSlot k x)) :=
  withStatus_parallel s c noHandle

/-- A command that ends by setting its own slot sets the same one in both runs. -/
theorem setSlot_parallel {h : Nat} (hne : k ≠ h) (u : State) (y : Slot) (code : StatusCode) (hnd : Byte) :
    Parallel k x (.next ((u.setSlot h y).withStatus code hnd))
      (.next (((u.setSlot k x).setSlot h y).withStatus code hnd)) := by
  refine ⟨_, rfl, ?_⟩
  simp only [State.setSlot, State.withStatus, List.set_comm _ _ hne]

/-! ### The checks, of which none sees slot `k` -/

theorem Parallel.ite {p : Prop} [Decidable p] {a a' b b' : Result} (ha : Parallel k x a a') (hb : Parallel k x b b') :
    Parallel k x (if p then a else b) (if p then a' else b') := by
  by_cases hp : p
  · rwa [if_pos hp, if_pos hp]
  · rwa [if_neg hp, if_neg hp]

theorem requireAddrs_parallel {as : List Word} {r r' : Result} (hr : Parallel k x r r') :
    Parallel k x (requireAddrs s as r) (requireAddrs (s.setSlot k x) as r') := hr.ite (fail_parallel _)

theorem requireArg_parallel {p : Bool} {r r' : Result} (hr : Parallel k x r r') :
    Parallel k x (requireArg s p r) (requireArg (s.setSlot k x) p r') := hr.ite (fail_parallel _)

theorem withAlg_parallel {alg : Byte} {f f' : HashAlg → Result} (hf : ∀ d, Parallel k x (f d) (f' d)) :
    Parallel k x (withAlg s alg f) (withAlg (s.setSlot k x) alg f') := by
  unfold withAlg
  cases lookupAlg alg with
  | some d => exact hf d
  | none => exact fail_parallel _

section
variable {h : Byte} (hne : k ≠ h.toNat)
include hne

theorem slotAt_setSlot_ne : (s.setSlot k x).slotAt h = s.slotAt h := List.getElem?_set_ne hne

theorem withSlot_parallel {f f' : Slot → Result} (hf : ∀ y, Parallel k x (f y) (f' y)) :
    Parallel k x (withSlot s h f) (withSlot (s.setSlot k x) h f') := by
  rw [withSlot, withSlot, slotAt_setSlot_ne hne]
  cases s.slotAt h with
  | some y => exact (fail_parallel _).ite (hf y)
  | none => exact fail_parallel _

theorem withHash_parallel {f f' : HashCtx → Result} (hf : ∀ c, Parallel k x (f c) (f' c)) :
    Parallel k x (withHash s h f) (withHash (s.setSlot k x) h f') := by
  rw [withHash, withHash, slotAt_setSlot_ne hne]
  split
  · exact hf _
  · exact fail_parallel _

theorem withHmac_parallel {f f' : HmacCtx → Result} (hf : ∀ c, Parallel k x (f c) (f' c)) :
    Parallel k x (withHmac s h f) (withHmac (s.setSlot k x) h f') := by
  rw [withHmac, withHmac, slotAt_setSlot_ne hne]
  split
  · exact hf _
  · exact fail_parallel _

theorem withGcm_parallel {f f' : GcmCtx → Result} (hf : ∀ g, Parallel k x (f g) (f' g)) :
    Parallel k x (withGcm s h f) (withGcm (s.setSlot k x) h f') := by
  rw [withGcm, withGcm, slotAt_setSlot_ne hne]
  split
  · exact hf _
  · exact fail_parallel _

end

/-! ### Allocation -/

/-- The least FREE slot stays the same where a context replaces a context (R100). -/
theorem freeSlot?_setSlot {y : Slot} (hy : s.ctx[k]? = some y) (hxy : x.isFree = y.isFree) :
    (s.setSlot k x).freeSlot? = s.freeSlot? := by
  obtain ⟨hk, rfl⟩ := List.getElem?_eq_some_iff.1 hy
  have hmap : (s.ctx.set k x).map Slot.isFree = s.ctx.map Slot.isFree := by
    rw [List.map_set, hxy, ← List.getElem_map Slot.isFree (h := by simpa using hk), List.set_getElem_self]
  have hidx : ∀ ctx : List Slot, ctx.findIdx? Slot.isFree = (ctx.map Slot.isFree).findIdx? id :=
    fun ctx => by rw [List.findIdx?_map]; rfl
  rw [State.freeSlot?, State.freeSlot?, hidx, hidx, State.setSlot_ctx, hmap]

theorem Slot.isFree_of_ne {x : Slot} (hx : x ≠ .free) : x.isFree = false := by
  cases x <;> simp [Slot.isFree] at hx ⊢

theorem withAlloc_parallel {y : Slot} (hx : x ≠ .free) (hy : s.ctx[k]? = some y) (hlive : y ≠ .free) {size : Nat}
    {f f' : Nat → State → Result}
    (hf : ∀ h u, k ≠ h → Parallel k x (f h u) (f' h (u.setSlot k x))) :
    Parallel k x (withAlloc s size f) (withAlloc (s.setSlot k x) size f') := by
  have hsame : (s.setSlot k x).freeSlot? = s.freeSlot? :=
    freeSlot?_setSlot hy (by rw [Slot.isFree_of_ne hx, Slot.isFree_of_ne hlive])
  rw [withAlloc, withAlloc, hsame]
  cases hfree : s.freeSlot? with
  | none => exact fail_parallel _
  | some h =>
    have hne : k ≠ h := by
      rintro rfl
      exact hlive (Option.some.inj (hy.symm.trans (freeSlot?_spec hfree).1))
    exact (fail_parallel _).ite (hf h _ hne)

/-! ### The loops of the master port -/

theorem gcmCryptFold_setSlot (enc : Bool) (input out : Nat) (ks : List Nat) (g : GcmCtx) :
    ks.foldl (gcmCryptStep enc input out) (g, s.setSlot k x) =
      (ks.foldl (gcmCryptStep enc input out) (g, s)).map id (State.setSlot · k x) :=
  List.foldl_hom (init := (g, s)) (Prod.map id (State.setSlot · k x)) fun _ _ => rfl

theorem pbkdf2Fold_setSlot (d : HashAlg) (scr : Pbkdf2Scratch) (iter out outLen : Nat) (is : List Nat) :
    is.foldl (pbkdf2WriteBlock d scr iter out outLen) (s.setSlot k x) =
      (is.foldl (pbkdf2WriteBlock d scr iter out outLen) s).setSlot k x :=
  List.foldl_hom (State.setSlot · k x) fun _ _ => rfl

end

/-! ### The commands with a handle -/

section
variable (s : State) {k : Nat} (x : Slot) {h : Byte} (hne : k ≠ h.toNat)
include hne

theorem execHashUpdate_parallel (data len : Word) :
    Parallel k x (execHashUpdate h data len s) (execHashUpdate h data len (s.setSlot k x)) := by
  refine requireAddrs_parallel (withHash_parallel hne fun c => ?_)
  cases c with
  | final => exact fail_parallel _
  | active c => exact withAlg_parallel fun d => setSlot_parallel hne (s.afterRead ..) ..

theorem execHashDigest_parallel (out : Word) :
    Parallel k x (execHashDigest h out s) (execHashDigest h out (s.setSlot k x)) := by
  refine requireAddrs_parallel (withHash_parallel hne fun c => ?_)
  cases c with
  | final => exact fail_parallel _
  | active c => exact withAlg_parallel fun d => setSlot_parallel hne (s.memWrite ..) ..

theorem execCtxRelease_parallel : Parallel k x (execCtxRelease h s) (execCtxRelease h (s.setSlot k x)) :=
  withSlot_parallel hne fun y =>
    setSlot_parallel hne { s with poolFree := s.poolFree + BitVec.ofNat 16 y.size } .free .ok noHandle

theorem execHmacUpdate_parallel (data len : Word) :
    Parallel k x (execHmacUpdate h data len s) (execHmacUpdate h data len (s.setSlot k x)) := by
  refine requireAddrs_parallel (withHmac_parallel hne fun c => ?_)
  cases c with
  | final => exact fail_parallel _
  | active => exact withAlg_parallel fun d => setSlot_parallel hne (s.afterRead ..) ..

theorem execHmacFinal_parallel (out : Word) :
    Parallel k x (execHmacFinal h out s) (execHmacFinal h out (s.setSlot k x)) := by
  refine requireAddrs_parallel (withHmac_parallel hne fun c => ?_)
  cases c with
  | final => exact fail_parallel _
  | active => exact withAlg_parallel fun d => setSlot_parallel hne (s.memWrite ..) ..

theorem execGcmAad_parallel (data len : Word) :
    Parallel k x (execGcmAad h data len s) (execGcmAad h data len (s.setSlot k x)) := by
  refine requireAddrs_parallel (withGcm_parallel hne fun g => (fail_parallel _).ite ?_)
  exact setSlot_parallel hne (s.afterRead ..) ..

theorem gcmCrypt_parallel (enc : Bool) (input len out : Word) :
    Parallel k x (gcmCrypt enc h input len out s) (gcmCrypt enc h input len out (s.setSlot k x)) := by
  refine requireAddrs_parallel (withGcm_parallel hne fun g => (fail_parallel _).ite ?_)
  rw [gcmCryptFold_setSlot]
  exact setSlot_parallel hne ..

theorem execGcmDigest_parallel (tag : Word) :
    Parallel k x (execGcmDigest h tag s) (execGcmDigest h tag (s.setSlot k x)) := by
  refine requireAddrs_parallel (withGcm_parallel hne fun g => (fail_parallel _).ite ?_)
  exact setSlot_parallel hne (s.memWrite ..) ..

theorem execGcmVerify_parallel (tag : Word) :
    Parallel k x (execGcmVerify h tag s) (execGcmVerify h tag (s.setSlot k x)) := by
  refine requireAddrs_parallel (withGcm_parallel hne fun g => (fail_parallel _).ite ?_)
  have hends := setSlot_parallel (x := x) hne (s.afterRead tag.toNat g.tagLen.toNat) (.gcm (gcmTag g).2)
  exact (hends .ok noHandle).ite (hends .authenticationFailed noHandle)

/-- A command with a handle does not see a slot that the handle does not name. -/
theorem exec_parallel_of_handle {i : Instr} (hi : handle i = some h) :
    Parallel k x (exec i s) (exec i (s.setSlot k x)) := by
  cases i
  case hashCreate | hmacInit | pbkdf2Derive | gcmInit | illegal => cases hi
  all_goals obtain rfl := Option.some.inj hi
  case hashUpdate data len => exact execHashUpdate_parallel s x hne data len
  case hashDigest out => exact execHashDigest_parallel s x hne out
  case ctxRelease => exact execCtxRelease_parallel s x hne
  case hmacUpdate data len => exact execHmacUpdate_parallel s x hne data len
  case hmacFinal out => exact execHmacFinal_parallel s x hne out
  case gcmAad data len => exact execGcmAad_parallel s x hne data len
  case gcmEncrypt input len out => exact gcmCrypt_parallel s x hne true input len out
  case gcmDecrypt input len out => exact gcmCrypt_parallel s x hne false input len out
  case gcmDigest tag => exact execGcmDigest_parallel s x hne tag
  case gcmVerify tag => exact execGcmVerify_parallel s x hne tag

end

/-! ### The commands without a handle -/

/-- PBKDF2_DERIVE works on no context at all (R171). -/
theorem execPbkdf2Derive_parallel (s : State) (k : Nat) (x : Slot)
    (alg : Byte) (pw pwLen salt saltLen out outLen iter : Word) :
    Parallel k x (execPbkdf2Derive alg pw pwLen salt saltLen out outLen iter s)
      (execPbkdf2Derive alg pw pwLen salt saltLen out outLen iter (s.setSlot k x)) := by
  refine requireAddrs_parallel (withAlg_parallel fun d => requireArg_parallel ?_)
  refine (withStatus_parallel s .ok noHandle).ite ((fail_parallel _).ite ?_)
  dsimp only [memRead]
  rw [State.afterRead_setSlot, State.afterRead_setSlot, pbkdf2Fold_setSlot]
  exact withStatus_parallel ..

section
variable (s : State) {k : Nat} {x y : Slot} (hx : x ≠ .free) (hy : s.ctx[k]? = some y) (hlive : y ≠ .free)
include hx hy hlive

theorem execHashCreate_parallel (alg : Byte) :
    Parallel k x (execHashCreate alg s) (execHashCreate alg (s.setSlot k x)) :=
  withAlg_parallel fun _ => withAlloc_parallel hx hy hlive fun _ u hne => setSlot_parallel hne u ..

theorem execHmacInit_parallel (alg : Byte) (key keyLen : Word) :
    Parallel k x (execHmacInit alg key keyLen s) (execHmacInit alg key keyLen (s.setSlot k x)) := by
  refine requireAddrs_parallel (withAlg_parallel fun d => withAlloc_parallel hx hy hlive fun h u hne => ?_)
  exact setSlot_parallel hne (u.afterRead ..) ..

theorem execGcmInit_parallel (cipher tagLen : Byte) (key keyLen iv ivLen : Word) :
    Parallel k x (execGcmInit cipher tagLen key keyLen iv ivLen s)
      (execGcmInit cipher tagLen key keyLen iv ivLen (s.setSlot k x)) := by
  refine requireAddrs_parallel ((fail_parallel _).ite ?_)
  refine requireArg_parallel (requireArg_parallel (requireArg_parallel ?_))
  refine withAlloc_parallel hx hy hlive fun h u hne => ?_
  exact setSlot_parallel hne ((u.afterRead ..).afterRead ..) ..

/-- A command without a handle does not see what a context holds. -/
theorem exec_parallel_of_noHandle {i : Instr} (hi : handle i = none) :
    Parallel k x (exec i s) (exec i (s.setSlot k x)) := by
  cases i
  case hashCreate alg => exact execHashCreate_parallel s hx hy hlive alg
  case hmacInit alg key keyLen => exact execHmacInit_parallel s hx hy hlive alg key keyLen
  case pbkdf2Derive alg pw pwLen salt saltLen out outLen iter =>
    exact execPbkdf2Derive_parallel s k x alg pw pwLen salt saltLen out outLen iter
  case gcmInit cipher tagLen key keyLen iv ivLen =>
    exact execGcmInit_parallel s hx hy hlive cipher tagLen key keyLen iv ivLen
  case illegal => exact fail_parallel _
  all_goals cases hi

end

/-- Settles O23: check by check and to the end the two runs stay parallel. -/
theorem otherContextsDoNotInterfere : Obligations.OtherContextsDoNotInterfere := by
  rintro i s k x (⟨h, hi, hne⟩ | ⟨hi, hx, y, hy, hlive⟩)
  · exact exec_parallel_of_handle s x hne hi
  · exact exec_parallel_of_noHandle s hx hy hlive hi

end Sys2Proof.Machine
end

section
/-! Proofs of the reset family (70_reset_and_hazards): the reset input (R271). -/

namespace Sys2Proof.Machine

/-- R34 gives STATUS as one word: code OK, and no handle. -/
theorem statusWord_ok_noHandle : statusWord .ok noHandle = 0x0000FF00 := by decide

/-- Settles O13: the step is `resetCore` past the access taken, and STATUS is R34's word. -/
theorem resetInputRestoresTheCore : Obligations.ResetInputRestoresTheCore := by
  intro s rest hhost
  rw [step_of_host hhost, hostAccess, resetCore, statusWord_ok_noHandle]

end Sys2Proof.Machine
end
